-- ==== Sys2Proof/Word.lean ====
section
/-! DEFINITION. The words of the block: every register, bus address and transfer is 32 bits (rule R7), memory is
bytes (rule R36), a sample is `BUS_WIDTH` = 10 bits (rule R43). -/

namespace Sys2Proof

/-- A 32-bit word (rule R7). -/
abbrev Word := BitVec 32

/-- One byte of ordinary memory (rule R36). -/
abbrev Byte := BitVec 8

/-- One draw of the sampled input bus: bit `i` is the level of bus input `i` (rules R43, R117). -/
abbrev Sample := BitVec 10

end Sys2Proof
end

