-- ==== Sys2Proof/Config.lean ====
section
/-! DEFINITION. The parameters of rule R6 and the values the spec leaves open. -/

namespace Sys2Proof

/-- Shift direction of the sampler's shift register (rules R6, R112, R113). -/
inductive ShiftDir where
  | left
  | right
  deriving DecidableEq, Repr

/-- A range of byte addresses, both ends included. -/
structure Region where
  lo : Nat
  hi : Nat
  deriving DecidableEq, Repr

/-- The parameters of rule R6 that have a default or are OPEN. `State` carries them so that a statement about every state
is a statement about every choice of them; no step changes them (log 1). -/
structure Params where
  /-- `NCH`, the number of DMA channels. -/
  nch : Nat
  /-- `PRI`, the index of the Primary Transfer Channel. -/
  pri : Nat
  /-- `RST`, the index of the Restart Channel. -/
  rst : Nat
  /-- `DMA_BASE`, the base address of the DMA register block. -/
  dmaBase : Word
  /-- `FIFO_ADDR`, the bus address of the sampling FIFO's read port. -/
  fifoAddr : Word
  /-- `FIFO_DEPTH`, the capacity of the sampling FIFO in words. -/
  fifoDepth : Nat
  /-- `SAMPLE_TREQ`, the transfer-request code of the sampling FIFO. -/
  sampleTreq : BitVec 6
  /-- `IN_SHIFT_DIR`, the shift direction of the sampler. -/
  inShiftDir : ShiftDir
  /-- `WAVE_PATTERN`, the waveform generator's cyclic bit sequence. -/
  wavePattern : List Bool
  /-- `RAM`, the byte addresses that are ordinary memory, as a list of ranges (log 5). -/
  ram : List Region
  /-- `ABORT_FAIR`, whether abort completion is weakly fair (rule R187). -/
  abortFair : Bool
  /-- `ABORT_RETRIES`, the poll bound of the bounded stop (rule R203). -/
  abortRetries : Nat
  deriving DecidableEq, Repr

namespace Config

/-- `BUS_WIDTH` (rule R6). -/
def busWidth : Nat := 10

/-- `PUSH_THRESHOLD` (rule R6). -/
def pushThreshold : Nat := 30

/-- `CH_STRIDE`, the address distance between channel register blocks (rules R6, R76). -/
def chStride : Nat := 0x40

/-- `ABORT_OFF`, the offset of the abort-control register (rules R6, R77). -/
def abortOff : BitVec 12 := 0x444#12

/-- `UNPACED_TREQ`, the transfer-request code meaning "unpaced" (rules R6, R87). -/
def unpacedTreq : BitVec 6 := 63#6

/-- The size of the DMA register block: `DMA_BASE .. DMA_BASE + 0xFFF` (rule R51). -/
def dmaSize : Nat := 0x1000

/-- The first bit of `WAVE_PATTERN`, which rule R6 leaves OPEN (log 3). -/
opaque waveHead : Bool

/-- The bits of `WAVE_PATTERN` after the first, which rule R6 leaves OPEN (log 3). -/
opaque waveTail : List Bool

/-- `ABORT_RETRIES`, which rule R6 leaves OPEN (log 3). -/
opaque abortRetries : Nat

/-- `any32`: the `n`-th value the environment draws, under no law (00_scope.md section 4, rules R64, R184; log 13). -/
opaque any32 : Nat → Word

/-- The value of host temporary `t` while no form of the host program has assigned it (log 20). -/
opaque unsetTemp : Nat → Word

end Config

/-- The default parameter values of rule R6; WAVE_PATTERN and ABORT_RETRIES are left open. -/
def Params.default : Params where
  nch := 12
  pri := 0
  rst := 1
  dmaBase := 0x50000000#32
  fifoAddr := 0x50200020#32
  fifoDepth := 4
  sampleTreq := 4#6
  inShiftDir := .left
  wavePattern := Config.waveHead :: Config.waveTail
  ram := [⟨0x20000000, 0x20041FFF⟩]
  abortFair := false
  abortRetries := Config.abortRetries

/-- The constraints of rules R6 and R51 on the parameters: `2 <= NCH <= 16`, `PRI` and `RST` distinct channels, `DMA_BASE`
4 KiB aligned, `FIFO_DEPTH >= 1`, a non-empty pattern, and the four regions disjoint; with the three constraints of log 4.
-/
structure Params.Valid (p : Params) : Prop where
  nch_ge : 2 ≤ p.nch
  nch_le : p.nch ≤ 16
  pri_lt : p.pri < p.nch
  rst_lt : p.rst < p.nch
  pri_ne_rst : p.pri ≠ p.rst
  dmaBase_aligned : p.dmaBase.toNat % Config.dmaSize = 0
  fifoAddr_aligned : p.fifoAddr.toNat % 4 = 0
  fifoAddr_outside : p.fifoAddr.toNat < p.dmaBase.toNat ∨ p.dmaBase.toNat + Config.dmaSize ≤ p.fifoAddr.toNat
  fifoDepth_pos : 1 ≤ p.fifoDepth
  treq_ne : p.sampleTreq ≠ Config.unpacedTreq
  wavePattern_ne : p.wavePattern ≠ []
  ram_outside_dma : ∀ r ∈ p.ram, r.hi < p.dmaBase.toNat ∨ p.dmaBase.toNat + Config.dmaSize ≤ r.lo
  ram_outside_fifo : ∀ r ∈ p.ram, r.hi < p.fifoAddr.toNat ∨ p.fifoAddr.toNat + 4 ≤ r.lo

end Sys2Proof
end

