-- ==== Sys2Proof/Machine/AddressMap.lean ====
section
/-! DEFINITION. The address space of rules R50, R51 and the register decode of rules R75 to R78. -/

namespace Sys2Proof.Machine

/-- The registers of one channel (rule R76); `ctrlTrig` and `ctrl` are two aliases of the control word. -/
inductive ChanReg where
  | readAddr
  | writeAddr
  | transCount
  | ctrlTrig
  | ctrl
  deriving DecidableEq, Repr

/-- What an offset of the DMA register block reaches: the abort register (rule R77) or a channel register (rule R76). -/
inductive RegSel where
  | abort
  | chan (c : Nat) (r : ChanReg)
  deriving DecidableEq, Repr

/-- A word address is a multiple of 4 (rule R57). -/
def aligned (a : Word) : Bool := a.toNat % 4 == 0

/-- `DMA_BASE <= a <= DMA_BASE + 0xFFF` (rule R51). -/
def inDma (p : Params) (a : Word) : Bool :=
  decide (p.dmaBase.toNat ≤ a.toNat) && decide (a.toNat < p.dmaBase.toNat + Config.dmaSize)

/-- `a` lies in `RAM` (rules R36, R51). -/
def inRam (p : Params) (a : Word) : Bool :=
  p.ram.any fun r => decide (r.lo ≤ a.toNat) && decide (a.toNat ≤ r.hi)

/-- The word at `a` is ordinary memory: `a in RAM and a+3 in RAM` (rule R52). -/
def ramWord (p : Params) (a : Word) : Bool := inRam p a && inRam p (a + 3#32)

/-- `off = a - DMA_BASE` for an address of the DMA block (rule R75). -/
def dmaOff (p : Params) (a : Word) : BitVec 12 := (a - p.dmaBase).setWidth 12

/-- The register field of an offset (rule R76). -/
def chanRegOf (reg : BitVec 6) : Option ChanReg :=
  if reg = 0x00#6 then some .readAddr
  else if reg = 0x04#6 then some .writeAddr
  else if reg = 0x08#6 then some .transCount
  else if reg = 0x0C#6 then some .ctrlTrig
  else if reg = 0x10#6 then some .ctrl
  else none

/-- The register field that names a channel register (rule R76). -/
def chanRegCode : ChanReg → BitVec 6
  | .readAddr => 0x00#6
  | .writeAddr => 0x04#6
  | .transCount => 0x08#6
  | .ctrlTrig => 0x0C#6
  | .ctrl => 0x10#6

/-- The channel field of an offset, bits 11:6 (rule R74). -/
def offChan (off : BitVec 12) : Nat := (off.extractLsb' 6 6).toNat

/-- The register field of an offset, bits 5:0 (rule R74). -/
def offReg (off : BitVec 12) : BitVec 6 := off.extractLsb' 0 6

/-- Address decode of the DMA block: the abort register first, then a channel register of an existing channel, else
unmapped (rules R75 to R78). -/
def regSel (p : Params) (off : BitVec 12) : Option RegSel :=
  if off = Config.abortOff then some .abort
  else if offChan off < p.nch then (chanRegOf (offReg off)).map (RegSel.chan (offChan off))
  else none

/-- The offset of channel `c`'s register `r`: `c * CH_STRIDE + r` (rule R76). -/
def chanOff (c : Nat) (r : ChanReg) : BitVec 12 :=
  BitVec.ofNat 12 (c * Config.chStride + (chanRegCode r).toNat)

/-- The bus address of channel `c`'s register `r` (rule R76). -/
def chanAddr (p : Params) (c : Nat) (r : ChanReg) : Word := p.dmaBase + (chanOff c r).setWidth 32

/-- The bus address of the abort-control register (rule R77). -/
def abortAddr (p : Params) : Word := p.dmaBase + Config.abortOff.setWidth 32

/-- A host access at `a` that rule R52 routes to no register and not to the FIFO port: it is misaligned, or it lies outside
the DMA block and is not `FIFO_ADDR`. -/
def routedAsMemory (p : Params) (a : Word) : Bool :=
  !aligned a || (!inDma p a && a != p.fifoAddr)

end Sys2Proof.Machine
end

