-- ==== Sys2Proof/Machine/Command.lean ====
section
/-! DEFINITION. What the agents are given to do: the operation words of 30_encoding.md with the data that travels beside
them, the forms of a host program (rule R85), and the turns of the agenda (rules R45, R62). -/

namespace Sys2Proof.Machine

/-- Ten inputs of the control-word encoder, natural numbers (rule R90). -/
structure EncInputs where
  q : Nat
  treq : Nat
  chain : Nat
  rs : Nat
  ring : Nat
  iw : Nat
  ir : Nat
  size : Nat
  hp : Nat
  en : Nat
  deriving DecidableEq, Repr

/-- An operation word in one of the five formats of spec/opcode_table.json, with what travels beside it (log 17). -/
inductive Command where
  /-- Format BUSOP: `W << 12 | off` (rule R74); `data` is the write data and is not looked at on a read. -/
  | busop (op : BitVec 13) (data : Word)
  /-- Format BUSADDR: `W << 32 | a` (rule R80); `data` as for BUSOP. -/
  | busaddr (op : BitVec 33) (data : Word)
  /-- Format HOSTACT (rule R81). -/
  | hostact (code : BitVec 4)
  /-- Format HWSTEP (rule R82); `operand` is the channel of `XFER` and `START` and the draw of `SAMPLE_IN`. -/
  | hwstep (label : BitVec 8) (operand : Word)
  /-- Format ENCODER: the layout of rule R70 holds the low bits of the ten inputs; `above` holds what each input has above
  its field, all 0 for inputs in range (log 16). -/
  | encoder (layout : Word) (above : EncInputs)
  deriving DecidableEq, Repr

/-- A bus master: the host, or a channel in its `XFER` (rules R50, R139). -/
inductive Master where
  | host
  | dma (c : Nat)
  deriving DecidableEq, Repr

/-- The names a host program may use for parameters (rules R6, R85). DESIGN CHOICE (log 29): rule R85 does not say which
parameters a value may name; those of rule R6 that are a number have a name, and `IN_SHIFT_DIR`, `WAVE_PATTERN`, `RAM` and
`ABORT_FAIR` have none. -/
inductive ParamName where
  | nch
  | pri
  | rst
  | dmaBase
  | chStride
  | abortOff
  | fifoAddr
  | fifoDepth
  | sampleTreq
  | unpacedTreq
  | busWidth
  | pushThreshold
  | abortRetries
  deriving DecidableEq, Repr

/-- A value of a host program: a number, a host temporary, a parameter name, an `ENC` expression, or host-local arithmetic
on them (rule R85). DESIGN CHOICE (log 28): rule R85 does not say which operators an `<expr>` has; it has the operators of
00_scope.md section 4 with subtraction and multiplication, on 32-bit values, and the inputs of an `ENC` are numbers. -/
inductive HostExpr where
  | num (v : Word)
  | temp (t : Nat)
  | param (n : ParamName)
  | enc (f : EncInputs)
  | and (a b : HostExpr)
  | or (a b : HostExpr)
  | not (a : HostExpr)
  | add (a b : HostExpr)
  | sub (a b : HostExpr)
  | mul (a b : HostExpr)
  | shl (a b : HostExpr)
  | shr (a b : HostExpr)
  deriving DecidableEq, Repr

/-- What a `WR`, `RD` or `POLLZ` names (rule R85). -/
inductive HostReg where
  | chan (c : Nat) (r : ChanReg)
  | abort
  | fifo
  | mem (a : HostExpr)
  deriving DecidableEq, Repr

/-- The result a host program returns (rules R203, R232). -/
inductive HostResult where
  | ok
  | timeout
  deriving DecidableEq, Repr

/-- The forms of a host program (rule R85), with the bounded poll and the return of rule R203 (log 21). `POLLZ`
names no host temporary (log 32); the bounded poll reads into `t`, as rule R203 writes it. -/
inductive HostForm where
  | wr (r : HostReg) (v : HostExpr)
  | rd (t : Nat) (r : HostReg)
  | pollz (r : HostReg)
  | pollzWithin (k t : Nat) (r : HostReg)
  | samplerStart
  | samplerStop
  | waveStart
  | waveStop
  | assign (t : Nat) (v : HostExpr)
  | ret (r : HostResult)
  deriving DecidableEq, Repr

/-- The agent `HOST`: the forms still to be executed, the temporaries assigned so far (newest first) and the result
returned (rule R191; log 20). -/
structure HostAgent where
  prog : List HostForm
  temps : List (Nat × Word)
  result : Option HostResult
  deriving DecidableEq, Repr

/-- One turn of the interleaving: an operation word issued to its agent, or the next form of the host program
(rules R45, R62, R191; log 8). -/
inductive Turn where
  | command (c : Command)
  | host
  deriving DecidableEq, Repr

end Sys2Proof.Machine
end

