-- ==== Sys2Proof/Machine/State.lean ====
section
/-! DEFINITION. The state of the block (rule R20), its reset (rule R235), and the reasons a step can stop
(rules R218, R219). The model's own fields are marked; INVENTORY.md lists every field. -/

namespace Sys2Proof.Machine

/-- The fault reasons of rule R218. A fault ends the step with no other effect and marks the state (rule R216), as the
spec says: none of them departs from it. -/
inductive Fault where
  /-- Raised by the bus (rules R52, R53): an access in no region. Safe: the spec's own fault. -/
  | busError (a : Word)
  /-- Raised by the bus (rules R52, R57): an address that is not a multiple of 4. Safe: the spec's own fault. -/
  | misaligned (a : Word)
  /-- Raised by a register read, a memory read, a trigger or a transfer that needs an UNWRITTEN value (rules R21, R54, R131
  to R133, R152). Safe: the spec's own fault. -/
  | unwritten
  /-- Raised by a trigger with `countReload = 0` (rule R152). Safe: the spec's own fault. -/
  | zeroCount (c : Nat)
  /-- Raised by the write guard (rule R125): channel `c` is busy or pending. Safe: the spec's own fault. -/
  | configWhileActive (c : Nat)
  /-- Raised by the write guard (rule R125): a host write while the abort of `c` is pending. Safe: the spec's own fault. -/
  | configDuringAbort (c : Nat)
  /-- Raised by a chain request to a busy or pending channel (rule R156). Safe: the spec's own fault. -/
  | chainCollision (t : Nat)
  /-- Raised by a read of the FIFO port with the FIFO empty (rule R116). Safe: the spec's own fault. -/
  | fifoUnderflow
  deriving DecidableEq, Repr

/-- The refusal reasons: those of rule R219, and the decoder's own for words in no row of the table (log 18). A refusal ends
the step with no other effect and marks the state (rule R217). -/
inductive Refusal where
  /-- An instruction without a meaning in this model; no arm of exec raises it. Safe: the machine stops. -/
  | notModelled (mnemonic : String)
  /-- Raised by the decoder, the register operations and the bus (rule R78): an offset that names no register. Safe: the
  spec's own refusal. -/
  | unmappedRegister (off : BitVec 12)
  /-- Raised by a write of the FIFO port (rule R136). Safe: the spec's own refusal. -/
  | fifoWrite
  /-- Raised by a control-word write with a bit of 31:22 or 8:6 set (rule R97). Safe: the spec's own refusal. -/
  | ctrlReserved
  /-- Raised by a control-word write with `RING_SEL` or `RING_SIZE` set (rule R97). Safe: the spec's own refusal. -/
  | ctrlRing
  /-- Raised by a control-word write with `EN = 1` and `DATA_SIZE != 2` (rule R97). Safe: the spec's own refusal. -/
  | ctrlDataSize
  /-- Raised by a control-word write with `EN = 1` and an unknown `TREQ` (rule R97). Safe: the spec's own refusal. -/
  | ctrlTreq
  /-- Raised by a control-word write with `EN = 1` and `CHAIN_TO >= NCH` (rule R97). Safe: the spec's own refusal. -/
  | ctrlChain
  /-- Raised by `ENC` with an input outside its range (rule R92). Safe: the spec's own refusal. -/
  | encoderRange
  /-- Raised by the decoder: a HOSTACT code in no row. Safe: the machine stops. -/
  | reservedHostAct (code : BitVec 4)
  /-- Raised by the decoder: a HWSTEP label in no row. Safe: the machine stops. -/
  | reservedHwStep (label : BitVec 8)
  /-- Raised by the decoder: `XFER` or `START` of a channel the block does not have. Safe: the machine stops. -/
  | noChannel (c : Nat)
  /-- Raised by the decoder: a `SAMPLE_IN` operand of more than `BUS_WIDTH` bits. Safe: the machine stops. -/
  | sampleRange (operand : Word)
  /-- Raised by the decoder: an ENCODER word with a bit of 31:22 or 8:6 set. Safe: the machine stops. -/
  | encoderLayout (w : Word)
  deriving DecidableEq, Repr

/-- A 32-bit register: `UNWRITTEN`, the value of state that nothing has written since reset (rule R21), or a word. No register of
`State.reset` is UNWRITTEN (rule R235, its last part; log 6). -/
inductive RegVal where
  | unwritten
  | word (v : Word)
  deriving DecidableEq, Repr

/-- An output pin's level: `UNWRITTEN` before the first step that drives it, or a bit (rules R34, R35). -/
inductive PinVal where
  | unwritten
  | bit (b : Bool)
  deriving DecidableEq, Repr

/-- One DMA channel's record `ch[c]` (rules R22 to R29). -/
structure Channel where
  readAddr : RegVal
  writeAddr : RegVal
  countReload : RegVal
  countLive : RegVal
  ctrl : Word
  busy : Bool
  pend : Bool
  irq : Bool
  deriving DecidableEq, Repr

/-- Sub-steps of the sampling cycle (rule R33). -/
inductive Phase where
  | high
  | sample
  | low
  deriving DecidableEq, Repr

/-- The sampler record (rule R33). -/
structure Sampler where
  running : Bool
  phase : Phase
  isr : Word
  isrCount : Nat
  deriving DecidableEq, Repr

/-- The waveform record (rule R35). -/
structure Wave where
  running : Bool
  idx : Nat
  pin : PinVal
  deriving DecidableEq, Repr

/-- The CaptureBuffer of the session in progress: its origin `BUF` and its length `N` in words (rule R44; log 15). -/
structure Session where
  buf : Word
  n : Word
  deriving DecidableEq, Repr

/-- The state of rule R20, and after it the model's own fields. -/
structure State where
  /-- The channel records `ch[0..NCH-1]` (rules R20, R22 to R29). -/
  ch : List Channel
  /-- The abort-pending mask, bit `c` for channel `c` (rule R30). -/
  abortPending : Word
  /-- The sampling FIFO, oldest word first (rule R32). -/
  fifo : List Word
  /-- The sampler record (rule R33). -/
  sampler : Sampler
  /-- The reference output pin (rule R34). -/
  ref : PinVal
  /-- The waveform record (rule R35). -/
  wave : Wave
  /-- Ordinary memory: the written bytes, addresses strictly rising (rule R36; log 7). -/
  mem : List Host.Cell
  /-- The fault mark (rule R37). -/
  fault : Option Fault
  /-- The refusal mark with the reason recorded beside it (rules R37, R217; log 24). -/
  refusal : Option Refusal
  /-- MODEL's own: the parameters of rule R6, which no step changes (log 1). -/
  params : Params
  /-- MODEL's own: the turns the environment still gives, the next one first (log 8). -/
  agenda : List Turn
  /-- MODEL's own: the agent `HOST`'s program and temporaries (log 20). -/
  host : HostAgent
  /-- MODEL's own: the value the last `RD` or `ENC` returned to the host (log 12). -/
  hostValue : Option Word
  /-- MODEL's own: the CaptureBuffer of the session in progress (log 15). -/
  session : Option Session
  /-- MODEL's own: how many draws of `any32` have been taken (log 13). -/
  draws : Nat
  deriving DecidableEq, Repr

/-- A channel after reset, as the table of rule R235 has it. -/
def Channel.reset : Channel where
  readAddr := .unwritten
  writeAddr := .unwritten
  countReload := .unwritten
  countLive := .unwritten
  ctrl := 0#32
  busy := false
  pend := false
  irq := false

/-- The block with parameters `p` right after reset, as the table of rule R235 has it; the model's own fields are at the values log 8, 12, 13,
15 and 20 name. -/
def State.resetWith (p : Params) : State where
  ch := List.replicate p.nch Channel.reset
  abortPending := 0#32
  fifo := []
  sampler := ⟨false, .high, 0#32, 0⟩
  ref := .unwritten
  wave := ⟨false, 0, .unwritten⟩
  mem := []
  fault := none
  refusal := none
  params := p
  agenda := []
  host := ⟨[], [], none⟩
  hostValue := none
  session := none
  draws := 0

/-- A channel after reset with 0 in place of each UNWRITTEN register, as the last part of rule R235 lets a model have it. -/
def Channel.resetZero : Channel :=
  { Channel.reset with
    readAddr := .word 0#32, writeAddr := .word 0#32, countReload := .word 0#32, countLive := .word 0#32 }

/-- The block with parameters `p` right after reset, with 0 in place of each UNWRITTEN register (rule R235, its last part). -/
def State.resetZero (p : Params) : State :=
  { State.resetWith p with ch := List.replicate p.nch Channel.resetZero }

/-- The machine right after reset, with the default parameters of rule R6 (log 2). DESIGN CHOICE (log 6): of the two reset states
rule R235 gives, the one in which every register holds a value. -/
def State.reset : State := State.resetZero Params.default

/-- The refusal mark of rule R37. -/
def State.refused (s : State) : Bool := s.refusal.isSome

end Sys2Proof.Machine
end

