-- ==== Sys2Proof/Machine/Operands.lean ====
section
/-! DEFINITION. The control word: its fields (rules R70, R71, R96), the encoder (rules R90 to R92) and the control words of
the capture protocol (rules R103, R104). -/

namespace Sys2Proof.Machine

/-- The fields of the control word (rule R70). -/
inductive CtrlName where
  | en
  | highPriority
  | dataSize
  | incrRead
  | incrWrite
  | ringSize
  | ringSel
  | chainTo
  | treq
  | irqQuiet
  deriving DecidableEq, Repr

/-- `ctrlField(w, X)`, an unsigned number (rule R96). -/
def ctrlField (w : Word) : CtrlName → Nat
  | .en => (w.extractLsb' 0 1).toNat
  | .highPriority => (w.extractLsb' 1 1).toNat
  | .dataSize => (w.extractLsb' 2 2).toNat
  | .incrRead => (w.extractLsb' 4 1).toNat
  | .incrWrite => (w.extractLsb' 5 1).toNat
  | .ringSize => (w.extractLsb' 9 1).toNat
  | .ringSel => (w.extractLsb' 10 1).toNat
  | .chainTo => (w.extractLsb' 11 4).toNat
  | .treq => (w.extractLsb' 15 6).toNat
  | .irqQuiet => (w.extractLsb' 21 1).toNat

/-- `w[31:22] == 0 and w[8:6] == 0`: the bits of no field are clear (rules R70, R97). -/
def ctrlReservedClear (w : Word) : Bool :=
  w.extractLsb' 22 10 == 0#10 && w.extractLsb' 6 3 == 0#3

/-- `EncoderInputsLegal` (rule R92). -/
def encLegal (f : EncInputs) : Bool :=
  decide (f.q ≤ 1) && decide (f.treq ≤ 63) && decide (f.chain ≤ 15) && decide (f.rs ≤ 1) && decide (f.ring ≤ 1)
    && decide (f.iw ≤ 1) && decide (f.ir ≤ 1) && decide (f.size ≤ 3) && decide (f.hp ≤ 1) && decide (f.en ≤ 1)

/-- The packing of rule R91, bit offsets as in rule R70. -/
def encPack (f : EncInputs) : Word :=
  BitVec.ofNat 32
    (f.q <<< 21 ||| f.treq <<< 15 ||| f.chain <<< 11 ||| f.rs <<< 10 ||| f.ring <<< 9
      ||| f.iw <<< 5 ||| f.ir <<< 4 ||| f.size <<< 2 ||| f.hp <<< 1 ||| f.en)

/-- `ENC{…}`: the packed word, or nothing where an input is out of range (rules R91, R92). -/
def encodeCtrl (f : EncInputs) : Option Word :=
  if encLegal f then some (encPack f) else none

/-- The part of each input that fits its field (rule R71). -/
def EncInputs.low (f : EncInputs) : EncInputs :=
  ⟨f.q % 2, f.treq % 64, f.chain % 16, f.rs % 2, f.ring % 2, f.iw % 2, f.ir % 2, f.size % 4, f.hp % 2, f.en % 2⟩

/-- The part of each input above its field (log 16). -/
def EncInputs.high (f : EncInputs) : EncInputs :=
  ⟨f.q / 2, f.treq / 64, f.chain / 16, f.rs / 2, f.ring / 2, f.iw / 2, f.ir / 2, f.size / 4, f.hp / 2, f.en / 2⟩

/-- The ten inputs an ENCODER word stands for: each field of the layout, with what the input has above it (log 16). -/
def encInputsOf (w : Word) (above : EncInputs) : EncInputs :=
  ⟨ctrlField w .irqQuiet + 2 * above.q, ctrlField w .treq + 64 * above.treq, ctrlField w .chainTo + 16 * above.chain,
    ctrlField w .ringSel + 2 * above.rs, ctrlField w .ringSize + 2 * above.ring, ctrlField w .incrWrite + 2 * above.iw,
    ctrlField w .incrRead + 2 * above.ir, ctrlField w .dataSize + 4 * above.size,
    ctrlField w .highPriority + 2 * above.hp, ctrlField w .en + 2 * above.en⟩

/-- The inputs of `PRI_CTRL` (rule R103). -/
def priCtrlInputs (p : Params) : EncInputs := ⟨1, p.sampleTreq.toNat, p.rst, 0, 0, 1, 0, 2, 1, 1⟩

/-- The inputs of `PRI_CTRL_BURST` (rule R103). -/
def priCtrlBurstInputs (p : Params) : EncInputs := ⟨1, p.sampleTreq.toNat, p.pri, 0, 0, 1, 0, 2, 1, 1⟩

/-- The inputs of `RST_CTRL` (rule R104). -/
def rstCtrlInputs (p : Params) : EncInputs := ⟨1, Config.unpacedTreq.toNat, p.pri, 0, 0, 0, 0, 2, 0, 1⟩

/-- `PRI_CTRL` (rule R103). -/
def priCtrl (p : Params) : Word := encPack (priCtrlInputs p)

/-- `PRI_CTRL_BURST` (rule R103). -/
def priCtrlBurst (p : Params) : Word := encPack (priCtrlBurstInputs p)

/-- `RST_CTRL` (rule R104). -/
def rstCtrl (p : Params) : Word := encPack (rstCtrlInputs p)

end Sys2Proof.Machine
end

