-- ==== Sys2Proof/Syntax.lean ====
section
/-! DEFINITION. The operations of the block: one constructor for each row of spec/opcode_table.json. A channel index is a
number, write data and addresses are words, the input-bus draw of `SAMPLE_IN` is a 10-bit sample, and the ten inputs of
`ENC` are natural numbers (rule R90). -/

namespace Sys2Proof

inductive Instr where
  /-- `WR CH<c>.READ_ADDR, v` (rule R126). -/
  | wrReadAddr (c : Nat) (v : Word)
  /-- `WR CH<c>.WRITE_ADDR, v` (rule R127). -/
  | wrWriteAddr (c : Nat) (v : Word)
  /-- `WR CH<c>.TRANS_COUNT, v` (rule R128). -/
  | wrTransCount (c : Nat) (v : Word)
  /-- `WR CH<c>.CTRL_TRIG, v`, the triggering alias (rule R130). -/
  | wrCtrlTrig (c : Nat) (v : Word)
  /-- `WR CH<c>.CTRL, v`, the non-triggering alias (rule R129). -/
  | wrCtrl (c : Nat) (v : Word)
  /-- `RD CH<c>.READ_ADDR` (rule R131). -/
  | rdReadAddr (c : Nat)
  /-- `RD CH<c>.WRITE_ADDR` (rule R132). -/
  | rdWriteAddr (c : Nat)
  /-- `RD CH<c>.TRANS_COUNT` (rule R133). -/
  | rdTransCount (c : Nat)
  /-- `RD CH<c>.CTRL_TRIG` (rule R134). -/
  | rdCtrlTrig (c : Nat)
  /-- `RD CH<c>.CTRL` (rule R134). -/
  | rdCtrl (c : Nat)
  /-- `WR ABORT, v` (rule R180). -/
  | wrAbort (v : Word)
  /-- `RD ABORT` (rule R181). -/
  | rdAbort
  /-- `RD FIFO` (rule R116). -/
  | rdFifo
  /-- `WR FIFO, v` (rule R136). -/
  | wrFifo (v : Word)
  /-- `RD [a]` (rule R138), and a host read at any address that reaches no register and not the FIFO port (rule R52). -/
  | rdMem (a : Word)
  /-- `WR [a], v` (rule R137), and a host write at any address that reaches no register and not the FIFO port (rule R52). -/
  | wrMem (a : Word) (v : Word)
  /-- `SAMPLER_START` (rule R106). -/
  | samplerStart
  /-- `SAMPLER_STOP` (rule R107). -/
  | samplerStop
  /-- `WAVE_START` (rule R119). -/
  | waveStart
  /-- `WAVE_STOP` (rule R120). -/
  | waveStop
  /-- `XFER(c)`, one transfer of channel `c` (rule R154). -/
  | xfer (c : Nat)
  /-- `START(c)`, the chain start of channel `c` (rule R158). -/
  | start (c : Nat)
  /-- `ABORT_DONE` (rule R182). -/
  | abortDone
  /-- `SAMPLE_HIGH` (rule R108). -/
  | sampleHigh
  /-- `SAMPLE_IN` with the draw `s` (rule R109). -/
  | sampleIn (s : Sample)
  /-- `SAMPLE_LOW` (rule R111). -/
  | sampleLow
  /-- `WAVE_STEP` (rule R121). -/
  | waveStep
  /-- `ENC{q, treq, chain, rs, ring, iw, ir, size, hp, en}` (rules R90, R91). -/
  | enc (q treq chain rs ring iw ir size hp en : Nat)
  deriving DecidableEq, Repr

end Sys2Proof
end

