-- ==== Sys2Proof/WellFormed.lean ====
section
/-! DEFINITION. Which operations exist on a block with parameters `p`. -/

namespace Sys2Proof

/-- Channel indices are below `NCH` (rules R76, R45); a memory access is one that rule R52 routes to no register and not
to the FIFO port. Every natural number is an input of `ENC`: an input outside its range is refused when it runs
(rule R92). -/
def Instr.wellFormed (p : Params) : Instr → Bool
  | .wrReadAddr c _ => decide (c < p.nch)
  | .wrWriteAddr c _ => decide (c < p.nch)
  | .wrTransCount c _ => decide (c < p.nch)
  | .wrCtrlTrig c _ => decide (c < p.nch)
  | .wrCtrl c _ => decide (c < p.nch)
  | .rdReadAddr c => decide (c < p.nch)
  | .rdWriteAddr c => decide (c < p.nch)
  | .rdTransCount c => decide (c < p.nch)
  | .rdCtrlTrig c => decide (c < p.nch)
  | .rdCtrl c => decide (c < p.nch)
  | .wrAbort _ => true
  | .rdAbort => true
  | .rdFifo => true
  | .wrFifo _ => true
  | .rdMem a => Machine.routedAsMemory p a
  | .wrMem a _ => Machine.routedAsMemory p a
  | .samplerStart => true
  | .samplerStop => true
  | .waveStart => true
  | .waveStop => true
  | .xfer c => decide (c < p.nch)
  | .start c => decide (c < p.nch)
  | .abortDone => true
  | .sampleHigh => true
  | .sampleIn _ => true
  | .sampleLow => true
  | .waveStep => true
  | .enc _ _ _ _ _ _ _ _ _ _ => true

end Sys2Proof
end

