-- ==== Sys2Proof/Decode.lean ====
section
/-! DEFINITION. From operation words to operations and back (30_encoding.md). The decoder is total: a word that stands for
no operation is refused by name. -/

namespace Sys2Proof

open Machine

/-- The host's read of channel `c`'s register `r` (rule R76, read rules). -/
def readInstr (c : Nat) : ChanReg → Instr
  | .readAddr => .rdReadAddr c
  | .writeAddr => .rdWriteAddr c
  | .transCount => .rdTransCount c
  | .ctrlTrig => .rdCtrlTrig c
  | .ctrl => .rdCtrl c

/-- The host's write of channel `c`'s register `r` (rule R76, write rules). -/
def writeInstr (c : Nat) (v : Word) : ChanReg → Instr
  | .readAddr => .wrReadAddr c v
  | .writeAddr => .wrWriteAddr c v
  | .transCount => .wrTransCount c v
  | .ctrlTrig => .wrCtrlTrig c v
  | .ctrl => .wrCtrl c v

/-- The host's access at offset `off` of the DMA block (rules R75 to R78). An offset that is not a multiple of 4 is an access
at a misaligned address, which rule R52 settles first. -/
def decodeDmaOff (p : Params) (write : Bool) (off : BitVec 12) (data : Word) : Except Refusal Instr :=
  if off.toNat % 4 ≠ 0 then
    let a := p.dmaBase + off.setWidth 32
    .ok (if write then .wrMem a data else .rdMem a)
  else match regSel p off with
    | some .abort => .ok (if write then .wrAbort data else .rdAbort)
    | some (.chan c r) => .ok (if write then writeInstr c data r else readInstr c r)
    | none => .error (.unmappedRegister off)

/-- The host's access at bus address `a`, in the order of rule R52. -/
def decodeAddr (p : Params) (write : Bool) (a : Word) (data : Word) : Except Refusal Instr :=
  if !aligned a then .ok (if write then .wrMem a data else .rdMem a)
  else if inDma p a then decodeDmaOff p write (dmaOff p a) data
  else if a = p.fifoAddr then .ok (if write then .wrFifo data else .rdFifo)
  else .ok (if write then .wrMem a data else .rdMem a)

/-- Host actions: the codes of format HOSTACT (rule R81). -/
def decodeHostAct (code : BitVec 4) : Except Refusal Instr :=
  if code = 0x1#4 then .ok .samplerStart
  else if code = 0x2#4 then .ok .samplerStop
  else if code = 0x3#4 then .ok .waveStart
  else if code = 0x4#4 then .ok .waveStop
  else .error (.reservedHostAct code)

/-- The channel beside an `XFER` or `START` label, an existing one. -/
def decodeChannel (p : Params) (operand : Word) (f : Nat → Instr) : Except Refusal Instr :=
  if operand.toNat < p.nch then .ok (f operand.toNat) else .error (.noChannel operand.toNat)

/-- Hardware steps: the labels of format HWSTEP (rule R82). -/
def decodeHwStep (p : Params) (label : BitVec 8) (operand : Word) : Except Refusal Instr :=
  if label = 0x10#8 then decodeChannel p operand .xfer
  else if label = 0x11#8 then decodeChannel p operand .start
  else if label = 0x12#8 then .ok .abortDone
  else if label = 0x13#8 then .ok .sampleHigh
  else if label = 0x14#8 then
    if operand.toNat < 2 ^ Config.busWidth then .ok (.sampleIn (operand.setWidth 10)) else .error (.sampleRange operand)
  else if label = 0x15#8 then .ok .sampleLow
  else if label = 0x16#8 then .ok .waveStep
  else .error (.reservedHwStep label)

/-- The encoder's operation with inputs `f`. -/
def encInstr (f : EncInputs) : Instr :=
  .enc f.q f.treq f.chain f.rs f.ring f.iw f.ir f.size f.hp f.en

/-- The operation an operation word stands for. -/
def decode (p : Params) : Command → Except Refusal Instr
  | .busop op data => decodeDmaOff p (op.getLsbD 12) (op.setWidth 12) data
  | .busaddr op data => decodeAddr p (op.getLsbD 32) (op.setWidth 32) data
  | .hostact code => decodeHostAct code
  | .hwstep label operand => decodeHwStep p label operand
  | .encoder w above =>
    if ctrlReservedClear w then .ok (encInstr (encInputsOf w above)) else .error (.encoderLayout w)

/-- A BUSOP word: `W << 12 | off` (rule R74). -/
def busopWord (write : Bool) (off : BitVec 12) : BitVec 13 := BitVec.ofBool write ++ off

/-- A BUSADDR word: `W << 32 | a` (rule R80). -/
def busaddrWord (write : Bool) (a : Word) : BitVec 33 := BitVec.ofBool write ++ a

/-- The word of an operation, from the encoding rules R70 and R74 to R82 and the rows of spec/opcode_table.json. -/
def encode (p : Params) : Instr → Command
  | .wrReadAddr c v => .busop (busopWord true (chanOff c .readAddr)) v
  | .wrWriteAddr c v => .busop (busopWord true (chanOff c .writeAddr)) v
  | .wrTransCount c v => .busop (busopWord true (chanOff c .transCount)) v
  | .wrCtrlTrig c v => .busop (busopWord true (chanOff c .ctrlTrig)) v
  | .wrCtrl c v => .busop (busopWord true (chanOff c .ctrl)) v
  | .rdReadAddr c => .busop (busopWord false (chanOff c .readAddr)) 0#32
  | .rdWriteAddr c => .busop (busopWord false (chanOff c .writeAddr)) 0#32
  | .rdTransCount c => .busop (busopWord false (chanOff c .transCount)) 0#32
  | .rdCtrlTrig c => .busop (busopWord false (chanOff c .ctrlTrig)) 0#32
  | .rdCtrl c => .busop (busopWord false (chanOff c .ctrl)) 0#32
  | .wrAbort v => .busop (busopWord true Config.abortOff) v
  | .rdAbort => .busop (busopWord false Config.abortOff) 0#32
  | .rdFifo => .busaddr (busaddrWord false p.fifoAddr) 0#32
  | .wrFifo v => .busaddr (busaddrWord true p.fifoAddr) v
  | .rdMem a => .busaddr (busaddrWord false a) 0#32
  | .wrMem a v => .busaddr (busaddrWord true a) v
  | .samplerStart => .hostact 0x1#4
  | .samplerStop => .hostact 0x2#4
  | .waveStart => .hostact 0x3#4
  | .waveStop => .hostact 0x4#4
  | .xfer c => .hwstep 0x10#8 (BitVec.ofNat 32 c)
  | .start c => .hwstep 0x11#8 (BitVec.ofNat 32 c)
  | .abortDone => .hwstep 0x12#8 0#32
  | .sampleHigh => .hwstep 0x13#8 0#32
  | .sampleIn s => .hwstep 0x14#8 (s.setWidth 32)
  | .sampleLow => .hwstep 0x15#8 0#32
  | .waveStep => .hwstep 0x16#8 0#32
  | .enc q treq chain rs ring iw ir size hp en =>
    .encoder (encPack (EncInputs.low ⟨q, treq, chain, rs, ring, iw, ir, size, hp, en⟩))
      (EncInputs.high ⟨q, treq, chain, rs, ring, iw, ir, size, hp, en⟩)

/-- The operation word whose bits spec/opcode_table.json numbers as `w` in `nbits` bits (whole bytes), with operands of zero
beside it: up to 8 bits a HOSTACT code (below 16) or a HWSTEP label, up to 16 a BUSOP, up to 32 an ENCODER word,
above that a BUSADDR; none for a number too large for its format. -/
def tableCommand (nbits w : Nat) : Option Command :=
  if nbits ≤ 8 then
    if w < 2 ^ 4 then some (.hostact (BitVec.ofNat 4 w))
    else if w < 2 ^ 8 then some (.hwstep (BitVec.ofNat 8 w) 0#32)
    else none
  else if nbits ≤ 16 then
    if w < 2 ^ 13 then some (.busop (BitVec.ofNat 13 w) 0#32) else none
  else if nbits ≤ 32 then
    if w < 2 ^ 32 then some (.encoder (BitVec.ofNat 32 w) ⟨0, 0, 0, 0, 0, 0, 0, 0, 0, 0⟩) else none
  else
    if w < 2 ^ 33 then some (.busaddr (BitVec.ofNat 33 w) 0#32) else none

/-- The operation the decoder reads, with the default parameters, from the table's word `w` of `nbits` bits. -/
def decodeTableWord (nbits w : Nat) : Option Instr :=
  match tableCommand nbits w with
  | none => none
  | some c =>
    match decode Params.default c with
    | .ok i => some i
    | .error _ => none

end Sys2Proof
end

