-- ==== Sys2Proof/Machine/Access.lean ====
section
/-! DEFINITION. Reading and updating the fields of the state, each in one place. -/

namespace Sys2Proof.Machine

def State.setCh (s : State) (x : List Channel) : State := { s with ch := x }

def State.setAbortPending (s : State) (x : Word) : State := { s with abortPending := x }

def State.setFifo (s : State) (x : List Word) : State := { s with fifo := x }

def State.setSampler (s : State) (x : Sampler) : State := { s with sampler := x }

def State.setRef (s : State) (x : PinVal) : State := { s with ref := x }

def State.setWave (s : State) (x : Wave) : State := { s with wave := x }

def State.setMem (s : State) (x : List Host.Cell) : State := { s with mem := x }

def State.setFault (s : State) (x : Option Fault) : State := { s with fault := x }

def State.setRefusal (s : State) (x : Option Refusal) : State := { s with refusal := x }

def State.setAgenda (s : State) (x : List Turn) : State := { s with agenda := x }

def State.setHost (s : State) (x : HostAgent) : State := { s with host := x }

def State.setHostValue (s : State) (x : Option Word) : State := { s with hostValue := x }

def State.setSession (s : State) (x : Option Session) : State := { s with session := x }

def State.setDraws (s : State) (x : Nat) : State := { s with draws := x }

/-- `ch[c]` (rule R20). No rule reads `ch[c]` for `c >= NCH`; there the record after reset stands in (log 19). -/
def State.chan (s : State) (c : Nat) : Channel := s.ch.getD c Channel.reset

/-- `ch[c] <- k`. -/
def State.setChan (s : State) (c : Nat) (k : Channel) : State := s.setCh (s.ch.set c k)

/-- `abortPending[c]` (rule R30). -/
def State.abortBit (s : State) (c : Nat) : Bool := s.abortPending.getLsbD c

end Sys2Proof.Machine
end

