-- ==== Sys2Proof/Machine/Flags.lean ====
section
/-! DEFINITION. Conditions and status views: control-word admission (rule R97), the transfer request (rule R151), which
hardware steps are enabled, the channel states of rule R38 and quiescence (rule R190). -/

namespace Sys2Proof.Machine

/-- The first failing check of `admittedCtrl(w)`, in the order of rule R97; none for an admitted word. -/
def ctrlRefusal (p : Params) (w : Word) : Option Refusal :=
  if !ctrlReservedClear w then some .ctrlReserved
  else if ctrlField w .ringSel ≠ 0 ∨ ctrlField w .ringSize ≠ 0 then some .ctrlRing
  else if ctrlField w .en = 0 then none
  else if ctrlField w .dataSize ≠ 2 then some .ctrlDataSize
  else if ctrlField w .treq ≠ p.sampleTreq.toNat ∧ ctrlField w .treq ≠ Config.unpacedTreq.toNat then some .ctrlTreq
  else if p.nch ≤ ctrlField w .chainTo then some .ctrlChain
  else none

/-- `req(c)` for a channel with control word `w`, given the FIFO (rule R151). No other request code is ever stored in an
enabled word; for one the request is never asserted (log 19). -/
def transferReq (p : Params) (fifo : List Word) (w : Word) : Bool :=
  if ctrlField w .treq = p.sampleTreq.toNat then !fifo.isEmpty
  else ctrlField w .treq == Config.unpacedTreq.toNat

/-- `req(c)` (rule R151). -/
def State.req (s : State) (c : Nat) : Bool := transferReq s.params s.fifo (s.chan c).ctrl

/-- `XFER(c)` is enabled (rule R153). -/
def State.xferEnabled (s : State) (c : Nat) : Bool := (s.chan c).busy && s.req c

/-- `START(c)` is enabled (rule R158). -/
def State.startEnabled (s : State) (c : Nat) : Bool := (s.chan c).pend && !(s.chan c).busy

/-- `ABORT_DONE` is enabled (rule R182). -/
def State.abortDoneEnabled (s : State) : Bool := s.abortPending != 0#32

/-- `SAMPLE_HIGH` is enabled (rule R108). -/
def State.sampleHighEnabled (s : State) : Bool := s.sampler.running && s.sampler.phase == .high

/-- `pushDue`: the next sample completes a word (rule R109). -/
def State.pushDue (s : State) : Bool := decide (Config.pushThreshold ≤ s.sampler.isrCount + Config.busWidth)

/-- `SAMPLE_IN` is enabled: a due push waits for room in the FIFO (rules R109, R110). -/
def State.sampleInEnabled (s : State) : Bool :=
  s.sampler.running && s.sampler.phase == .sample && (!s.pushDue || decide (s.fifo.length < s.params.fifoDepth))

/-- `SAMPLE_LOW` is enabled (rule R111). -/
def State.sampleLowEnabled (s : State) : Bool := s.sampler.running && s.sampler.phase == .low

/-- `WAVE_STEP` is enabled (rule R121). -/
def State.waveStepEnabled (s : State) : Bool := s.wave.running

/-- A capture session is active: the Primary or the Restart Channel is busy or pending (rule R64). -/
def State.sessionActive (s : State) : Bool :=
  (s.chan s.params.pri).busy || (s.chan s.params.pri).pend || (s.chan s.params.rst).busy || (s.chan s.params.rst).pend

/-- `a` is an address of the CaptureBuffer, the `4*N` bytes from `BUF` (rule R44). -/
def Session.covers (x : Session) (a : Word) : Bool := decide ((a - x.buf).toNat < 4 * x.n.toNat)

/-- A host read at `a` sees a buffer that is not yet consistent (rule R64). -/
def State.bufferInSession (s : State) (a : Word) : Bool :=
  s.sessionActive && (match s.session with | none => false | some x => x.covers a)

/-- The conceptual states of a channel (rule R38). -/
inductive ChanView where
  | idle
  | armed
  | running
  | chainPending
  | aborting
  deriving DecidableEq, Repr

/-- The state of channel `c` that rule R38 derives; the first line that matches applies. -/
def State.chanView (s : State) (c : Nat) : ChanView :=
  if s.abortBit c then .aborting
  else if (s.chan c).busy then .running
  else if (s.chan c).pend then .chainPending
  else if ctrlField (s.chan c).ctrl .en = 1 then .armed
  else .idle

/-- The DMA block is quiescent: no channel busy or pending, no abort pending (rule R190). -/
def State.quiescent (s : State) : Bool :=
  s.ch.all (fun k => !k.busy && !k.pend) && s.abortPending == 0#32

end Sys2Proof.Machine
end

