-- ==== Sys2Proof/Machine/Ops.lean ====
section
/-! DEFINITION. The operations the meanings share: sequencing and the fault entry, draws, memory, the FIFO, channel
registers, triggering and completion, and the bus. -/

namespace Sys2Proof.Machine

/-- What an operation answers: a result, a fault or a refusal. -/
abbrev Res (α : Type) := Host.Outcome α Fault Refusal

/-- Go on with `f` after a result; a fault or a refusal ends the step (rules R216, R217). -/
def andThen {α β : Type} (r : Res α) (f : α → Res β) : Res β :=
  match r with
  | .next a => f a
  | .fault x => .fault x
  | .refused x => .refused x

/-! Faults and refusals. A step that raises a fault has no other effect: the state is the one before the step with the mark
set (rule R216), and so for a refusal (rule R217). The marks are terminal and there is no return from one
(rules R216, R225, R226). -/

/-- A capture session is over once neither the Primary nor the Restart Channel is busy or pending (rule R64; log 15). -/
def State.closeSession (s : State) : State := if s.sessionActive then s else s.setSession none

/-- The state a step leaves: `o` is what the agent's step answered and `s` the state before it (rules R216, R217; log 11). The
note of a session that is over goes (log 15). -/
def settle (s : State) (o : Res State) : Res State :=
  match o with
  | .next t => .next t.closeSession
  | .fault r => .next (s.setFault (some r))
  | .refused r => .next (s.setRefusal (some r))

/-! Draws. -/

/-- One draw of `any32` (00_scope.md section 4; log 13). -/
def drawWord (s : State) : Word × State := (Config.any32 s.draws, s.setDraws (s.draws + 1))

/-- The value of a register an operation needs. On UNWRITTEN, the reset value rule R235 tabulates, the spec raises
`Fault(Unwritten)`: rule R21, which names a bus read of a register and a transfer from an UNWRITTEN address, and rules R131
to R133 for each of the three registers. -/
def needWord (r : RegVal) : Res Word :=
  match r with
  | .unwritten => .fault .unwritten
  | .word v => .next v

/-! Ordinary memory (rules R36, R54 to R56). -/

/-- The byte at `a`, none for UNWRITTEN. -/
def memByte (m : List Host.Cell) (a : Nat) : Option Byte :=
  match m with
  | [] => none
  | x :: t => if x.1 = a then some x.2 else memByte t a

/-- `mem[a] <- b`, keeping addresses strictly rising. -/
def memSetByte (m : List Host.Cell) (a : Nat) (b : Byte) : List Host.Cell :=
  match m with
  | [] => [(a, b)]
  | x :: t => if a < x.1 then (a, b) :: x :: t else if x.1 = a then (a, b) :: t else x :: memSetByte t a b

/-- The canonical form of memory: addresses strictly rising, so each is listed once. An unlisted byte is UNWRITTEN, which no
entry can be. -/
abbrev memWf (m : List Host.Cell) : Prop := m.Pairwise fun x y => x.1 < y.1

/-- Byte `k` of a word: bits `8k+7 .. 8k` (rule R56). -/
def byteOf (v : Word) (k : Nat) : Byte := v.extractLsb' (8 * k) 8

/-- The word of four bytes, `b0` the least significant (rule R56). -/
def wordOf (b0 b1 b2 b3 : Byte) : Word := b3 ++ b2 ++ b1 ++ b0

/-- `MemRead(a, 4)`, none if one of the four bytes is UNWRITTEN (rule R54). -/
def memReadWord (m : List Host.Cell) (a : Word) : Option Word :=
  match memByte m a.toNat, memByte m (a.toNat + 1), memByte m (a.toNat + 2), memByte m (a.toNat + 3) with
  | some b0, some b1, some b2, some b3 => some (wordOf b0 b1 b2 b3)
  | _, _, _, _ => none

/-- `MemWrite(a, 4, v)` (rule R55). -/
def memWriteWord (m : List Host.Cell) (a v : Word) : List Host.Cell :=
  memSetByte (memSetByte (memSetByte (memSetByte m a.toNat (byteOf v 0)) (a.toNat + 1) (byteOf v 1))
    (a.toNat + 2) (byteOf v 2)) (a.toNat + 3) (byteOf v 3)

/-- `RD MEM` by master `m` at an address of `RAM` (rule R138): a host read of a CaptureBuffer word in an active session is a
draw (rule R64), any other read is `MemRead`, which raises `Fault(Unwritten)` if one of the four bytes is UNWRITTEN
(rule R54). -/
def memRead (m : Master) (a : Word) (s : State) : Res (Word × State) :=
  if m = .host ∧ s.bufferInSession a then .next (drawWord s)
  else match memReadWord s.mem a with
    | some v => .next (v, s)
    | none => .fault .unwritten

/-- `WR MEM` at an address of `RAM` (rule R137). -/
def memWrite (a v : Word) (s : State) : Res State := .next (s.setMem (memWriteWord s.mem a v))

/-! The sampling FIFO. -/

/-- `FifoRead(m)` (rule R116): the same for every master. -/
def fifoRead (s : State) : Res (Word × State) :=
  match s.fifo with
  | [] => .fault .fifoUnderflow
  | v :: t => .next (v, s.setFifo t)

/-- A write of the FIFO port (rule R136). -/
def fifoWrite (_v : Word) (_s : State) : Res State := .refused .fifoWrite

/-- The sampler's push at the tail (rule R114). -/
def fifoPush (v : Word) (s : State) : State := s.setFifo (s.fifo ++ [v])

/-! Starting a channel (rule R152). -/

/-- The trigger of the Primary Channel that begins a session fixes its CaptureBuffer, origin and length, for the session's
lifetime (rule R44): the host's triggering write begins one, and so does a trigger by a channel when none is in progress; any
other trigger by a channel goes on with the session in progress (log 15). -/
def State.noteSession (s : State) (m : Master) (c : Nat) (buf n : Word) : State :=
  if c = s.params.pri ∧ (m = .host ∨ s.session = none) then s.setSession (some ⟨buf, n⟩) else s

/-- `Trigger(c)`, `m` the master whose write triggers, or the channel itself in its `START`. The two faults are the ones rule R152
raises in its own lines: `Unwritten` if an address or the count is UNWRITTEN, `ZeroCount` if the count is 0. -/
def trigger (m : Master) (c : Nat) (s : State) : Res State :=
  match (s.chan c).readAddr, (s.chan c).writeAddr, (s.chan c).countReload with
  | .word _, .word buf, .word n =>
    if n = 0#32 then .fault (.zeroCount c)
    else .next ((s.setChan c { s.chan c with countLive := .word n, busy := true }).noteSession m c buf n)
  | _, _, _ => .fault .unwritten

/-! Channel registers (rules R125 to R135). -/

/-- `WriteGuard(m, c)` (rule R125). -/
def writeGuard (m : Master) (c : Nat) (s : State) : Res State :=
  if (s.chan c).busy ∨ (s.chan c).pend then .fault (.configWhileActive c)
  else if m = .host ∧ s.abortBit c then .fault (.configDuringAbort c)
  else .next s

/-- Storing an admitted control word (rules R97, R129, R130). -/
def storeCtrl (c : Nat) (v : Word) (s : State) : Res State :=
  match ctrlRefusal s.params v with
  | some r => .refused r
  | none => .next (s.setChan c { s.chan c with ctrl := v })

/-- What a write of channel `c`'s register does once the guard has passed (rules R126 to R130). -/
def chanStore (m : Master) (c : Nat) (r : ChanReg) (v : Word) (s : State) : Res State :=
  match r with
  | .readAddr => .next (s.setChan c { s.chan c with readAddr := .word v })
  | .writeAddr => .next (s.setChan c { s.chan c with writeAddr := .word v })
  | .transCount => .next (s.setChan c { s.chan c with countReload := .word v })
  | .ctrl => storeCtrl c v s
  | .ctrlTrig => andThen (storeCtrl c v s) fun t => if ctrlField v .en = 1 then trigger m c t else .next t

/-- A write by master `m` of channel `c`'s register `r`: decode, then the guard, then the store (rules R78, R125, R220).
-/
def chanWrite (m : Master) (c : Nat) (r : ChanReg) (v : Word) (s : State) : Res State :=
  if c < s.params.nch then andThen (writeGuard m c s) (chanStore m c r v)
  else .refused (.unmappedRegister (chanOff c r))

/-- What a read of channel `c`'s register returns (rules R131 to R134). -/
def chanLoad (c : Nat) (r : ChanReg) (s : State) : Res Word :=
  match r with
  | .readAddr => needWord (s.chan c).readAddr
  | .writeAddr => needWord (s.chan c).writeAddr
  | .transCount => needWord (s.chan c).countLive
  | .ctrl => .next (s.chan c).ctrl
  | .ctrlTrig => .next (s.chan c).ctrl

/-- A read of channel `c`'s register `r`: no guard and no side effect (rule R135). -/
def chanRead (c : Nat) (r : ChanReg) (s : State) : Res (Word × State) :=
  if c < s.params.nch then andThen (chanLoad c r s) fun v => .next (v, s)
  else .refused (.unmappedRegister (chanOff c r))

/-! The abort-control register (rules R180, R181). -/

/-- The bits `NCH-1:0` of the mask (rule R180). -/
def chanMask (p : Params) : Word := BitVec.ofNat 32 (2 ^ p.nch - 1)

/-- `WR ABORT` by any master (rules R180, R189). -/
def abortWrite (v : Word) (s : State) : Res State :=
  .next (s.setAbortPending (s.abortPending ||| (v &&& chanMask s.params)))

/-- `RD ABORT` (rule R181). -/
def abortRead (s : State) : Res (Word × State) := .next (s.abortPending, s)

/-! The bus (rules R52, R75 to R78, R139). -/

/-- `RegRead(m, off)`: the same for every master (rule R139). -/
def regRead (off : BitVec 12) (s : State) : Res (Word × State) :=
  match regSel s.params off with
  | some .abort => abortRead s
  | some (.chan c r) => chanRead c r s
  | none => .refused (.unmappedRegister off)

/-- `RegWrite(m, off, v)`. -/
def regWrite (m : Master) (off : BitVec 12) (v : Word) (s : State) : Res State :=
  match regSel s.params off with
  | some .abort => abortWrite v s
  | some (.chan c r) => chanWrite m c r v s
  | none => .refused (.unmappedRegister off)

/-- `BusRead32(m, a)` (rule R52). -/
def busRead32 (m : Master) (a : Word) (s : State) : Res (Word × State) :=
  if !aligned a then .fault (.misaligned a)
  else if inDma s.params a then regRead (dmaOff s.params a) s
  else if a = s.params.fifoAddr then fifoRead s
  else if ramWord s.params a then memRead m a s
  else .fault (.busError a)

/-- `BusWrite32(m, a, v)` (rule R52). -/
def busWrite32 (m : Master) (a v : Word) (s : State) : Res State :=
  if !aligned a then .fault (.misaligned a)
  else if inDma s.params a then regWrite m (dmaOff s.params a) v s
  else if a = s.params.fifoAddr then fifoWrite v s
  else if ramWord s.params a then memWrite a v s
  else .fault (.busError a)

/-- A read by the host ends with the value in the host's hands (log 12). -/
def deliver (r : Res (Word × State)) : Res State :=
  andThen r fun x => .next (x.2.setHostValue (some x.1))

/-! Transfers, completion and chaining (rules R154 to R157). -/

/-- `ChainRequest(t)` (rule R156). -/
def chainRequest (t : Nat) (s : State) : Res State :=
  if (s.chan t).busy ∨ (s.chan t).pend then .fault (.chainCollision t)
  else .next (s.setChan t { s.chan t with pend := true })

/-- The completion interrupt: set unless `IRQ_QUIET` (rules R101, R163). -/
def raiseIrq (c : Nat) (s : State) : State :=
  if ctrlField (s.chan c).ctrl .irqQuiet = 0 then s.setChan c { s.chan c with irq := true } else s

/-- `Complete(c)` (rule R155). -/
def complete (c : Nat) (s : State) : Res State :=
  let idle := s.setChan c { s.chan c with busy := false }
  let t := ctrlField (s.chan c).ctrl .chainTo
  andThen (if t = c then .next idle else chainRequest t idle) fun u => .next (raiseIrq c u)

/-- An address register after a transfer: `+ 4 mod 2^32` when its increment flag is set (rules R69, R102, R154). -/
def advanceAddr (incr : Nat) (r : RegVal) : RegVal :=
  match r with
  | .unwritten => .unwritten
  | .word a => if incr = 1 then .word (a + 4#32) else .word a

/-- The end of a transfer: the increments, the count, and the completion on the last word (rules R154, R155). -/
def finishXfer (c : Nat) (w : Word) (s : State) : Res State :=
  andThen (needWord (s.chan c).countLive) fun n =>
    let u := s.setChan c { s.chan c with
      readAddr := advanceAddr (ctrlField w .incrRead) (s.chan c).readAddr
      writeAddr := advanceAddr (ctrlField w .incrWrite) (s.chan c).writeAddr
      countLive := .word (n - 1#32) }
    if n - 1#32 = 0#32 then complete c u else .next u

/-- One transfer of channel `c` as bus master (rules R139, R154); the read's outcome comes before the write's (rule R220).
-/
def xferWord (c : Nat) (s : State) : Res State :=
  andThen (needWord (s.chan c).readAddr) fun ra =>
  andThen (busRead32 (.dma c) ra s) fun x =>
  andThen (needWord (x.2.chan c).writeAddr) fun wa =>
  andThen (busWrite32 (.dma c) wa x.1 x.2) fun t =>
  finishXfer c (s.chan c).ctrl t

/-! Aborts (rules R182 to R185). -/

/-- What `ABORT_DONE` does to one channel of the mask: a busy one stops with its addresses and its live count drawn, and no
trigger stays pending (rules R182, R184). -/
def abortChannel (c : Nat) (s : State) : State :=
  let k := s.chan c
  if k.busy then
    let ra := drawWord s
    let wa := drawWord ra.2
    let n := drawWord wa.2
    n.2.setChan c { k with
      busy := false, pend := false, readAddr := .word ra.1, writeAddr := .word wa.1, countLive := .word n.1 }
  else s.setChan c { k with pend := false }

/-- `ABORT_DONE` on the channels of `cs`, in order (rule R182). -/
def abortChannels (cs : List Nat) (s : State) : State :=
  match cs with
  | [] => s
  | c :: t => abortChannels t (if s.abortBit c then abortChannel c s else s)

/-! The sampler (rules R109, R112, R113). -/

/-- The shift register after shifting in the sample `x` (rules R109, R112, R113). -/
def shiftIn (d : ShiftDir) (isr : Word) (x : Sample) : Word :=
  match d with
  | .left => (isr <<< Config.busWidth) ||| x.setWidth 32
  | .right => (isr >>> Config.busWidth) ||| (x.setWidth 32 <<< (32 - Config.busWidth))

end Sys2Proof.Machine
end

