-- ==== Sys2Proof/Machine/Abort.lean ====
section
/-! DEFINITION. The abort-control register and the completion of aborts (44_abort.md). -/

namespace Sys2Proof.Machine

/-- `WR ABORT` (rule R180). -/
def execWrAbort (v : Word) (s : State) : Res State := abortWrite v s

/-- `RD ABORT` (rule R181). -/
def execRdAbort (s : State) : Res State := deliver (abortRead s)

/-- `ABORT_DONE` (rule R182): every requested abort completes in one step; with none requested the aborter holds. -/
def execAbortDone (s : State) : Res State :=
  if s.abortDoneEnabled then .next ((abortChannels (List.range s.params.nch) s).setAbortPending 0#32) else .next s

end Sys2Proof.Machine
end

