-- ==== Sys2Proof/Machine/ChannelSteps.lean ====
section
/-! DEFINITION. The two steps of a channel (43_channel_engine.md). A channel whose step is not enabled holds (log 9). -/

namespace Sys2Proof.Machine

/-- `XFER(c)` (rules R153, R154). -/
def execXfer (c : Nat) (s : State) : Res State := if s.xferEnabled c then xferWord c s else .next s

/-- `START(c)` (rules R158, R159): the pending trigger is taken; a channel with `EN = 0` drops it. -/
def execStart (c : Nat) (s : State) : Res State :=
  if s.startEnabled c then
    let t := s.setChan c { s.chan c with pend := false }
    if ctrlField (s.chan c).ctrl .en = 1 then trigger (.dma c) c t else .next t
  else .next s

end Sys2Proof.Machine
end

