-- ==== Sys2Proof/Machine/Encoder.lean ====
section
/-! DEFINITION. The control-word encoder as an operation of the host (40_control_word_encoder.md section 1). -/

namespace Sys2Proof.Machine

/-- `ENC` (rules R91 to R93): a pure function whose word goes to the host (log 12); an input outside its range is refused. -/
def execEnc (q treq chain rs ring iw ir size hp en : Nat) (s : State) : Res State :=
  match encodeCtrl ⟨q, treq, chain, rs, ring, iw, ir, size, hp, en⟩ with
  | some w => .next (s.setHostValue (some w))
  | none => .refused .encoderRange

end Sys2Proof.Machine
end

