-- ==== Sys2Proof/Machine/HostActions.lean ====
section
/-! DEFINITION. The host actions on the sampler and the waveform generator (rules R81, R106, R107, R119, R120). -/

namespace Sys2Proof.Machine

/-- `SAMPLER_START` (rule R106); no effect on a running sampler. -/
def execSamplerStart (s : State) : Res State :=
  if s.sampler.running then .next s else .next (s.setSampler ⟨true, .high, 0#32, 0⟩)

/-- `SAMPLER_STOP` (rule R107). -/
def execSamplerStop (s : State) : Res State := .next (s.setSampler { s.sampler with running := false })

/-- `WAVE_START` (rule R119); no effect on a running generator. -/
def execWaveStart (s : State) : Res State :=
  if s.wave.running then .next s else .next (s.setWave { s.wave with running := true, idx := 0 })

/-- `WAVE_STOP` (rule R120). -/
def execWaveStop (s : State) : Res State := .next (s.setWave { s.wave with running := false })

end Sys2Proof.Machine
end

