-- ==== Sys2Proof/Machine/PortAndMemory.lean ====
section
/-! DEFINITION. The host's accesses to the FIFO port and to ordinary memory (42_register_access.md section 4). -/

namespace Sys2Proof.Machine

/-- `RD FIFO` (rule R116). -/
def execRdFifo (s : State) : Res State := deliver (fifoRead s)

/-- `WR FIFO` (rule R136). -/
def execWrFifo (v : Word) (s : State) : Res State := fifoWrite v s

/-- `RD MEM`: the host's bus read at `a` (rules R52, R138). -/
def execRdMem (a : Word) (s : State) : Res State := deliver (busRead32 .host a s)

/-- `WR MEM`: the host's bus write at `a` (rules R52, R137). -/
def execWrMem (a v : Word) (s : State) : Res State := busWrite32 .host a v s

end Sys2Proof.Machine
end

