-- ==== Sys2Proof/Machine/RegisterReads.lean ====
section
/-! DEFINITION. The host's reads of channel registers (42_register_access.md section 3). -/

namespace Sys2Proof.Machine

/-- `RD READ_ADDR` (rule R131). -/
def execRdReadAddr (c : Nat) (s : State) : Res State := deliver (chanRead c .readAddr s)

/-- `RD WRITE_ADDR` (rule R132). -/
def execRdWriteAddr (c : Nat) (s : State) : Res State := deliver (chanRead c .writeAddr s)

/-- `RD TRANS_COUNT` (rule R133). -/
def execRdTransCount (c : Nat) (s : State) : Res State := deliver (chanRead c .transCount s)

/-- `RD CTRL_TRIG` (rule R134). -/
def execRdCtrlTrig (c : Nat) (s : State) : Res State := deliver (chanRead c .ctrlTrig s)

/-- `RD CTRL` (rule R134). -/
def execRdCtrl (c : Nat) (s : State) : Res State := deliver (chanRead c .ctrl s)

end Sys2Proof.Machine
end

