-- ==== Sys2Proof/Machine/RegisterWrites.lean ====
section
/-! DEFINITION. The host's writes of channel registers (42_register_access.md sections 1 and 2). -/

namespace Sys2Proof.Machine

/-- `WR READ_ADDR` (rule R126). -/
def execWrReadAddr (c : Nat) (v : Word) (s : State) : Res State := chanWrite .host c .readAddr v s

/-- `WR WRITE_ADDR` (rule R127). -/
def execWrWriteAddr (c : Nat) (v : Word) (s : State) : Res State := chanWrite .host c .writeAddr v s

/-- `WR TRANS_COUNT` (rule R128). -/
def execWrTransCount (c : Nat) (v : Word) (s : State) : Res State := chanWrite .host c .transCount v s

/-- `WR CTRL_TRIG` (rule R130). -/
def execWrCtrlTrig (c : Nat) (v : Word) (s : State) : Res State := chanWrite .host c .ctrlTrig v s

/-- `WR CTRL` (rule R129). -/
def execWrCtrl (c : Nat) (v : Word) (s : State) : Res State := chanWrite .host c .ctrl v s

end Sys2Proof.Machine
end

