-- ==== Sys2Proof/Machine/SamplerSteps.lean ====
section
/-! DEFINITION. The three steps of the Sampling Program (41_sampling_and_waveform.md section 1). A step that is not enabled
holds (log 9); `SAMPLE_IN` holds while a due push has no room (rule R110). -/

namespace Sys2Proof.Machine

/-- `SAMPLE_HIGH` (rule R108). -/
def execSampleHigh (s : State) : Res State :=
  if s.sampleHighEnabled then .next ((s.setRef (.bit true)).setSampler { s.sampler with phase := .sample }) else .next s

/-- `SAMPLE_IN` with the draw `x` (rule R109). -/
def execSampleIn (x : Sample) (s : State) : Res State :=
  if s.sampleInEnabled then
    let isr := shiftIn s.params.inShiftDir s.sampler.isr x
    if s.pushDue then .next ((fifoPush isr s).setSampler { s.sampler with phase := .low, isr := 0#32, isrCount := 0 })
    else .next (s.setSampler { s.sampler with
      phase := .low, isr := isr, isrCount := s.sampler.isrCount + Config.busWidth })
  else .next s

/-- `SAMPLE_LOW` (rule R111). -/
def execSampleLow (s : State) : Res State :=
  if s.sampleLowEnabled then .next ((s.setRef (.bit false)).setSampler { s.sampler with phase := .high }) else .next s

end Sys2Proof.Machine
end

