-- ==== Sys2Proof/Machine/Waveform.lean ====
section
/-! DEFINITION. The waveform generator's step (41_sampling_and_waveform.md section 3). -/

namespace Sys2Proof.Machine

/-- `WAVE_STEP` (rule R121). The index always lies in the pattern; were it outside, there would be no level to drive and the
generator would hold (log 19). -/
def execWaveStep (s : State) : Res State :=
  if s.waveStepEnabled then
    match s.params.wavePattern[s.wave.idx]? with
    | some b => .next (s.setWave { s.wave with pin := .bit b, idx := (s.wave.idx + 1) % s.params.wavePattern.length })
    | none => .next s
  else .next s

end Sys2Proof.Machine
end

