-- ==== Sys2Proof/Machine/Dispatch.lean ====
section
/-! DEFINITION. One arm per operation. -/

namespace Sys2Proof.Machine

/-- The meaning of each operation, as its own agent takes it. -/
def exec (i : Instr) (s : State) : Host.Outcome State Fault Refusal :=
  match i with
  | .wrReadAddr c v => Sys2Proof.Machine.execWrReadAddr c v s
  | .wrWriteAddr c v => Sys2Proof.Machine.execWrWriteAddr c v s
  | .wrTransCount c v => Sys2Proof.Machine.execWrTransCount c v s
  | .wrCtrlTrig c v => Sys2Proof.Machine.execWrCtrlTrig c v s
  | .wrCtrl c v => Sys2Proof.Machine.execWrCtrl c v s
  | .rdReadAddr c => Sys2Proof.Machine.execRdReadAddr c s
  | .rdWriteAddr c => Sys2Proof.Machine.execRdWriteAddr c s
  | .rdTransCount c => Sys2Proof.Machine.execRdTransCount c s
  | .rdCtrlTrig c => Sys2Proof.Machine.execRdCtrlTrig c s
  | .rdCtrl c => Sys2Proof.Machine.execRdCtrl c s
  | .wrAbort v => Sys2Proof.Machine.execWrAbort v s
  | .rdAbort => Sys2Proof.Machine.execRdAbort s
  | .rdFifo => Sys2Proof.Machine.execRdFifo s
  | .wrFifo v => Sys2Proof.Machine.execWrFifo v s
  | .rdMem a => Sys2Proof.Machine.execRdMem a s
  | .wrMem a v => Sys2Proof.Machine.execWrMem a v s
  | .samplerStart => Sys2Proof.Machine.execSamplerStart s
  | .samplerStop => Sys2Proof.Machine.execSamplerStop s
  | .waveStart => Sys2Proof.Machine.execWaveStart s
  | .waveStop => Sys2Proof.Machine.execWaveStop s
  | .xfer c => Sys2Proof.Machine.execXfer c s
  | .start c => Sys2Proof.Machine.execStart c s
  | .abortDone => Sys2Proof.Machine.execAbortDone s
  | .sampleHigh => Sys2Proof.Machine.execSampleHigh s
  | .sampleIn x => Sys2Proof.Machine.execSampleIn x s
  | .sampleLow => Sys2Proof.Machine.execSampleLow s
  | .waveStep => Sys2Proof.Machine.execWaveStep s
  | .enc q treq chain rs ring iw ir size hp en => Sys2Proof.Machine.execEnc q treq chain rs ring iw ir size hp en s

end Sys2Proof.Machine
end

