-- ==== Sys2Proof/Machine/HostProgram.lean ====
section
/-! DEFINITION. The agent `HOST` executing a host program (rules R85, R191), and the procedures of 45_capture_protocols.md as
host programs (rules R86, R193 to R196, R203, R204, R211). -/

namespace Sys2Proof.Machine

/-- The value of a parameter name in a host program (rules R6, R85). DESIGN CHOICE (log 29): a natural number is taken modulo
`2^32`, and a narrower code is widened with zeros. -/
def paramValue (p : Params) : ParamName → Word
  | .nch => BitVec.ofNat 32 p.nch
  | .pri => BitVec.ofNat 32 p.pri
  | .rst => BitVec.ofNat 32 p.rst
  | .dmaBase => p.dmaBase
  | .chStride => BitVec.ofNat 32 Config.chStride
  | .abortOff => Config.abortOff.setWidth 32
  | .fifoAddr => p.fifoAddr
  | .fifoDepth => BitVec.ofNat 32 p.fifoDepth
  | .sampleTreq => p.sampleTreq.setWidth 32
  | .unpacedTreq => Config.unpacedTreq.setWidth 32
  | .busWidth => BitVec.ofNat 32 Config.busWidth
  | .pushThreshold => BitVec.ofNat 32 Config.pushThreshold
  | .abortRetries => BitVec.ofNat 32 p.abortRetries

/-- Host temporary `t`; one nothing has assigned holds a free value (log 20). -/
def tempValue (h : HostAgent) (t : Nat) : Word :=
  match h.temps.find? (fun x => x.1 == t) with
  | some x => x.2
  | none => Config.unsetTemp t

/-- The value of a host expression; `ENC` of an input outside its range is refused (rules R85, R92). Arithmetic is modulo `2^32`
and a shift by 32 or more gives 0 (log 28). -/
def evalExpr (p : Params) (h : HostAgent) : HostExpr → Res Word
  | .num v => .next v
  | .temp t => .next (tempValue h t)
  | .param n => .next (paramValue p n)
  | .enc f => match encodeCtrl f with
    | some w => .next w
    | none => .refused .encoderRange
  | .and a b => andThen (evalExpr p h a) fun x => andThen (evalExpr p h b) fun y => .next (x &&& y)
  | .or a b => andThen (evalExpr p h a) fun x => andThen (evalExpr p h b) fun y => .next (x ||| y)
  | .not a => andThen (evalExpr p h a) fun x => .next (~~~x)
  | .add a b => andThen (evalExpr p h a) fun x => andThen (evalExpr p h b) fun y => .next (x + y)
  | .sub a b => andThen (evalExpr p h a) fun x => andThen (evalExpr p h b) fun y => .next (x - y)
  | .mul a b => andThen (evalExpr p h a) fun x => andThen (evalExpr p h b) fun y => .next (x * y)
  | .shl a b => andThen (evalExpr p h a) fun x => andThen (evalExpr p h b) fun y => .next (x <<< y.toNat)
  | .shr a b => andThen (evalExpr p h a) fun x => andThen (evalExpr p h b) fun y => .next (x >>> y.toNat)

/-- The operation of `WR r, v` (rule R85). -/
def writeForm (p : Params) (h : HostAgent) (r : HostReg) (v : Word) : Res Instr :=
  match r with
  | .chan c q => .next (writeInstr c v q)
  | .abort => .next (.wrAbort v)
  | .fifo => .next (.wrFifo v)
  | .mem e => andThen (evalExpr p h e) fun a => .next (.wrMem a v)

/-- The operation of `RD t, r` (rule R85). -/
def readForm (p : Params) (h : HostAgent) (r : HostReg) : Res Instr :=
  match r with
  | .chan c q => .next (readInstr c q)
  | .abort => .next .rdAbort
  | .fifo => .next .rdFifo
  | .mem e => andThen (evalExpr p h e) fun a => .next (.rdMem a)

/-- The host program goes on with the forms `fs`. -/
def State.hostGoto (s : State) (fs : List HostForm) : State := s.setHost { s.host with prog := fs }

/-- `t := v` in the host. -/
def State.assignTemp (s : State) (t : Nat) (v : Word) : State := s.setHost { s.host with temps := (t, v) :: s.host.temps }

/-- The value the last read returned goes into temporary `t`. -/
def State.keepValue (s : State) (t : Nat) : State :=
  match s.hostValue with
  | some v => s.assignTemp t v
  | none => s

/-- One bus read by the host program. -/
def hostRead (r : HostReg) (s : State) : Res State :=
  andThen (readForm s.params s.host r) fun i => exec i s

/-- The host program ends with TIMEOUT, the forms after the bounded poll dropped (rules R203, R232; log 21). -/
def State.hostTimeout (s : State) : State := s.setHost { s.host with prog := [], result := some .timeout }

/-- After a read of a bounded poll into temporary `t`, with `k` reads left: the program goes on when the read returned 0, reads
again, or ends with TIMEOUT when that read was its last (rule R203). -/
def State.afterBoundedRead (s : State) (k t : Nat) (r : HostReg) (rest : List HostForm) : State :=
  if s.hostValue = some 0#32 then s.hostGoto rest
  else match k with
    | 0 => s.hostTimeout
    | j + 1 => s.hostGoto (.pollzWithin (j + 1) t r :: rest)

/-- One form of the host program, with `rest` the forms after it (rules R85, R191, R203). A poll that reads nonzero stays, and
assigns no temporary (DESIGN CHOICE, log 32: the comment of rule R85 writes `RD t, <reg>`, but `POLLZ <reg>` names no `t`);
the bounded poll reads into the temporary rule R203 writes. A bounded poll whose last read is nonzero ends the program with
TIMEOUT in that same turn (rule R232), one of no reads in a turn of its own (log 21). A return, of OK as of TIMEOUT, ends
the whole host program: the forms after it are dropped (DESIGN CHOICE, log 21: rule R203 does not say whether it ends the
pseudo-operation only). A written value is worked out before the bus write, so its EncoderRange comes before every outcome
of the access (DESIGN CHOICE, log 31: rule R220 does not name it). -/
def runForm (f : HostForm) (rest : List HostForm) (s : State) : Res State :=
  match f with
  | .wr r e =>
    andThen (evalExpr s.params s.host e) fun v =>
    andThen (writeForm s.params s.host r v) fun i =>
    andThen (exec i s) fun u => .next (u.hostGoto rest)
  | .rd t r => andThen (hostRead r s) fun u => .next ((u.keepValue t).hostGoto rest)
  | .pollz r =>
    andThen (hostRead r s) fun u => .next (if u.hostValue = some 0#32 then u.hostGoto rest else u)
  | .pollzWithin 0 _ _ => .next s.hostTimeout
  | .pollzWithin (k + 1) t r =>
    andThen (hostRead r s) fun u => .next ((u.keepValue t).afterBoundedRead k t r rest)
  | .samplerStart => andThen (exec .samplerStart s) fun u => .next (u.hostGoto rest)
  | .samplerStop => andThen (exec .samplerStop s) fun u => .next (u.hostGoto rest)
  | .waveStart => andThen (exec .waveStart s) fun u => .next (u.hostGoto rest)
  | .waveStop => andThen (exec .waveStop s) fun u => .next (u.hostGoto rest)
  | .assign t e => andThen (evalExpr s.params s.host e) fun v => .next ((s.assignTemp t v).hostGoto rest)
  | .ret r => .next (s.setHost { s.host with prog := [], result := some r })

/-- The host's turn: the next form of its program; a program that has ended holds (rule R191). -/
def hostTurn (s : State) : Res State :=
  match s.host.prog with
  | [] => .next s
  | f :: rest => runForm f rest s

/-- `k` turns of the host, one after the other (rule R191). -/
def hostTurns (k : Nat) (s : State) : Res State :=
  match k with
  | 0 => .next s
  | k + 1 => andThen (hostTurn s) (hostTurns k)

/-- One turn of the interleaving (rules R45, R62): an operation word is decoded and run, or the host takes its turn. -/
def runTurn (t : Turn) (s : State) : Res State :=
  match t with
  | .command c =>
    match decode s.params c with
    | .ok i => exec i s
    | .error r => .refused r
  | .host => hostTurn s

/-! The procedures of 45_capture_protocols.md. -/

/-- `1 << c`. -/
def chanBit (c : Nat) : Word := 1#32 <<< c

/-- The channels of a mask, ascending (rules R194, R203). DESIGN CHOICE (log 30): a bit at or above `NCH` names no channel, and
no form is made for it. -/
def maskChannels (p : Params) (mask : Word) : List Nat := (List.range p.nch).filter fun c => mask.getLsbD c

/-- `RD t, CH<c>.CTRL; WR CH<c>.CTRL, t & ~1` (rule R140). -/
def clearEnable (c : Nat) : List HostForm :=
  [.rd 0 (.chan c .ctrl), .wr (.chan c .ctrl) (.and (.temp 0) (.not (.num 1#32)))]

/-- `writeDescriptor(DESC, BUF)` (rule R193). -/
def writeDescriptor (desc buf : Word) : List HostForm := [.wr (.mem (.num desc)) (.num buf)]

/-- `stopCapture(mask)` (rule R194). -/
def stopCapture (p : Params) (mask : Word) : List HostForm :=
  [.wr .abort (.num mask), .pollz .abort] ++ (maskChannels p mask).flatMap clearEnable

/-- The three register writes that configure the Primary Channel (rules R195, R204, R211). -/
def configurePrimary (p : Params) (buf n : Word) : List HostForm :=
  [.wr (.chan p.pri .readAddr) (.param .fifoAddr), .wr (.chan p.pri .writeAddr) (.num buf),
    .wr (.chan p.pri .transCount) (.num n)]

/-- `startCapture(BUF, N)` (rule R195). -/
def startCapture (p : Params) (buf n : Word) : List HostForm :=
  stopCapture p (chanBit p.pri) ++ configurePrimary p buf n
    ++ [.wr (.chan p.pri .ctrlTrig) (.enc (priCtrlInputs p))]

/-- `arm(DESC, PRI)` (rule R196). -/
def arm (p : Params) (desc : Word) : List HostForm :=
  [.wr (.chan p.rst .readAddr) (.num desc), .wr (.chan p.rst .writeAddr) (.num (chanAddr p p.pri .writeAddr)),
    .wr (.chan p.rst .transCount) (.num 1#32), .wr (.chan p.rst .ctrl) (.enc (rstCtrlInputs p))]

/-- DOC0's session start (rule R197). -/
def sourceStart (p : Params) (buf n desc : Word) : List HostForm :=
  writeDescriptor desc buf ++ startCapture p buf n ++ arm p desc

/-- `startSession(BUF, N, DESC)` after its stop: the descriptor, the Primary Channel, the arming, and the start (rule R211). -/
def sessionConfig (p : Params) (buf n desc : Word) : List HostForm :=
  writeDescriptor desc buf ++ configurePrimary p buf n ++ [.wr (.chan p.pri .ctrl) (.enc (priCtrlInputs p))]
    ++ arm p desc ++ [.wr (.chan p.pri .ctrlTrig) (.enc (priCtrlInputs p))]

/-- `startSession(BUF, N, DESC)`, the race-free start (rule R211). -/
def startSession (p : Params) (buf n desc : Word) : List HostForm :=
  stopCapture p (chanBit p.pri ||| chanBit p.rst) ++ sessionConfig p buf n desc

/-- `stopCaptureBounded(mask, k)` with `k = ABORT_RETRIES` (rule R203); its `t` is temporary 0. Its
returns end the host program it stands in (log 21), so nothing can follow it there. -/
def stopCaptureBounded (p : Params) (mask : Word) : List HostForm :=
  [.wr .abort (.num mask), .pollzWithin p.abortRetries 0 .abort] ++ (maskChannels p mask).flatMap clearEnable ++ [.ret .ok]

/-- `startBurst(BUF, N)` (rule R204). -/
def startBurst (p : Params) (buf n : Word) : List HostForm :=
  stopCapture p (chanBit p.pri ||| chanBit p.rst) ++ configurePrimary p buf n
    ++ [.wr (.chan p.pri .ctrlTrig) (.enc (priCtrlBurstInputs p))]

/-- The boot order of rule R238, with the optional waveform start. -/
def bootCapture (p : Params) (buf n desc : Word) : List HostForm :=
  [.waveStart, .samplerStart] ++ startSession p buf n desc

end Sys2Proof.Machine
end

