-- ==== Sys2Proof/Machine/Step.lean ====
section
/-! DEFINITION. One step of the whole machine: the next turn of the agenda. -/

namespace Sys2Proof.Machine

/-- A marked state takes no further step (rule R37): the machine has stopped with that fault or refusal. Otherwise the next
turn of the agenda is taken (rules R45, R62); a turn that raises a fault or a refusal leaves the state before the step
with the mark set (rules R216, R217). With no turn left the machine idles (log 8). -/
def step (s : State) : Host.Outcome State Fault Refusal :=
  match s.fault with
  | some r => .fault r
  | none =>
    match s.refusal with
    | some r => .refused r
    | none =>
      match s.agenda with
      | [] => .next s
      | t :: rest => settle s (runTurn t (s.setAgenda rest))

/-- `s` with the table's word issued as the next turn (log 10). -/
def State.withFetchWord (s : State) (nbits w : Nat) : State :=
  match tableCommand nbits w with
  | some c => s.setAgenda (.command c :: s.agenda)
  | none => s

end Sys2Proof.Machine
end

