-- ==== Sys2Proof/Machine/Protocol.lean ====
section
/-! DEFINITION. The capture session of 45_capture_protocols.md: its preconditions (rule R192) and the loop invariant with its
four phases (rule R198). -/

namespace Sys2Proof.Machine

/-- `P_buf`: the buffer is word aligned and lies in `RAM` without wrapping (rule R192). -/
def BufferInRam (p : Params) (buf n : Word) : Prop :=
  aligned buf = true ∧ buf.toNat + 4 * n.toNat ≤ 2 ^ 32 ∧
    ∀ a : Word, buf.toNat ≤ a.toNat → a.toNat < buf.toNat + 4 * n.toNat → inRam p a = true

/-- `P_count`: `1 <= N` (rule R192). -/
def CountPositive (n : Word) : Prop := 1 ≤ n.toNat

/-- `P_desc`: the descriptor is an aligned word of `RAM`, disjoint from the buffer (rule R192). -/
def DescriptorInRam (p : Params) (buf n desc : Word) : Prop :=
  aligned desc = true ∧
    (∀ a : Word, desc.toNat ≤ a.toNat → a.toNat < desc.toNat + 4 → inRam p a = true) ∧
    (desc.toNat + 4 ≤ buf.toNat ∨ buf.toNat + 4 * n.toNat ≤ desc.toNat)

/-- `P_other`: no other channel is active or chains into the pair (rule R192). -/
def OthersOut (s : State) : Prop :=
  ∀ c, c < s.params.nch → c ≠ s.params.pri → c ≠ s.params.rst →
    (s.chan c).busy = false ∧ (s.chan c).pend = false ∧
      (ctrlField (s.chan c).ctrl .en = 1 →
        ctrlField (s.chan c).ctrl .chainTo ≠ s.params.pri ∧ ctrlField (s.chan c).ctrl .chainTo ≠ s.params.rst)

/-- `P_alone`: no capture session is active (rule R192). -/
def NoSession (s : State) : Prop := s.sessionActive = false

/-- The phases of the loop (rule R198). -/
inductive LoopPhase where
  /-- (a) the Primary Channel fills the buffer. -/
  | capturing
  /-- (b) its completion has chained to the Restart Channel. -/
  | chainToRestart
  /-- (c) the Restart Channel rewrites the destination. -/
  | restarting
  /-- (d) its completion has chained to the Primary Channel. -/
  | chainToPrimary
  deriving DecidableEq, Repr

/-- Neither busy nor pending. -/
def Channel.resting (k : Channel) : Prop := k.busy = false ∧ k.pend = false

/-- The table of rule R198: what each phase says of the two channels `a = ch[PRI]` and `b = ch[RST]`. -/
def inPhase (a b : Channel) (buf n : Word) : LoopPhase → Prop
  | .capturing =>
    a.busy = true ∧ a.pend = false ∧ b.resting ∧
      ∃ k : Word, a.countLive = .word k ∧ 1 ≤ k.toNat ∧ k.toNat ≤ n.toNat ∧
        a.writeAddr = .word (buf + 4#32 * (n - k))
  | .chainToRestart => a.resting ∧ b.busy = false ∧ b.pend = true ∧ a.writeAddr = .word (buf + 4#32 * n)
  | .restarting =>
    a.resting ∧ b.busy = true ∧ b.pend = false ∧ b.countLive = .word 1#32 ∧ a.writeAddr = .word (buf + 4#32 * n)
  | .chainToPrimary => a.busy = false ∧ a.pend = true ∧ b.resting ∧ a.writeAddr = .word buf

/-- `LoopGood(BUF, N, DESC)` with the pair in phase `ph` (rule R198). DESIGN CHOICE (log 33): beside what the rule lists, the
state has no refusal mark (the rule names `fault` only), valid parameters and one record for each channel, and a pending
channel of the pair is not busy. -/
structure LoopGoodIn (ph : LoopPhase) (s : State) (buf n desc : Word) : Prop where
  params_valid : s.params.Valid
  channels : s.ch.length = s.params.nch
  pri_ctrl : (s.chan s.params.pri).ctrl = priCtrl s.params
  pri_readAddr : (s.chan s.params.pri).readAddr = .word s.params.fifoAddr
  pri_countReload : (s.chan s.params.pri).countReload = .word n
  rst_ctrl : (s.chan s.params.rst).ctrl = rstCtrl s.params
  rst_readAddr : (s.chan s.params.rst).readAddr = .word desc
  rst_writeAddr : (s.chan s.params.rst).writeAddr = .word (chanAddr s.params s.params.pri .writeAddr)
  rst_countReload : (s.chan s.params.rst).countReload = .word 1#32
  descriptor : memReadWord s.mem desc = some buf
  no_abort : s.abortPending = 0#32
  no_fault : s.fault = none
  no_refusal : s.refusal = none
  buf_ok : BufferInRam s.params buf n
  count_ok : CountPositive n
  desc_ok : DescriptorInRam s.params buf n desc
  others : OthersOut s
  phase : inPhase (s.chan s.params.pri) (s.chan s.params.rst) buf n ph

/-- `LoopGood(BUF, N, DESC)` (rule R198). -/
def LoopGood (s : State) (buf n desc : Word) : Prop := ∃ ph, LoopGoodIn ph s buf n desc

/-- The phase after the step `i` of a hardware agent from phase `ph` (rule R198); `last` says that the Primary Channel has
one word left and its request is asserted. Every other step stays in the phase. -/
def LoopPhase.after (p : Params) (last : Bool) (i : Instr) : LoopPhase → LoopPhase
  | .capturing => if i = .xfer p.pri ∧ last then .chainToRestart else .capturing
  | .chainToRestart => if i = .start p.rst then .restarting else .chainToRestart
  | .restarting => if i = .xfer p.rst then .chainToPrimary else .restarting
  | .chainToPrimary => if i = .start p.pri then .capturing else .chainToPrimary

end Sys2Proof.Machine
end

