-- ==== Sys2Proof/Safety.lean ====
section
/-! DEFINITION. What counts as a safe run: hardware steps and their enabling, runs and fairness (rules R45, R62, R118, R161,
R187), the end of a run (rule R210), and the invariant of the block. -/

namespace Sys2Proof.Safety

open Machine

/-- The steps of the hardware agents, without their operands (rule R82). -/
inductive HwStep where
  | xfer (c : Nat)
  | start (c : Nat)
  | abortDone
  | sampleHigh
  | sampleIn
  | sampleLow
  | waveStep
  deriving DecidableEq, Repr

/-- The hardware step an operation is, none for a host operation. -/
def hwStepOf : Instr → Option HwStep
  | .xfer c => some (.xfer c)
  | .start c => some (.start c)
  | .abortDone => some .abortDone
  | .sampleHigh => some .sampleHigh
  | .sampleIn _ => some .sampleIn
  | .sampleLow => some .sampleLow
  | .waveStep => some .waveStep
  | .wrReadAddr _ _ => none
  | .wrWriteAddr _ _ => none
  | .wrTransCount _ _ => none
  | .wrCtrlTrig _ _ => none
  | .wrCtrl _ _ => none
  | .rdReadAddr _ => none
  | .rdWriteAddr _ => none
  | .rdTransCount _ => none
  | .rdCtrlTrig _ => none
  | .rdCtrl _ => none
  | .wrAbort _ => none
  | .rdAbort => none
  | .rdFifo => none
  | .wrFifo _ => none
  | .rdMem _ => none
  | .wrMem _ _ => none
  | .samplerStart => none
  | .samplerStop => none
  | .waveStart => none
  | .waveStop => none
  | .enc _ _ _ _ _ _ _ _ _ _ => none

/-- The step is enabled (rules R108, R109, R111, R121, R153, R158, R182). -/
def HwStep.enabled (s : State) : HwStep → Bool
  | .xfer c => s.xferEnabled c
  | .start c => s.startEnabled c
  | .abortDone => s.abortDoneEnabled
  | .sampleHigh => s.sampleHighEnabled
  | .sampleIn => s.sampleInEnabled
  | .sampleLow => s.sampleLowEnabled
  | .waveStep => s.waveStepEnabled

/-- The turn `t` gives the step `h` to its agent. -/
def takes (p : Params) (t : Turn) (h : HwStep) : Prop :=
  match t with
  | .host => False
  | .command c => ∃ i, decode p c = .ok i ∧ hwStepOf i = some h

/-- The state is not marked by a fault or a refusal (rule R37). -/
def running (s : State) : Prop := s.fault = none ∧ s.refusal = none

/-- An infinite run: a single interleaving of turns, a marked state staying as it is (rules R62, R216). -/
structure Run where
  states : Nat → State
  turns : Nat → Turn
  follows : ∀ k, running (states k) → settle (states k) (runTurn (turns k) (states k)) = .next (states (k + 1))
  stays : ∀ k, ¬running (states k) → states (k + 1) = states k

/-- A step that stays enabled is eventually taken (rule R118). -/
def Run.weaklyFair (r : Run) (h : HwStep) : Prop :=
  ∀ k, (∀ m, k ≤ m → h.enabled (r.states m) = true) → ∃ m, k ≤ m ∧ takes (r.states m).params (r.turns m) h

/-- The fairness of rules R118, R121, R161 and R187: every hardware step is weakly fair, `ABORT_DONE` only if `ABORT_FAIR`.
-/
def Run.fair (r : Run) : Prop :=
  ∀ h : HwStep, (h = .abortDone → (r.states 0).params.abortFair = true) → r.weaklyFair h

/-- The turns of a protocol's run: the next form of its host program (rule R191), or a step of a hardware agent (rules R45, R82).
A host operation that is in no program is not one of them. -/
def protocolTurn (p : Params) (t : Turn) : Prop := t = .host ∨ ∃ h, takes p t h

/-- The run is one of the protocol whose host program its first state holds (rules R62, R191). -/
def Run.ofProtocol (r : Run) : Prop := ∀ k, running (r.states k) → protocolTurn (r.states k).params (r.turns k)

/-- The protocol whose host program `s` holds reaches `t` from `s` by finitely many turns of its own (rules R62, R191). -/
inductive Reaches (s : State) : State → Prop where
  | refl : Reaches s s
  | turn {t u : State} (x : Turn) : Reaches s t → running t → protocolTurn t.params x →
      settle t (runTurn x t) = .next u → Reaches s u

/-- The protocol whose host program `s` holds is safe from `s`: no state it reaches has a fault (rule R216). -/
def SafeFrom (s : State) : Prop := ∀ t, Reaches s t → t.fault = none

/-- The run has ended: the host program has ended and the DMA block is quiescent (rule R210; log 25). -/
def Ended (s : State) : Prop := s.host.prog = [] ∧ s.quiescent = true

/-- What holds of every channel record: its control word is admitted (rules R26, R97), a pending channel is not busy
(rule R157), and a busy channel is enabled, has its addresses and has words left (rules R152, R153, R167). -/
structure ChannelOk (p : Params) (k : Channel) : Prop where
  admitted : ctrlRefusal p k.ctrl = none
  pend_not_busy : k.pend = true → k.busy = false
  busy_enabled : k.busy = true → ctrlField k.ctrl .en = 1
  busy_readAddr : k.busy = true → k.readAddr ≠ .unwritten
  busy_writeAddr : k.busy = true → k.writeAddr ≠ .unwritten
  busy_count : k.busy = true → ∃ n, k.countLive = .word n ∧ n ≠ 0#32

/-- The bits of a pushed word that no sample fills are clear: bits 31:30 (`LEFT`) or 1:0 (`RIGHT`) (rules R112, R113, R213).
-/
def unfilledClear (d : ShiftDir) (w : Word) : Prop :=
  match d with
  | .left => w.extractLsb' 30 2 = 0#2
  | .right => w.extractLsb' 0 2 = 0#2

/-- The bits of the shift register that no sample has filled yet are clear (rules R109, R112, R113). -/
def unshiftedClear (d : ShiftDir) (isr : Word) (count : Nat) : Prop :=
  match d with
  | .left => isr >>> count = 0#32
  | .right => isr <<< count = 0#32

/-- The invariant of the block: valid parameters, one record for each channel and each as `ChannelOk` says, no abort bit at or
above `NCH` (rules R30, R180), a FIFO within its depth holding words as the sampler packs them (rules R32, R114, R213), a
bit count that is a multiple of `BUS_WIDTH` below the threshold (rules R33, R109), a pattern index in the pattern
(rule R35), and memory in its canonical form inside the address space (rules R36, R50). -/
structure BlockInv (s : State) : Prop where
  params_valid : s.params.Valid
  channels : s.ch.length = s.params.nch
  channel_ok : ∀ c, c < s.params.nch → ChannelOk s.params (s.chan c)
  abort_mask : ∀ c, s.params.nch ≤ c → s.abortBit c = false
  fifo_depth : s.fifo.length ≤ s.params.fifoDepth
  fifo_packed : ∀ w ∈ s.fifo, unfilledClear s.params.inShiftDir w
  isr_count : s.sampler.isrCount % Config.busWidth = 0 ∧ s.sampler.isrCount < Config.pushThreshold
  isr_packed : unshiftedClear s.params.inShiftDir s.sampler.isr s.sampler.isrCount
  wave_idx : s.wave.idx < s.params.wavePattern.length
  mem_wf : memWf s.mem
  mem_space : ∀ x ∈ s.mem, x.1 < 2 ^ 32

/-- The note of the session in progress (rules R44, R64, R208; log 15): only an active session is noted, and while the Primary
Channel moves words its CaptureBuffer is known. -/
structure SessionInv (s : State) : Prop where
  noted_active : s.session ≠ none → s.sessionActive = true
  busy_noted : (s.chan s.params.pri).busy = true → s.session ≠ none

end Sys2Proof.Safety
end

