-- ==== Sys2Proof/Certificates/Slice0/Obligations.lean ====
section
/-! DEFINITION. The statements for the provers. Each docstring names the rules of spec/ it formalises; where a clause rests on
a choice of the model it names the log entry. -/

open Sys2Proof Sys2Proof.Machine Sys2Proof.Safety

/-! ## Encodings -/

/-- Rules R74 to R82 and R70: the word of every existing operation decodes to it, for all parameters. How operands
travel beside a word is the model's choice (log 16, log 17). -/
def Obligations.DecodeOfEncodeIsTheOperation : Prop :=
  ∀ (p : Params) (i : Instr), p.Valid → i.wellFormed p = true → decode p (encode p i) = .ok i

/-- Rules R52, R75 to R78: what the decoder answers is an operation the block has. What the decoder refuses beyond
rule R78 is the model's choice (log 18). -/
def Obligations.DecodedOperationsExist : Prop :=
  ∀ (p : Params) (c : Command) (i : Instr), p.Valid → decode p c = .ok i → i.wellFormed p = true

/-- 95_test_vectors.md: words of each format, with the default parameters, stand for the operation the spec gives
them. How operands travel beside a word is the model's choice (log 17). -/
def Obligations.SpecWordsDecodeAsPrinted : Prop :=
  decode Params.default (.busop 0x1004#13 0x20001000#32) = .ok (.wrWriteAddr 0 0x20001000#32) ∧
    decode Params.default (.busop 0x104C#13 7#32) = .ok (.wrCtrlTrig 1 7#32) ∧
    decode Params.default (.busop 0x0048#13 0#32) = .ok (.rdTransCount 1) ∧
    decode Params.default (.busop 0x0444#13 0#32) = .ok .rdAbort ∧
    decode Params.default (.busaddr 0x050200020#33 0#32) = .ok .rdFifo ∧
    decode Params.default (.busaddr 0x120000F00#33 0x20001000#32) = .ok (.wrMem 0x20000F00#32 0x20001000#32) ∧
    decode Params.default (.hostact 0x2#4) = .ok .samplerStop ∧
    decode Params.default (.hwstep 0x11#8 3#32) = .ok (.start 3) ∧
    decode Params.default (.encoder 0x0022082B#32 ⟨0, 0, 0, 0, 0, 0, 0, 0, 0, 0⟩) = .ok (.enc 1 4 1 0 0 1 0 2 1 1)

/-- Rule R78: an aligned address of the DMA block whose offset is neither the abort register nor a register of an
existing channel is refused as unmapped, for reads and writes of every master, and by the decoder. -/
def Obligations.UnmappedOffsetsAreRefused : Prop :=
  ∀ (s : State) (m : Master) (a v : Word) (off : Nat), s.params.Valid →
    a.toNat = s.params.dmaBase.toNat + off → off < 0x1000 → off % 4 = 0 → off ≠ 0x444 →
    (s.params.nch ≤ off / 64 ∨
      (off % 64 ≠ 0x00 ∧ off % 64 ≠ 0x04 ∧ off % 64 ≠ 0x08 ∧ off % 64 ≠ 0x0C ∧ off % 64 ≠ 0x10)) →
    busRead32 m a s = .refused (.unmappedRegister (BitVec.ofNat 12 off)) ∧
      busWrite32 m a v s = .refused (.unmappedRegister (BitVec.ofNat 12 off)) ∧
      decode s.params (.busop (BitVec.ofNat 13 off) v) = .error (.unmappedRegister (BitVec.ofNat 12 off)) ∧
      decode s.params (.busop (BitVec.ofNat 13 (0x1000 + off)) v) = .error (.unmappedRegister (BitVec.ofNat 12 off))

/-! ## The step -/

/-- Rules R45, R62 (the agenda is the model's choice, log 8): the turn at the head of the agenda is taken; when its word
decodes to an existing operation `i`, the step is what `i` does, with the note of a session that is over forgotten (log 15).
-/
def Obligations.StepRunsTheDecodedOperation : Prop :=
  ∀ (s : State) (c : Command) (rest : List Turn) (i : Instr), s.fault = none → s.refusal = none →
    s.agenda = .command c :: rest → decode s.params c = .ok i → i.wellFormed s.params = true →
    (∀ t, exec i { s with agenda := rest } = .next t →
      step s = .next { t with session := if t.sessionActive = true then t.session else none }) ∧
      (∀ r, exec i { s with agenda := rest } = .fault r → step s = .next { s with fault := some r }) ∧
      (∀ r, exec i { s with agenda := rest } = .refused r → step s = .next { s with refusal := some r })

/-- Rules R216, R217: a turn that raises a fault or a refusal leaves the state before the step with the mark set, and
from then on no step is taken. What `step` answers in a marked state is the model's choice (log 11). -/
def Obligations.FaultsAndRefusalsMarkTheStateAndStop : Prop :=
  ∀ (s : State) (x : Turn) (rest : List Turn), s.fault = none → s.refusal = none → s.agenda = x :: rest →
    (∀ r, runTurn x { s with agenda := rest } = .fault r →
      step s = .next { s with fault := some r } ∧ step { s with fault := some r } = .fault r) ∧
      (∀ r, runTurn x { s with agenda := rest } = .refused r →
        step s = .next { s with refusal := some r } ∧ step { s with refusal := some r } = .refused r)

/-- Rule R191: `POLLZ ABORT` reads the register each turn and ends at the first read that returns 0. The model's choices: the
host's program and temporaries in the state (log 20), the value read in the state (log 12), and that a `POLLZ` leaves the
temporaries as they were (log 32: the comment of rule R85 writes `RD t, <reg>`). -/
def Obligations.PollEndsAtTheFirstZero : Prop :=
  ∀ (s : State) (rest : List HostForm), s.host.prog = .pollz .abort :: rest →
    (s.abortPending = 0#32 →
      hostTurn s = .next { s with hostValue := some 0#32, host := { s.host with prog := rest } }) ∧
      (s.abortPending ≠ 0#32 → hostTurn s = .next { s with hostValue := some s.abortPending })

/-- Rules R203, R232: the bounded poll of `ABORT` goes on at the first read that returns 0, and ends the program with TIMEOUT
in the very step of its last nonzero read, so that the block is in the state that read left; each read goes into the poll's
temporary `t` (the bounded poll as a host form is the model's choice, log 21, and the temporaries in the state are log 20).
-/
def Obligations.BoundedPollTimesOutAtItsLastRead : Prop :=
  ∀ (s : State) (k t : Nat) (rest : List HostForm), s.host.prog = .pollzWithin (k + 1) t .abort :: rest →
    (s.abortPending = 0#32 →
      hostTurn s = .next { s with
          hostValue := some 0#32, host := { s.host with prog := rest, temps := (t, 0#32) :: s.host.temps } }) ∧
      (s.abortPending ≠ 0#32 → 0 < k →
        hostTurn s = .next { s with
          hostValue := some s.abortPending, host := { s.host with
            prog := .pollzWithin k t .abort :: rest, temps := (t, s.abortPending) :: s.host.temps } }) ∧
      (s.abortPending ≠ 0#32 → k = 0 →
        hostTurn s = .next { s with
          hostValue := some s.abortPending, host := { s.host with
            prog := [], temps := (t, s.abortPending) :: s.host.temps, result := some .timeout } })

/-! ## Reset -/

/-- Rule R235: the reset state of its table, for all parameters, and the one its last part allows beside it, which has 0 in each
address and count register and is the table's in all else. `State.reset` is the second with the default parameters (the
model's choice, log 6 and log 2). -/
def Obligations.ResetIsAsTheTableSays : Prop :=
  ∀ p : Params,
    (State.resetWith p).ch.length = p.nch ∧
      (∀ c, c < p.nch →
        ((State.resetWith p).chan c).readAddr = .unwritten ∧ ((State.resetWith p).chan c).writeAddr = .unwritten ∧
          ((State.resetWith p).chan c).countReload = .unwritten ∧ ((State.resetWith p).chan c).countLive = .unwritten ∧
          ((State.resetWith p).chan c).ctrl = 0x00000000#32 ∧ ((State.resetWith p).chan c).busy = false ∧
          ((State.resetWith p).chan c).pend = false ∧ ((State.resetWith p).chan c).irq = false) ∧
      (State.resetWith p).abortPending = 0#32 ∧ (State.resetWith p).fifo = [] ∧
      (State.resetWith p).sampler = ⟨false, .high, 0#32, 0⟩ ∧ (State.resetWith p).ref = .unwritten ∧
      (State.resetWith p).wave = ⟨false, 0, .unwritten⟩ ∧
      (∀ a, memByte (State.resetWith p).mem a = none) ∧
      (State.resetWith p).fault = none ∧ (State.resetWith p).refused = false ∧
      State.resetZero p = { State.resetWith p with ch := (State.resetWith p).ch.map fun k =>
        { k with readAddr := .word 0#32, writeAddr := .word 0#32, countReload := .word 0#32, countLive := .word 0#32 } }

/-- Rule R237: from the reset state, in either form rule R235 gives it, no step of any agent but `HOST` is enabled. An inference the spec marks as its
own. -/
def Obligations.NothingStartsByItselfAtReset : Prop :=
  ∀ (p : Params) (h : HwStep), h.enabled (State.resetWith p) = false ∧ h.enabled (State.resetZero p) = false

/-- Rules R6, R42: no step changes a parameter. That the state carries them is the model's choice (log 1). -/
def Obligations.NoStepChangesTheParameters : Prop :=
  ∀ s t : State, step s = .next t → t.params = s.params

/-! ## The bus and ordinary memory -/

/-- Rule R55: `MemWrite` sets the four bytes, and no other. -/
def Obligations.MemWriteSetsFourBytes : Prop :=
  ∀ (m : List Host.Cell) (a v : Word), a.toNat % 4 = 0 →
    (∀ k, k < 4 → memByte (memWriteWord m a v) (a.toNat + k) = some (v.extractLsb' (8 * k) 8)) ∧
      (∀ b, (b < a.toNat ∨ a.toNat + 4 ≤ b) → memByte (memWriteWord m a v) b = memByte m b) ∧
      memReadWord (memWriteWord m a v) a = some v

/-- Rule R54: `MemRead` is little-endian and faults on an UNWRITTEN byte, with no side effect; here as any channel
reads a word of `RAM`. -/
def Obligations.MemReadIsLittleEndian : Prop :=
  ∀ (s : State) (c : Nat) (a : Word), s.params.Valid → a.toNat % 4 = 0 → inRam s.params a = true →
    inRam s.params (a + 3#32) = true →
    (∀ b0 b1 b2 b3 : Byte, memByte s.mem a.toNat = some b0 → memByte s.mem (a.toNat + 1) = some b1 →
      memByte s.mem (a.toNat + 2) = some b2 → memByte s.mem (a.toNat + 3) = some b3 →
      busRead32 (.dma c) a s = .next (b0.setWidth 32 ||| b1.setWidth 32 <<< 8 ||| b2.setWidth 32 <<< 16
        ||| b3.setWidth 32 <<< 24, s)) ∧
      (∀ k, k < 4 → memByte s.mem (a.toNat + k) = none → busRead32 (.dma c) a s = .fault .unwritten)

/-- Rules R52, R53, R57: a misaligned access faults before anything else, an access in no region faults, for reads and
writes of every master and for the host's operations. -/
def Obligations.MisalignedAndUnmappedAccessesFault : Prop :=
  ∀ (s : State) (m : Master) (a v : Word),
    (a.toNat % 4 ≠ 0 →
      busRead32 m a s = .fault (.misaligned a) ∧ busWrite32 m a v s = .fault (.misaligned a) ∧
        exec (.rdMem a) s = .fault (.misaligned a) ∧ exec (.wrMem a v) s = .fault (.misaligned a)) ∧
      (a.toNat % 4 = 0 →
        (a.toNat < s.params.dmaBase.toNat ∨ s.params.dmaBase.toNat + 0x1000 ≤ a.toNat) → a ≠ s.params.fifoAddr →
        (inRam s.params a = false ∨ inRam s.params (a + 3#32) = false) →
        busRead32 m a s = .fault (.busError a) ∧ busWrite32 m a v s = .fault (.busError a) ∧
          exec (.rdMem a) s = .fault (.busError a) ∧ exec (.wrMem a v) s = .fault (.busError a))

/-- Rule R57: a channel whose address is misaligned at a transfer faults, the read address first. -/
def Obligations.MisalignedTransferFaults : Prop :=
  ∀ (s : State) (c : Nat) (ra : Word), (s.chan c).busy = true → s.req c = true → (s.chan c).readAddr = .word ra →
    (ra.toNat % 4 ≠ 0 → exec (.xfer c) s = .fault (.misaligned ra)) ∧
      (∀ (v wa : Word) (u : State), busRead32 (.dma c) ra s = .next (v, u) → (s.chan c).writeAddr = .word wa →
        wa.toNat % 4 ≠ 0 → exec (.xfer c) s = .fault (.misaligned wa))

/-- Rule R137: a host write of a word of `RAM` stores it, session or not, and no other byte of memory and nothing else
changes; a channel's write does the same. -/
def Obligations.MemoryWriteStoresTheWord : Prop :=
  ∀ (s : State) (m : Master) (a v : Word), s.params.Valid → a.toNat % 4 = 0 → inRam s.params a = true →
    inRam s.params (a + 3#32) = true →
    exec (.wrMem a v) s = .next { s with mem := memWriteWord s.mem a v } ∧
      busWrite32 m a v s = .next { s with mem := memWriteWord s.mem a v } ∧
      ∀ b, (b < a.toNat ∨ a.toNat + 4 ≤ b) → memByte (memWriteWord s.mem a v) b = memByte s.mem b

/-- Rules R138, R54 (where the value goes is the model's choice, log 12; how the model knows the CaptureBuffer is log 15): a
host read of a written word of `RAM`, outside a session or, in one, outside the CaptureBuffer, returns the word and changes
nothing of the block; a word with an UNWRITTEN byte faults. -/
def Obligations.HostMemoryReadReturnsTheWord : Prop :=
  ∀ (s : State) (a : Word), s.params.Valid → a.toNat % 4 = 0 → inRam s.params a = true →
    inRam s.params (a + 3#32) = true →
    (s.sessionActive = false ∨ ∀ buf n : Word, s.session = some ⟨buf, n⟩ → 4 * n.toNat ≤ (a - buf).toNat) →
    (∀ v, memReadWord s.mem a = some v → exec (.rdMem a) s = .next { s with hostValue := some v }) ∧
      (∀ k, k < 4 → memByte s.mem (a.toNat + k) = none → exec (.rdMem a) s = .fault .unwritten)

/-- Rules R64, R138 (how the model knows the CaptureBuffer is the model's choice, log 15; draws are log 13): while the
Primary or the Restart Channel is busy or pending, a host read of a word of the CaptureBuffer returns a draw that does
not depend on memory. -/
def Obligations.HostReadOfTheBufferInASessionIsADraw : Prop :=
  ∀ (s : State) (a buf n : Word), s.params.Valid → a.toNat % 4 = 0 → inRam s.params a = true →
    inRam s.params (a + 3#32) = true →
    ((s.chan s.params.pri).busy = true ∨ (s.chan s.params.pri).pend = true ∨ (s.chan s.params.rst).busy = true ∨
      (s.chan s.params.rst).pend = true) →
    s.session = some ⟨buf, n⟩ → buf.toNat ≤ a.toNat → a.toNat < buf.toNat + 4 * n.toNat →
    ∃ x : Word, ∀ m : List Host.Cell,
      exec (.rdMem a) { s with mem := m } = .next { s with mem := m, draws := s.draws + 1, hostValue := some x }

/-- Rules R75, R76, R139: the bus address `DMA_BASE + c * CH_STRIDE + r` reaches channel `c`'s register `r`, for every
master; the host's register operations are those accesses. -/
def Obligations.ChannelRegistersAreAtTheirAddresses : Prop :=
  ∀ (s : State) (m : Master) (c : Nat) (r : ChanReg) (a v : Word), s.params.Valid → c < s.params.nch →
    a.toNat = s.params.dmaBase.toNat + c * 0x40 + (chanRegCode r).toNat →
    busWrite32 m a v s = chanWrite m c r v s ∧ busRead32 m a s = chanRead c r s ∧
      exec (writeInstr c v r) s = busWrite32 .host a v s ∧ exec (readInstr c r) s = deliver (busRead32 .host a s)

/-! ## Channel registers -/

/-- Rule R125: the write guard. A write by any master to a register of a busy or pending channel faults; a host write
while its abort is pending faults; the abort does not stop a channel's write. -/
def Obligations.WriteGuardFaultsBeforeAnyStore : Prop :=
  ∀ (s : State) (m : Master) (c : Nat) (r : ChanReg) (v : Word), c < s.params.nch →
    (((s.chan c).busy = true ∨ (s.chan c).pend = true) →
      chanWrite m c r v s = .fault (.configWhileActive c) ∧
        exec (writeInstr c v r) s = .fault (.configWhileActive c)) ∧
      ((s.chan c).busy = false → (s.chan c).pend = false → s.abortBit c = true →
        exec (writeInstr c v r) s = .fault (.configDuringAbort c) ∧
          chanWrite .host c r v s = .fault (.configDuringAbort c)) ∧
      ((s.chan c).busy = false → (s.chan c).pend = false → (m = .host → s.abortBit c = false) →
        chanWrite m c r v s = chanStore m c r v s)

/-- Rules R126, R127, R128: what a write of an address or of the count stores, for any master whose write the guard
lets pass. -/
def Obligations.AddressAndCountWritesStoreAnyWord : Prop :=
  ∀ (s : State) (m : Master) (c : Nat) (v : Word), c < s.params.nch →
    (((s.chan c).busy = true ∨ (s.chan c).pend = true) → ∀ r, chanWrite m c r v s = .fault (.configWhileActive c)) ∧
      ((s.chan c).busy = false → (s.chan c).pend = false → m = .host → s.abortBit c = true →
        ∀ r, chanWrite m c r v s = .fault (.configDuringAbort c)) ∧
      ((s.chan c).busy = false → (s.chan c).pend = false → (m = .host → s.abortBit c = false) →
        chanWrite m c .readAddr v s = .next { s with ch := s.ch.set c { s.chan c with readAddr := .word v } } ∧
          chanWrite m c .writeAddr v s = .next { s with ch := s.ch.set c { s.chan c with writeAddr := .word v } } ∧
          chanWrite m c .transCount v s = .next { s with ch := s.ch.set c { s.chan c with countReload := .word v } })

/-- Rules R126, R127, R128 for the host: the three writes complete on a resting channel without a pending abort, and
change that one register. -/
def Obligations.HostAddressAndCountWritesComplete : Prop :=
  ∀ (s : State) (c : Nat) (v : Word), c < s.params.nch → (s.chan c).busy = false → (s.chan c).pend = false →
    s.abortBit c = false →
    exec (.wrReadAddr c v) s = .next { s with ch := s.ch.set c { s.chan c with readAddr := .word v } } ∧
      exec (.wrWriteAddr c v) s = .next { s with ch := s.ch.set c { s.chan c with writeAddr := .word v } } ∧
      exec (.wrTransCount c v) s = .next { s with ch := s.ch.set c { s.chan c with countReload := .word v } }

/-- Rule R97: the admission checks in their order, on the bits of the word. -/
def Obligations.AdmissionChecksInOrder : Prop :=
  ∀ (p : Params) (w : Word),
    ctrlRefusal p w =
      if w.toNat / 2 ^ 22 ≠ 0 ∨ w.toNat / 2 ^ 6 % 8 ≠ 0 then some .ctrlReserved
      else if w.getLsbD 10 = true ∨ w.getLsbD 9 = true then some .ctrlRing
      else if w.getLsbD 0 = true ∧ w.toNat / 2 ^ 2 % 4 ≠ 2 then some .ctrlDataSize
      else if w.getLsbD 0 = true ∧ w.toNat / 2 ^ 15 % 64 ≠ p.sampleTreq.toNat ∧ w.toNat / 2 ^ 15 % 64 ≠ 63 then
        some .ctrlTreq
      else if w.getLsbD 0 = true ∧ p.nch ≤ w.toNat / 2 ^ 11 % 16 then some .ctrlChain
      else none

/-- Rule R129: a host write of `CTRL` stores an admitted word and triggers nothing, and refuses any other with the
first failing check. -/
def Obligations.HostControlWriteStoresWithoutTrigger : Prop :=
  ∀ (s : State) (c : Nat) (v : Word), c < s.params.nch → (s.chan c).busy = false → (s.chan c).pend = false →
    s.abortBit c = false →
    (ctrlRefusal s.params v = none →
      exec (.wrCtrl c v) s = .next { s with ch := s.ch.set c { s.chan c with ctrl := v } }) ∧
      (∀ r, ctrlRefusal s.params v = some r → exec (.wrCtrl c v) s = .refused r)

/-- Rules R130, R152 (the session field is the model's choice, log 15): a host write of `CTRL_TRIG` stores an admitted
word; with `EN = 1` it starts the channel with the count reloaded, or faults on an UNWRITTEN or zero configuration. -/
def Obligations.HostTriggeringWriteStartsTheChannel : Prop :=
  ∀ (s : State) (c : Nat) (v : Word), c < s.params.nch → s.ch.length = s.params.nch → (s.chan c).busy = false →
    (s.chan c).pend = false → s.abortBit c = false →
    (∀ r, ctrlRefusal s.params v = some r → exec (.wrCtrlTrig c v) s = .refused r) ∧
      (ctrlRefusal s.params v = none →
        (v.getLsbD 0 = false →
          exec (.wrCtrlTrig c v) s = .next { s with ch := s.ch.set c { s.chan c with ctrl := v } }) ∧
        (v.getLsbD 0 = true →
          (∀ ra wa n : Word, (s.chan c).readAddr = .word ra → (s.chan c).writeAddr = .word wa →
            (s.chan c).countReload = .word n →
            (n ≠ 0#32 → exec (.wrCtrlTrig c v) s = .next { s with
              ch := s.ch.set c { s.chan c with ctrl := v, countLive := .word n, busy := true }
              session := if c = s.params.pri then some ⟨wa, n⟩ else s.session }) ∧
            (n = 0#32 → exec (.wrCtrlTrig c v) s = .fault (.zeroCount c))) ∧
          (((s.chan c).readAddr = .unwritten ∨ (s.chan c).writeAddr = .unwritten ∨
            (s.chan c).countReload = .unwritten) → exec (.wrCtrlTrig c v) s = .fault .unwritten)))

/-- Rules R131 to R135: a read of a channel register, by any master and in any state of the channel, returns the
register and has no side effect; an UNWRITTEN one faults; a read of the count returns the transfers left. -/
def Obligations.RegisterReadsReturnTheCurrentValue : Prop :=
  ∀ (s : State) (m : Master) (c : Nat) (a : Word) (r : ChanReg), s.params.Valid → c < s.params.nch →
    a.toNat = s.params.dmaBase.toNat + c * 0x40 + (chanRegCode r).toNat →
    (r = .readAddr → ∀ v, ((s.chan c).readAddr = .word v → busRead32 m a s = .next (v, s)) ∧
      ((s.chan c).readAddr = .unwritten → busRead32 m a s = .fault .unwritten)) ∧
      (r = .writeAddr → ∀ v, ((s.chan c).writeAddr = .word v → busRead32 m a s = .next (v, s)) ∧
        ((s.chan c).writeAddr = .unwritten → busRead32 m a s = .fault .unwritten)) ∧
      (r = .transCount → ∀ v, ((s.chan c).countLive = .word v → busRead32 m a s = .next (v, s)) ∧
        ((s.chan c).countLive = .unwritten → busRead32 m a s = .fault .unwritten)) ∧
      (r = .ctrl ∨ r = .ctrlTrig → busRead32 m a s = .next ((s.chan c).ctrl, s))

/-- Rules R131 to R134 for the host (where the value goes is the model's choice, log 12): the five reads complete, and
change nothing of the block. -/
def Obligations.HostRegisterReadsComplete : Prop :=
  ∀ (s : State) (c : Nat), c < s.params.nch →
    (∀ v, (s.chan c).readAddr = .word v → exec (.rdReadAddr c) s = .next { s with hostValue := some v }) ∧
      (∀ v, (s.chan c).writeAddr = .word v → exec (.rdWriteAddr c) s = .next { s with hostValue := some v }) ∧
      (∀ v, (s.chan c).countLive = .word v → exec (.rdTransCount c) s = .next { s with hostValue := some v }) ∧
      exec (.rdCtrlTrig c) s = .next { s with hostValue := some (s.chan c).ctrl } ∧
      exec (.rdCtrl c) s = .next { s with hostValue := some (s.chan c).ctrl }

/-! ## Control words -/

/-- Rule R95: field extraction inverts the encoder on legal inputs, and the encoder is injective on them. An inference
the spec marks as its own. -/
def Obligations.FieldsOfAnEncodedWordAreTheInputs : Prop :=
  (∀ f : EncInputs, encLegal f = true →
    ctrlField (encPack f) .irqQuiet = f.q ∧ ctrlField (encPack f) .treq = f.treq ∧
      ctrlField (encPack f) .chainTo = f.chain ∧ ctrlField (encPack f) .ringSel = f.rs ∧
      ctrlField (encPack f) .ringSize = f.ring ∧ ctrlField (encPack f) .incrWrite = f.iw ∧
      ctrlField (encPack f) .incrRead = f.ir ∧ ctrlField (encPack f) .dataSize = f.size ∧
      ctrlField (encPack f) .highPriority = f.hp ∧ ctrlField (encPack f) .en = f.en) ∧
    ∀ f g : EncInputs, encLegal f = true → encLegal g = true → encPack f = encPack g → f = g

/-- Rules R91, R92 (where the word goes is the model's choice, log 12): `ENC` of legal inputs completes with the sum
of the fields at their offsets, and with any input out of its range it is refused. -/
def Obligations.EncoderPacksEachFieldAtItsOffset : Prop :=
  ∀ (s : State) (q treq chain rs ring iw ir size hp en : Nat),
    ((q ≤ 1 ∧ treq ≤ 63 ∧ chain ≤ 15 ∧ rs ≤ 1 ∧ ring ≤ 1 ∧ iw ≤ 1 ∧ ir ≤ 1 ∧ size ≤ 3 ∧ hp ≤ 1 ∧ en ≤ 1) →
      exec (.enc q treq chain rs ring iw ir size hp en) s = .next { s with hostValue := some (BitVec.ofNat 32
        (q * 2 ^ 21 + treq * 2 ^ 15 + chain * 2 ^ 11 + rs * 2 ^ 10 + ring * 2 ^ 9 + iw * 2 ^ 5 + ir * 2 ^ 4
          + size * 2 ^ 2 + hp * 2 + en)) }) ∧
      (¬(q ≤ 1 ∧ treq ≤ 63 ∧ chain ≤ 15 ∧ rs ≤ 1 ∧ ring ≤ 1 ∧ iw ≤ 1 ∧ ir ≤ 1 ∧ size ≤ 3 ∧ hp ≤ 1 ∧ en ≤ 1) →
        exec (.enc q treq chain rs ring iw ir size hp en) s = .refused .encoderRange)

/-! ## Aborts -/

/-- Rule R180: a write of the abort register, by any master and in every state, adds the mask's bits of existing
channels and changes nothing else. -/
def Obligations.AbortWriteAddsTheMask : Prop :=
  ∀ (s : State) (m : Master) (a v : Word), s.params.Valid → a.toNat = s.params.dmaBase.toNat + 0x444 →
    ∃ x : Word, exec (.wrAbort v) s = .next { s with abortPending := x } ∧
      busWrite32 m a v s = .next { s with abortPending := x } ∧
      ∀ c, x.getLsbD c = (s.abortPending.getLsbD c || (v.getLsbD c && decide (c < s.params.nch)))

/-- Rule R181 (where the host's value goes is the model's choice, log 12): a read of the abort register returns the
pending mask and has no side effect. -/
def Obligations.AbortReadReturnsTheMask : Prop :=
  ∀ (s : State) (m : Master) (a : Word), s.params.Valid → a.toNat = s.params.dmaBase.toNat + 0x444 →
    busRead32 m a s = .next (s.abortPending, s) ∧
      exec .rdAbort s = .next { s with hostValue := some s.abortPending }

/-- Rules R182, R184, R185, R188: `ABORT_DONE` completes every requested abort at once. A busy channel of the mask
stops with its addresses and live count drawn, no channel of the mask stays pending; control words, reload counts and
interrupt bits stay; every other channel and everything else but the number of draws is as before. Draws, and a
channel that is pending and not busy, are the model's choice (log 13, log 27). -/
def Obligations.AbortDoneStopsTheChannelsOfTheMask : Prop :=
  ∀ s : State, s.ch.length = s.params.nch → s.abortPending ≠ 0#32 →
    ∃ l n, exec .abortDone s = .next { s with ch := l, abortPending := 0#32, draws := n } ∧ l.length = s.ch.length ∧
      ∀ c, c < s.params.nch →
        (s.abortPending.getLsbD c = false → l.getD c Channel.reset = s.chan c) ∧
        (s.abortPending.getLsbD c = true → (s.chan c).busy = false →
          l.getD c Channel.reset = { s.chan c with pend := false }) ∧
        (s.abortPending.getLsbD c = true → (s.chan c).busy = true → ∃ x y z : Word,
          l.getD c Channel.reset = { s.chan c with
            busy := false, pend := false, readAddr := .word x, writeAddr := .word y, countLive := .word z })

/-- Rules R183, R190: when the mask names every busy or pending channel, the block is quiescent after `ABORT_DONE`.
Inferences the spec marks as its own. -/
def Obligations.AbortOfAllActiveChannelsQuiesces : Prop :=
  ∀ s : State, s.ch.length = s.params.nch → s.abortPending ≠ 0#32 →
    (∀ c, c < s.params.nch → ((s.chan c).busy = true ∨ (s.chan c).pend = true) → s.abortPending.getLsbD c = true) →
    ∃ t, exec .abortDone s = .next t ∧ t.quiescent = true

/-- Rule R190: a quiescent block enables no `XFER`, `START` or `ABORT_DONE`, and stays quiescent under every operation
but a host write of `CTRL_TRIG` with `EN = 1` or of `ABORT`. An inference the spec marks as its own. -/
def Obligations.QuiescentUntilTheHostTriggersOrAborts : Prop :=
  ∀ (s : State), s.ch.length = s.params.nch → s.quiescent = true →
    (∀ c, s.xferEnabled c = false ∧ s.startEnabled c = false) ∧ s.abortDoneEnabled = false ∧
      ∀ (i : Instr) (t : State), i.wellFormed s.params = true → exec i s = .next t →
        (∀ c v, i = .wrCtrlTrig c v → v.getLsbD 0 = false) → (∀ v, i ≠ .wrAbort v) → t.quiescent = true

/-! ## The sampler, the FIFO and the waveform generator -/

/-- Rules R106, R107: the host actions on the sampler. -/
def Obligations.SamplerStartsAndStops : Prop :=
  ∀ s : State,
    (s.sampler.running = false →
      exec .samplerStart s = .next { s with
        sampler := { running := true, phase := .high, isr := 0#32, isrCount := 0 } }) ∧
      (s.sampler.running = true → exec .samplerStart s = .next s) ∧
      exec .samplerStop s = .next { s with sampler := { s.sampler with running := false } }

/-- Rules R108, R111: `SAMPLE_HIGH` and `SAMPLE_LOW` drive the reference output. -/
def Obligations.SampleHighAndLowDriveTheReference : Prop :=
  ∀ s : State, s.sampler.running = true →
    (s.sampler.phase = .high →
      exec .sampleHigh s = .next { s with ref := .bit true, sampler := { s.sampler with phase := .sample } }) ∧
      (s.sampler.phase = .low →
        exec .sampleLow s = .next { s with ref := .bit false, sampler := { s.sampler with phase := .high } })

/-- Rule R109: `SAMPLE_IN` shifts ten bits in; the sample that reaches the threshold pushes the word at the tail, if
there is room. -/
def Obligations.SampleInShiftsAndPushes : Prop :=
  ∀ (s : State) (x : Sample) (isr : Word), s.sampler.running = true → s.sampler.phase = .sample →
    (s.params.inShiftDir = .left → isr = (s.sampler.isr <<< 10) ||| x.setWidth 32) →
    (s.params.inShiftDir = .right → isr = (s.sampler.isr >>> 10) ||| (x.setWidth 32 <<< 22)) →
    (s.sampler.isrCount + 10 < 30 →
      exec (.sampleIn x) s = .next { s with
        sampler := { s.sampler with phase := .low, isr := isr, isrCount := s.sampler.isrCount + 10 } }) ∧
      (30 ≤ s.sampler.isrCount + 10 → s.fifo.length < s.params.fifoDepth →
        exec (.sampleIn x) s = .next { s with
          fifo := s.fifo ++ [isr], sampler := { s.sampler with phase := .low, isr := 0#32, isrCount := 0 } })

/-- Rules R112, R113: the packing of three samples after a push or a start. Inferences the spec marks as its own. -/
def Obligations.ThreeSamplesPackIntoOneWord : Prop :=
  ∀ x y z : Sample,
    shiftIn .left (shiftIn .left (shiftIn .left 0#32 x) y) z
        = (x.setWidth 32 <<< 20 ||| y.setWidth 32 <<< 10 ||| z.setWidth 32) ∧
      shiftIn .right (shiftIn .right (shiftIn .right 0#32 x) y) z
        = (z.setWidth 32 <<< 22 ||| y.setWidth 32 <<< 12 ||| x.setWidth 32 <<< 2)

/-- Rules R110, R105, R121, R153, R158, R182 (holding as a step that changes nothing is the model's choice, log 9): a
hardware step that is not enabled leaves the state as it is. -/
def Obligations.DisabledStepsHold : Prop :=
  ∀ s : State,
    (∀ c, ((s.chan c).busy = false ∨
        (ctrlField (s.chan c).ctrl .treq = s.params.sampleTreq.toNat ∧ s.fifo = [])) → exec (.xfer c) s = .next s) ∧
      (∀ c, ((s.chan c).pend = false ∨ (s.chan c).busy = true) → exec (.start c) s = .next s) ∧
      (s.abortPending = 0#32 → exec .abortDone s = .next s) ∧
      ((s.sampler.running = false ∨ s.sampler.phase ≠ .high) → exec .sampleHigh s = .next s) ∧
      (∀ x, (s.sampler.running = false ∨ s.sampler.phase ≠ .sample ∨
        (20 ≤ s.sampler.isrCount ∧ s.params.fifoDepth ≤ s.fifo.length)) → exec (.sampleIn x) s = .next s) ∧
      ((s.sampler.running = false ∨ s.sampler.phase ≠ .low) → exec .sampleLow s = .next s) ∧
      (s.wave.running = false → exec .waveStep s = .next s)

/-- Rule R123: the sampler's steps change only `sampler`, `ref` and the tail of `fifo`, and what they do to those
depends on nothing else. -/
def Obligations.SamplerTouchesOnlyItsOwnState : Prop :=
  ∀ (i : Instr) (s u t : State), (i = .sampleHigh ∨ i = .sampleLow ∨ ∃ x, i = .sampleIn x) →
    u.sampler = s.sampler → u.ref = s.ref → u.fifo = s.fifo → u.params = s.params → exec i s = .next t →
    (∃ l, t = { s with sampler := t.sampler, ref := t.ref, fifo := s.fifo ++ l }) ∧
      exec i u = .next { u with sampler := t.sampler, ref := t.ref, fifo := t.fifo }

/-- Rule R116 (where the host's value goes is the model's choice, log 12): a read of the FIFO port, by any master,
removes and returns the head, and faults on an empty FIFO. -/
def Obligations.FifoReadPopsTheHead : Prop :=
  ∀ (s : State) (m : Master), s.params.Valid →
    (s.fifo = [] → busRead32 m s.params.fifoAddr s = .fault .fifoUnderflow ∧ exec .rdFifo s = .fault .fifoUnderflow) ∧
      (∀ v rest, s.fifo = v :: rest →
        busRead32 m s.params.fifoAddr s = .next (v, { s with fifo := rest }) ∧
          exec .rdFifo s = .next { s with fifo := rest, hostValue := some v })

/-- Rule R136: a write to the FIFO port is refused, by the host and by any other master. -/
def Obligations.FifoPortWriteIsRefused : Prop :=
  ∀ (s : State) (m : Master) (v : Word), s.params.Valid →
    exec (.wrFifo v) s = .refused .fifoWrite ∧ busWrite32 m s.params.fifoAddr v s = .refused .fifoWrite

/-- Rules R119, R120, R121: the waveform generator starts, stops and cycles through the pattern. -/
def Obligations.WaveformCyclesThroughThePattern : Prop :=
  ∀ s : State,
    (s.wave.running = false → exec .waveStart s = .next { s with wave := { s.wave with running := true, idx := 0 } }) ∧
      (s.wave.running = true → exec .waveStart s = .next s) ∧
      exec .waveStop s = .next { s with wave := { s.wave with running := false } } ∧
      (∀ h : s.wave.idx < s.params.wavePattern.length, s.wave.running = true →
        exec .waveStep s = .next { s with wave := { s.wave with
          pin := .bit s.params.wavePattern[s.wave.idx]
          idx := (s.wave.idx + 1) % s.params.wavePattern.length } })

/-- Rule R122: the waveform generator's operations read and write only `wave`. -/
def Obligations.WaveformTouchesOnlyItsOwnState : Prop :=
  ∀ (i : Instr) (s u t : State), (i = .waveStart ∨ i = .waveStop ∨ i = .waveStep) → u.wave = s.wave →
    u.params = s.params → exec i s = .next t → t = { s with wave := t.wave } ∧ exec i u = .next { u with wave := t.wave }

/-! ## The channel engine -/

/-- Rule R151: the transfer request of the two sources. -/
def Obligations.RequestFollowsTheFifoOrIsUnpaced : Prop :=
  ∀ (s : State) (c : Nat), s.params.Valid →
    (ctrlField (s.chan c).ctrl .treq = s.params.sampleTreq.toNat → (s.req c = true ↔ 0 < s.fifo.length)) ∧
      (ctrlField (s.chan c).ctrl .treq = 63 → s.req c = true)

/-- Rules R158, R159, R152 (the session field is the model's choice, log 15): `START` takes the pending trigger; a
channel with `EN = 1` starts with its count reloaded and its addresses as they stand, one with `EN = 0` drops the
trigger. -/
def Obligations.StartTriggersOrDrops : Prop :=
  ∀ (s : State) (c : Nat), s.ch.length = s.params.nch → c < s.params.nch → (s.chan c).pend = true →
    (s.chan c).busy = false →
    ((s.chan c).ctrl.getLsbD 0 = false →
      exec (.start c) s = .next { s with ch := s.ch.set c { s.chan c with pend := false } }) ∧
      ((s.chan c).ctrl.getLsbD 0 = true →
        (∀ ra wa n : Word, (s.chan c).readAddr = .word ra → (s.chan c).writeAddr = .word wa →
          (s.chan c).countReload = .word n →
          (n ≠ 0#32 → exec (.start c) s = .next { s with
            ch := s.ch.set c { s.chan c with pend := false, countLive := .word n, busy := true }
            session := if c = s.params.pri ∧ s.session = none then some ⟨wa, n⟩ else s.session }) ∧
          (n = 0#32 → exec (.start c) s = .fault (.zeroCount c))) ∧
        (((s.chan c).readAddr = .unwritten ∨ (s.chan c).writeAddr = .unwritten ∨
          (s.chan c).countReload = .unwritten) → exec (.start c) s = .fault .unwritten))

/-- Rule R154: an enabled `XFER` is the read, then the write, then the increments and the count, and on the last word
the completion; a failing read or write ends it. A transfer never changes its own channel's record before its end. -/
def Obligations.TransferIsReadThenWriteThenCount : Prop :=
  ∀ (s : State) (c : Nat) (ra wa n : Word), s.ch.length = s.params.nch → c < s.params.nch → (s.chan c).busy = true →
    s.req c = true → (s.chan c).readAddr = .word ra → (s.chan c).writeAddr = .word wa →
    (s.chan c).countLive = .word n →
    (∀ r, busRead32 (.dma c) ra s = .fault r → exec (.xfer c) s = .fault r) ∧
      (∀ r, busRead32 (.dma c) ra s = .refused r → exec (.xfer c) s = .refused r) ∧
      ∀ (v : Word) (u : State), busRead32 (.dma c) ra s = .next (v, u) →
        (∀ r, busWrite32 (.dma c) wa v u = .fault r → exec (.xfer c) s = .fault r) ∧
          (∀ r, busWrite32 (.dma c) wa v u = .refused r → exec (.xfer c) s = .refused r) ∧
          ∀ x : State, busWrite32 (.dma c) wa v u = .next x →
            (n ≠ 0#32 → n ≠ 1#32 → exec (.xfer c) s = .next { x with ch := x.ch.set c { s.chan c with
              readAddr := .word (if (s.chan c).ctrl.getLsbD 4 = true then ra + 4#32 else ra)
              writeAddr := .word (if (s.chan c).ctrl.getLsbD 5 = true then wa + 4#32 else wa)
              countLive := .word (n - 1#32) } }) ∧
            (n = 1#32 → exec (.xfer c) s = complete c { x with ch := x.ch.set c { s.chan c with
              readAddr := .word (if (s.chan c).ctrl.getLsbD 4 = true then ra + 4#32 else ra)
              writeAddr := .word (if (s.chan c).ctrl.getLsbD 5 = true then wa + 4#32 else wa)
              countLive := .word 0#32 } })

/-- Rules R154, R116, R55 on the Primary Channel's kind of transfer, one word from the FIFO to `RAM` before the last:
it completes, and no other byte of memory, no other channel and nothing else changes. -/
def Obligations.FifoWordIsMovedToMemory : Prop :=
  ∀ (s : State) (c : Nat) (v wa n : Word) (rest : List Word), s.params.Valid → s.ch.length = s.params.nch →
    c < s.params.nch → (s.chan c).busy = true → ctrlField (s.chan c).ctrl .treq = s.params.sampleTreq.toNat →
    (s.chan c).readAddr = .word s.params.fifoAddr → s.fifo = v :: rest → (s.chan c).writeAddr = .word wa →
    wa.toNat % 4 = 0 → inRam s.params wa = true → inRam s.params (wa + 3#32) = true →
    (s.chan c).countLive = .word n → n ≠ 0#32 → n ≠ 1#32 →
    exec (.xfer c) s = .next { s with
        fifo := rest
        mem := memWriteWord s.mem wa v
        ch := s.ch.set c { s.chan c with
          readAddr := .word (if (s.chan c).ctrl.getLsbD 4 = true then s.params.fifoAddr + 4#32 else s.params.fifoAddr)
          writeAddr := .word (if (s.chan c).ctrl.getLsbD 5 = true then wa + 4#32 else wa)
          countLive := .word (n - 1#32) } } ∧
      ∀ b, (b < wa.toNat ∨ wa.toNat + 4 ≤ b) → memByte (memWriteWord s.mem wa v) b = memByte s.mem b

/-- Rules R155, R156, R157, R163: a completing channel stops being busy, raises its interrupt unless quiet, and makes
its chain target pending; a target that is the channel itself gets no trigger, a busy or pending target is a
collision. -/
def Obligations.CompletionChainsAndInterrupts : Prop :=
  ∀ (s : State) (c t : Nat), s.ch.length = s.params.nch → c < s.params.nch → t < s.params.nch →
    ctrlField (s.chan c).ctrl .chainTo = t →
    (t = c → complete c s = .next { s with ch := s.ch.set c { s.chan c with
      busy := false, irq := (s.chan c).irq || !(s.chan c).ctrl.getLsbD 21 } }) ∧
      (t ≠ c → ((s.chan t).busy = true ∨ (s.chan t).pend = true) → complete c s = .fault (.chainCollision t)) ∧
      (t ≠ c → (s.chan t).busy = false → (s.chan t).pend = false →
        complete c s = .next { s with
          ch := (s.ch.set c { s.chan c with
            busy := false, irq := (s.chan c).irq || !(s.chan c).ctrl.getLsbD 21 }).set t { s.chan t with pend := true } })

/-- Rule R164: the Restart Channel's one transfer, as `arm` configures it, writes the descriptor's word into the
Primary Channel's destination register and chain-triggers the Primary Channel; the abort of the host does not stop it.
-/
def Obligations.RestartTransferRewritesThePrimaryDestination : Prop :=
  ∀ (s : State) (desc v : Word), s.params.Valid → s.ch.length = s.params.nch →
    (s.chan s.params.rst).busy = true → (s.chan s.params.rst).pend = false →
    (s.chan s.params.rst).ctrl = rstCtrl s.params → (s.chan s.params.rst).readAddr = .word desc →
    (s.chan s.params.rst).writeAddr = .word (chanAddr s.params s.params.pri .writeAddr) →
    (s.chan s.params.rst).countLive = .word 1#32 → (s.chan s.params.pri).busy = false →
    (s.chan s.params.pri).pend = false → desc.toNat % 4 = 0 → inRam s.params desc = true →
    inRam s.params (desc + 3#32) = true → memReadWord s.mem desc = some v →
    exec (.xfer s.params.rst) s = .next { s with
      ch := (s.ch.set s.params.pri { s.chan s.params.pri with writeAddr := .word v, pend := true }).set s.params.rst
        { s.chan s.params.rst with countLive := .word 0#32, busy := false } }

/-- Rule R141: a channel whose destination is one of its own registers faults at its transfer. An inference the spec
marks as its own. -/
def Obligations.WritingItsOwnRegisterAlwaysFaults : Prop :=
  ∀ (s : State) (c : Nat) (r : ChanReg) (ra wa v : Word) (u : State), s.params.Valid → s.ch.length = s.params.nch →
    c < s.params.nch → (s.chan c).busy = true → s.req c = true → (s.chan c).readAddr = .word ra →
    (s.chan c).writeAddr = .word wa → wa.toNat = s.params.dmaBase.toNat + c * 0x40 + (chanRegCode r).toNat →
    busRead32 (.dma c) ra s = .next (v, u) → exec (.xfer c) s = .fault (.configWhileActive c)

/-! ## Rules of the whole machine -/

/-- Rule R223: once set, the completion interrupt of a channel stays set. -/
def Obligations.CompletionInterruptIsSticky : Prop :=
  ∀ (s t : State) (c : Nat), step s = .next t → (s.chan c).irq = true → (t.chan c).irq = true

/-- Rules R26, R155, R188: no step of a hardware agent changes a control word, unless it is a transfer whose destination is the
`CTRL` or `CTRL_TRIG` register of a channel. -/
def Obligations.HardwareStepsKeepControlWords : Prop :=
  ∀ (i : Instr) (s t : State) (d : Nat), s.ch.length = s.params.nch → hwStepOf i ≠ none →
    (∀ c wa e, i = .xfer c → (s.chan c).writeAddr = .word wa → e < s.params.nch →
      wa.toNat ≠ s.params.dmaBase.toNat + e * 0x40 + 0x0C ∧ wa.toNat ≠ s.params.dmaBase.toNat + e * 0x40 + 0x10) →
    exec i s = .next t → (t.chan d).ctrl = (s.chan d).ctrl

/-- Rule R44: the CaptureBuffer of a session stays what it is. Of all operations, only the host's triggering write of the
Primary Channel's control word, which begins a session, changes a noted buffer (the note is the model's choice, log 15). -/
def Obligations.OnlyTheHostsTriggerMovesANotedBuffer : Prop :=
  ∀ (i : Instr) (s t : State) (x : Session), i.wellFormed s.params = true → s.session = some x →
    (∀ v, i ≠ .wrCtrlTrig s.params.pri v) → exec i s = .next t → t.session = some x

/-- The invariant of the block (rules R26, R30, R32, R33, R35, R36, R97, R109, R112 to R114, R157, R213) holds at reset, with
the default parameters (log 2) and with any others, in either form rule R235 gives (log 6); so does the invariant of the
session note (log 15). -/
def Obligations.BlockInvariantHoldsAtReset : Prop :=
  BlockInv State.reset ∧ (∀ p : Params, p.Valid → BlockInv (State.resetWith p) ∧ BlockInv (State.resetZero p)) ∧
    ∀ p : Params, SessionInv (State.resetWith p) ∧ SessionInv (State.resetZero p)

/-- Every step keeps the invariant of the block, from every state that has it. The invariants on pending channels
(rule R157) and on packed words (rules R112, R113, R213) are inferences the spec marks as its own; the form of memory
and the parameters in the state are the model's choice (log 7, log 1). -/
def Obligations.EveryStepKeepsTheBlockInvariant : Prop :=
  ∀ s t : State, BlockInv s → step s = .next t → BlockInv t

/-- Rules R44, R64, R208: after every step only an active session is noted, and while the Primary Channel is busy its
CaptureBuffer is known, so that the host's reads of it are draws (the note is the model's choice, log 15). -/
def Obligations.EveryStepKeepsTheSessionInvariant : Prop :=
  ∀ s t : State, SessionInv s → step s = .next t → SessionInv t

/-- Rules R198, R199: every step a hardware agent can take from a `LoopGood` state leads to a `LoopGood` state without
a fault, and the phase changes only as rule R198 says. Inferences the spec marks as its own; what `LoopGood` asks beside the
rule's list is the model's choice (log 33). -/
def Obligations.HardwareStepsKeepTheLoop : Prop :=
  ∀ (s : State) (buf n desc : Word) (ph : LoopPhase) (i : Instr), LoopGoodIn ph s buf n desc → hwStepOf i ≠ none →
    i.wellFormed s.params = true →
    ∃ t, exec i s = .next t ∧
      LoopGoodIn (ph.after s.params
        (decide ((s.chan s.params.pri).countLive = .word 1#32) && !s.fifo.isEmpty) i) t buf n desc

/-- Rule R201, the part about addresses: in a `LoopGood` state no step of a hardware agent changes a byte of memory
outside the `4*N` bytes from `BUF`. An inference the spec marks as its own; what `LoopGood` asks beside the list of rule R198
is the model's choice (log 33). -/
def Obligations.HardwareStepsWriteOnlyTheBuffer : Prop :=
  ∀ (s t : State) (buf n desc : Word) (ph : LoopPhase) (i : Instr) (b : Nat), LoopGoodIn ph s buf n desc →
    hwStepOf i ≠ none → i.wellFormed s.params = true → exec i s = .next t →
    (b < buf.toNat ∨ buf.toNat + 4 * n.toNat ≤ b) → memByte t.mem b = memByte s.mem b

/-- Rule R211 (the host's program in the state is log 20, the session field log 15, what `LoopGood` asks beside rule R198
log 33): from a quiescent block that meets the session preconditions, the host's ten writes after its stop complete, and
leave `LoopGood` in phase (a) with `N` words left. An inference the spec marks as its own. -/
def Obligations.StartSessionReachesTheLoop : Prop :=
  ∀ (s : State) (buf n desc : Word), s.params.Valid → s.ch.length = s.params.nch → s.quiescent = true →
    s.fault = none → s.refusal = none → BufferInRam s.params buf n → CountPositive n →
    DescriptorInRam s.params buf n desc → OthersOut s → s.host.prog = sessionConfig s.params buf n desc →
    ∃ t, hostTurns 10 s = .next t ∧ t.host.prog = [] ∧ LoopGoodIn .capturing t buf n desc ∧
      (t.chan t.params.pri).countLive = .word n ∧ t.session = some ⟨buf, n⟩
end

