-- ==== Sys2Proof/Laws/Memory.lean ====
section
/-! SUPPORT. Ordinary memory: read after write, and the canonical form. -/

namespace Sys2Proof.Machine

/-- A byte just written reads back. -/
@[simp] theorem memByte_memSetByte_self (m : List Host.Cell) (a : Nat) (b : Byte) :
    memByte (memSetByte m a b) a = some b := by
  induction m with
  | nil => simp [memSetByte, memByte]
  | cons x t ih =>
    unfold memSetByte
    split
    · simp [memByte]
    · split
      · simp [memByte]
      · rename_i h; simp [memByte, h, ih]

/-- A byte write leaves every other byte alone. -/
theorem memByte_memSetByte_ne (m : List Host.Cell) {a c : Nat} (b : Byte) (h : c ≠ a) :
    memByte (memSetByte m a b) c = memByte m c := by
  induction m with
  | nil => simp [memSetByte, memByte, h.symm]
  | cons x t ih =>
    unfold memSetByte
    split
    · simp [memByte, h.symm]
    · split
      · rename_i h2; subst h2; simp [memByte, h.symm]
      · simp only [memByte]; split
        · rfl
        · exact ih

/-- Every address listed after a byte write was listed before or is the one written. -/
theorem mem_memSetByte {m : List Host.Cell} {a : Nat} {b : Byte} {x : Host.Cell}
    (h : x ∈ memSetByte m a b) : x ∈ m ∨ x = (a, b) := by
  induction m with
  | nil => simpa [memSetByte] using h
  | cons y t ih =>
    unfold memSetByte at h
    split at h
    · simp only [List.mem_cons] at h ⊢; tauto
    · split at h
      · simp only [List.mem_cons] at h ⊢; tauto
      · simp only [List.mem_cons] at h ⊢
        rcases h with h | h
        · exact .inl (.inl h)
        · rcases ih h with h | h
          · exact .inl (.inr h)
          · exact .inr h

/-- A byte write keeps the canonical form. -/
theorem memSetByte_wf {m : List Host.Cell} (a : Nat) (b : Byte) (h : memWf m) : memWf (memSetByte m a b) := by
  induction m with
  | nil => simp [memSetByte, memWf]
  | cons x t ih =>
    obtain ⟨hx, ht⟩ := List.pairwise_cons.mp h
    unfold memSetByte
    split
    · rename_i hlt
      refine List.pairwise_cons.mpr ⟨fun y hy => ?_, h⟩
      rcases List.mem_cons.mp hy with rfl | hy
      · exact hlt
      · exact Nat.lt_trans hlt (hx y hy)
    · split
      · rename_i heq
        exact List.pairwise_cons.mpr ⟨fun y hy => by simpa [heq] using hx y hy, ht⟩
      · rename_i hnlt hne
        refine List.pairwise_cons.mpr ⟨fun y hy => ?_, ih ht⟩
        rcases mem_memSetByte hy with hy | rfl
        · exact hx y hy
        · exact Nat.lt_of_le_of_ne (Nat.le_of_not_lt hnlt) hne

/-- `MemWrite` keeps the canonical form. -/
theorem memWriteWord_wf {m : List Host.Cell} (a v : Word) (h : memWf m) : memWf (memWriteWord m a v) :=
  memSetByte_wf _ _ (memSetByte_wf _ _ (memSetByte_wf _ _ (memSetByte_wf _ _ h)))

/-- `MemWrite` lists only addresses of the word written besides those listed before. -/
theorem mem_memWriteWord {m : List Host.Cell} {a v : Word} {x : Host.Cell} (h : x ∈ memWriteWord m a v) :
    x ∈ m ∨ (a.toNat ≤ x.1 ∧ x.1 < a.toNat + 4) := by
  unfold memWriteWord at h
  rcases mem_memSetByte h with h | rfl
  · rcases mem_memSetByte h with h | rfl
    · rcases mem_memSetByte h with h | rfl
      · rcases mem_memSetByte h with h | rfl
        · exact .inl h
        · exact .inr ⟨by simp, by simp⟩
      · exact .inr ⟨by simp, by simp⟩
    · exact .inr ⟨by simp, by simp⟩
  · exact .inr ⟨by simp, by simp⟩

/-- `MemWrite` leaves every byte outside the word alone (rule R55). -/
theorem memByte_memWriteWord_outside (m : List Host.Cell) (a v : Word) {c : Nat}
    (h : c < a.toNat ∨ a.toNat + 4 ≤ c) : memByte (memWriteWord m a v) c = memByte m c := by
  unfold memWriteWord
  rw [memByte_memSetByte_ne _ _ (by omega), memByte_memSetByte_ne _ _ (by omega),
    memByte_memSetByte_ne _ _ (by omega), memByte_memSetByte_ne _ _ (by omega)]

/-- A word elsewhere reads as before a `MemWrite`. -/
theorem memReadWord_memWriteWord_outside (m : List Host.Cell) (a v : Word) {c : Word}
    (h : c.toNat + 4 ≤ a.toNat ∨ a.toNat + 4 ≤ c.toNat) :
    memReadWord (memWriteWord m a v) c = memReadWord m c := by
  unfold memReadWord
  rw [memByte_memWriteWord_outside _ _ _ (by omega), memByte_memWriteWord_outside _ _ _ (by omega),
    memByte_memWriteWord_outside _ _ _ (by omega), memByte_memWriteWord_outside _ _ _ (by omega)]

/-- The four bytes of a word are the word. -/
theorem wordOf_byteOf (v : Word) : wordOf (byteOf v 0) (byteOf v 1) (byteOf v 2) (byteOf v 3) = v := by
  apply BitVec.eq_of_getLsbD_eq
  intro i hi
  simp only [wordOf, byteOf, BitVec.getLsbD_append, BitVec.getLsbD_extractLsb']
  split
  · simp_all
  · split
    · rename_i h1 h2
      have : 8 * 1 + (i - 8) = i := by omega
      simp_all
    · split
      · rename_i h1 h2 h3
        have : 8 * 2 + (i - 8 - 8) = i := by omega
        simp_all
      · rename_i h1 h2 h3
        have : 8 * 3 + (i - 8 - 8 - 8) = i := by omega
        simp_all
        omega

end Sys2Proof.Machine
end

