-- ==== Sys2Proof/Laws/State.lean ====
section
/-! SUPPORT. One lemma per field per update of the state, and what `ch[c]` reads as after an update. -/

namespace Sys2Proof.Machine

section
variable (s : State) (x : List Channel)
@[simp] theorem setCh_ch : (s.setCh x).ch = x := rfl
@[simp] theorem setCh_abortPending : (s.setCh x).abortPending = s.abortPending := rfl
@[simp] theorem setCh_fifo : (s.setCh x).fifo = s.fifo := rfl
@[simp] theorem setCh_sampler : (s.setCh x).sampler = s.sampler := rfl
@[simp] theorem setCh_ref : (s.setCh x).ref = s.ref := rfl
@[simp] theorem setCh_wave : (s.setCh x).wave = s.wave := rfl
@[simp] theorem setCh_mem : (s.setCh x).mem = s.mem := rfl
@[simp] theorem setCh_fault : (s.setCh x).fault = s.fault := rfl
@[simp] theorem setCh_refusal : (s.setCh x).refusal = s.refusal := rfl
@[simp] theorem setCh_params : (s.setCh x).params = s.params := rfl
@[simp] theorem setCh_agenda : (s.setCh x).agenda = s.agenda := rfl
@[simp] theorem setCh_host : (s.setCh x).host = s.host := rfl
@[simp] theorem setCh_hostValue : (s.setCh x).hostValue = s.hostValue := rfl
@[simp] theorem setCh_session : (s.setCh x).session = s.session := rfl
@[simp] theorem setCh_draws : (s.setCh x).draws = s.draws := rfl
@[simp] theorem setCh_abortBit (c : Nat) : (s.setCh x).abortBit c = s.abortBit c := rfl
end

section
variable (s : State) (x : Word)
@[simp] theorem setAbortPending_ch : (s.setAbortPending x).ch = s.ch := rfl
@[simp] theorem setAbortPending_abortPending : (s.setAbortPending x).abortPending = x := rfl
@[simp] theorem setAbortPending_fifo : (s.setAbortPending x).fifo = s.fifo := rfl
@[simp] theorem setAbortPending_sampler : (s.setAbortPending x).sampler = s.sampler := rfl
@[simp] theorem setAbortPending_ref : (s.setAbortPending x).ref = s.ref := rfl
@[simp] theorem setAbortPending_wave : (s.setAbortPending x).wave = s.wave := rfl
@[simp] theorem setAbortPending_mem : (s.setAbortPending x).mem = s.mem := rfl
@[simp] theorem setAbortPending_fault : (s.setAbortPending x).fault = s.fault := rfl
@[simp] theorem setAbortPending_refusal : (s.setAbortPending x).refusal = s.refusal := rfl
@[simp] theorem setAbortPending_params : (s.setAbortPending x).params = s.params := rfl
@[simp] theorem setAbortPending_agenda : (s.setAbortPending x).agenda = s.agenda := rfl
@[simp] theorem setAbortPending_host : (s.setAbortPending x).host = s.host := rfl
@[simp] theorem setAbortPending_hostValue : (s.setAbortPending x).hostValue = s.hostValue := rfl
@[simp] theorem setAbortPending_session : (s.setAbortPending x).session = s.session := rfl
@[simp] theorem setAbortPending_draws : (s.setAbortPending x).draws = s.draws := rfl
@[simp] theorem setAbortPending_chan (c : Nat) : (s.setAbortPending x).chan c = s.chan c := rfl
end

section
variable (s : State) (x : List Word)
@[simp] theorem setFifo_ch : (s.setFifo x).ch = s.ch := rfl
@[simp] theorem setFifo_abortPending : (s.setFifo x).abortPending = s.abortPending := rfl
@[simp] theorem setFifo_fifo : (s.setFifo x).fifo = x := rfl
@[simp] theorem setFifo_sampler : (s.setFifo x).sampler = s.sampler := rfl
@[simp] theorem setFifo_ref : (s.setFifo x).ref = s.ref := rfl
@[simp] theorem setFifo_wave : (s.setFifo x).wave = s.wave := rfl
@[simp] theorem setFifo_mem : (s.setFifo x).mem = s.mem := rfl
@[simp] theorem setFifo_fault : (s.setFifo x).fault = s.fault := rfl
@[simp] theorem setFifo_refusal : (s.setFifo x).refusal = s.refusal := rfl
@[simp] theorem setFifo_params : (s.setFifo x).params = s.params := rfl
@[simp] theorem setFifo_agenda : (s.setFifo x).agenda = s.agenda := rfl
@[simp] theorem setFifo_host : (s.setFifo x).host = s.host := rfl
@[simp] theorem setFifo_hostValue : (s.setFifo x).hostValue = s.hostValue := rfl
@[simp] theorem setFifo_session : (s.setFifo x).session = s.session := rfl
@[simp] theorem setFifo_draws : (s.setFifo x).draws = s.draws := rfl
@[simp] theorem setFifo_chan (c : Nat) : (s.setFifo x).chan c = s.chan c := rfl
@[simp] theorem setFifo_abortBit (c : Nat) : (s.setFifo x).abortBit c = s.abortBit c := rfl
end

section
variable (s : State) (x : Sampler)
@[simp] theorem setSampler_ch : (s.setSampler x).ch = s.ch := rfl
@[simp] theorem setSampler_abortPending : (s.setSampler x).abortPending = s.abortPending := rfl
@[simp] theorem setSampler_fifo : (s.setSampler x).fifo = s.fifo := rfl
@[simp] theorem setSampler_sampler : (s.setSampler x).sampler = x := rfl
@[simp] theorem setSampler_ref : (s.setSampler x).ref = s.ref := rfl
@[simp] theorem setSampler_wave : (s.setSampler x).wave = s.wave := rfl
@[simp] theorem setSampler_mem : (s.setSampler x).mem = s.mem := rfl
@[simp] theorem setSampler_fault : (s.setSampler x).fault = s.fault := rfl
@[simp] theorem setSampler_refusal : (s.setSampler x).refusal = s.refusal := rfl
@[simp] theorem setSampler_params : (s.setSampler x).params = s.params := rfl
@[simp] theorem setSampler_agenda : (s.setSampler x).agenda = s.agenda := rfl
@[simp] theorem setSampler_host : (s.setSampler x).host = s.host := rfl
@[simp] theorem setSampler_hostValue : (s.setSampler x).hostValue = s.hostValue := rfl
@[simp] theorem setSampler_session : (s.setSampler x).session = s.session := rfl
@[simp] theorem setSampler_draws : (s.setSampler x).draws = s.draws := rfl
@[simp] theorem setSampler_chan (c : Nat) : (s.setSampler x).chan c = s.chan c := rfl
@[simp] theorem setSampler_abortBit (c : Nat) : (s.setSampler x).abortBit c = s.abortBit c := rfl
end

section
variable (s : State) (x : PinVal)
@[simp] theorem setRef_ch : (s.setRef x).ch = s.ch := rfl
@[simp] theorem setRef_abortPending : (s.setRef x).abortPending = s.abortPending := rfl
@[simp] theorem setRef_fifo : (s.setRef x).fifo = s.fifo := rfl
@[simp] theorem setRef_sampler : (s.setRef x).sampler = s.sampler := rfl
@[simp] theorem setRef_ref : (s.setRef x).ref = x := rfl
@[simp] theorem setRef_wave : (s.setRef x).wave = s.wave := rfl
@[simp] theorem setRef_mem : (s.setRef x).mem = s.mem := rfl
@[simp] theorem setRef_fault : (s.setRef x).fault = s.fault := rfl
@[simp] theorem setRef_refusal : (s.setRef x).refusal = s.refusal := rfl
@[simp] theorem setRef_params : (s.setRef x).params = s.params := rfl
@[simp] theorem setRef_agenda : (s.setRef x).agenda = s.agenda := rfl
@[simp] theorem setRef_host : (s.setRef x).host = s.host := rfl
@[simp] theorem setRef_hostValue : (s.setRef x).hostValue = s.hostValue := rfl
@[simp] theorem setRef_session : (s.setRef x).session = s.session := rfl
@[simp] theorem setRef_draws : (s.setRef x).draws = s.draws := rfl
@[simp] theorem setRef_chan (c : Nat) : (s.setRef x).chan c = s.chan c := rfl
@[simp] theorem setRef_abortBit (c : Nat) : (s.setRef x).abortBit c = s.abortBit c := rfl
end

section
variable (s : State) (x : Wave)
@[simp] theorem setWave_ch : (s.setWave x).ch = s.ch := rfl
@[simp] theorem setWave_abortPending : (s.setWave x).abortPending = s.abortPending := rfl
@[simp] theorem setWave_fifo : (s.setWave x).fifo = s.fifo := rfl
@[simp] theorem setWave_sampler : (s.setWave x).sampler = s.sampler := rfl
@[simp] theorem setWave_ref : (s.setWave x).ref = s.ref := rfl
@[simp] theorem setWave_wave : (s.setWave x).wave = x := rfl
@[simp] theorem setWave_mem : (s.setWave x).mem = s.mem := rfl
@[simp] theorem setWave_fault : (s.setWave x).fault = s.fault := rfl
@[simp] theorem setWave_refusal : (s.setWave x).refusal = s.refusal := rfl
@[simp] theorem setWave_params : (s.setWave x).params = s.params := rfl
@[simp] theorem setWave_agenda : (s.setWave x).agenda = s.agenda := rfl
@[simp] theorem setWave_host : (s.setWave x).host = s.host := rfl
@[simp] theorem setWave_hostValue : (s.setWave x).hostValue = s.hostValue := rfl
@[simp] theorem setWave_session : (s.setWave x).session = s.session := rfl
@[simp] theorem setWave_draws : (s.setWave x).draws = s.draws := rfl
@[simp] theorem setWave_chan (c : Nat) : (s.setWave x).chan c = s.chan c := rfl
@[simp] theorem setWave_abortBit (c : Nat) : (s.setWave x).abortBit c = s.abortBit c := rfl
end

section
variable (s : State) (x : List Host.Cell)
@[simp] theorem setMem_ch : (s.setMem x).ch = s.ch := rfl
@[simp] theorem setMem_abortPending : (s.setMem x).abortPending = s.abortPending := rfl
@[simp] theorem setMem_fifo : (s.setMem x).fifo = s.fifo := rfl
@[simp] theorem setMem_sampler : (s.setMem x).sampler = s.sampler := rfl
@[simp] theorem setMem_ref : (s.setMem x).ref = s.ref := rfl
@[simp] theorem setMem_wave : (s.setMem x).wave = s.wave := rfl
@[simp] theorem setMem_mem : (s.setMem x).mem = x := rfl
@[simp] theorem setMem_fault : (s.setMem x).fault = s.fault := rfl
@[simp] theorem setMem_refusal : (s.setMem x).refusal = s.refusal := rfl
@[simp] theorem setMem_params : (s.setMem x).params = s.params := rfl
@[simp] theorem setMem_agenda : (s.setMem x).agenda = s.agenda := rfl
@[simp] theorem setMem_host : (s.setMem x).host = s.host := rfl
@[simp] theorem setMem_hostValue : (s.setMem x).hostValue = s.hostValue := rfl
@[simp] theorem setMem_session : (s.setMem x).session = s.session := rfl
@[simp] theorem setMem_draws : (s.setMem x).draws = s.draws := rfl
@[simp] theorem setMem_chan (c : Nat) : (s.setMem x).chan c = s.chan c := rfl
@[simp] theorem setMem_abortBit (c : Nat) : (s.setMem x).abortBit c = s.abortBit c := rfl
end

section
variable (s : State) (x : Option Fault)
@[simp] theorem setFault_ch : (s.setFault x).ch = s.ch := rfl
@[simp] theorem setFault_abortPending : (s.setFault x).abortPending = s.abortPending := rfl
@[simp] theorem setFault_fifo : (s.setFault x).fifo = s.fifo := rfl
@[simp] theorem setFault_sampler : (s.setFault x).sampler = s.sampler := rfl
@[simp] theorem setFault_ref : (s.setFault x).ref = s.ref := rfl
@[simp] theorem setFault_wave : (s.setFault x).wave = s.wave := rfl
@[simp] theorem setFault_mem : (s.setFault x).mem = s.mem := rfl
@[simp] theorem setFault_fault : (s.setFault x).fault = x := rfl
@[simp] theorem setFault_refusal : (s.setFault x).refusal = s.refusal := rfl
@[simp] theorem setFault_params : (s.setFault x).params = s.params := rfl
@[simp] theorem setFault_agenda : (s.setFault x).agenda = s.agenda := rfl
@[simp] theorem setFault_host : (s.setFault x).host = s.host := rfl
@[simp] theorem setFault_hostValue : (s.setFault x).hostValue = s.hostValue := rfl
@[simp] theorem setFault_session : (s.setFault x).session = s.session := rfl
@[simp] theorem setFault_draws : (s.setFault x).draws = s.draws := rfl
@[simp] theorem setFault_chan (c : Nat) : (s.setFault x).chan c = s.chan c := rfl
@[simp] theorem setFault_abortBit (c : Nat) : (s.setFault x).abortBit c = s.abortBit c := rfl
end

section
variable (s : State) (x : Option Refusal)
@[simp] theorem setRefusal_ch : (s.setRefusal x).ch = s.ch := rfl
@[simp] theorem setRefusal_abortPending : (s.setRefusal x).abortPending = s.abortPending := rfl
@[simp] theorem setRefusal_fifo : (s.setRefusal x).fifo = s.fifo := rfl
@[simp] theorem setRefusal_sampler : (s.setRefusal x).sampler = s.sampler := rfl
@[simp] theorem setRefusal_ref : (s.setRefusal x).ref = s.ref := rfl
@[simp] theorem setRefusal_wave : (s.setRefusal x).wave = s.wave := rfl
@[simp] theorem setRefusal_mem : (s.setRefusal x).mem = s.mem := rfl
@[simp] theorem setRefusal_fault : (s.setRefusal x).fault = s.fault := rfl
@[simp] theorem setRefusal_refusal : (s.setRefusal x).refusal = x := rfl
@[simp] theorem setRefusal_params : (s.setRefusal x).params = s.params := rfl
@[simp] theorem setRefusal_agenda : (s.setRefusal x).agenda = s.agenda := rfl
@[simp] theorem setRefusal_host : (s.setRefusal x).host = s.host := rfl
@[simp] theorem setRefusal_hostValue : (s.setRefusal x).hostValue = s.hostValue := rfl
@[simp] theorem setRefusal_session : (s.setRefusal x).session = s.session := rfl
@[simp] theorem setRefusal_draws : (s.setRefusal x).draws = s.draws := rfl
@[simp] theorem setRefusal_chan (c : Nat) : (s.setRefusal x).chan c = s.chan c := rfl
@[simp] theorem setRefusal_abortBit (c : Nat) : (s.setRefusal x).abortBit c = s.abortBit c := rfl
end

section
variable (s : State) (x : List Turn)
@[simp] theorem setAgenda_ch : (s.setAgenda x).ch = s.ch := rfl
@[simp] theorem setAgenda_abortPending : (s.setAgenda x).abortPending = s.abortPending := rfl
@[simp] theorem setAgenda_fifo : (s.setAgenda x).fifo = s.fifo := rfl
@[simp] theorem setAgenda_sampler : (s.setAgenda x).sampler = s.sampler := rfl
@[simp] theorem setAgenda_ref : (s.setAgenda x).ref = s.ref := rfl
@[simp] theorem setAgenda_wave : (s.setAgenda x).wave = s.wave := rfl
@[simp] theorem setAgenda_mem : (s.setAgenda x).mem = s.mem := rfl
@[simp] theorem setAgenda_fault : (s.setAgenda x).fault = s.fault := rfl
@[simp] theorem setAgenda_refusal : (s.setAgenda x).refusal = s.refusal := rfl
@[simp] theorem setAgenda_params : (s.setAgenda x).params = s.params := rfl
@[simp] theorem setAgenda_agenda : (s.setAgenda x).agenda = x := rfl
@[simp] theorem setAgenda_host : (s.setAgenda x).host = s.host := rfl
@[simp] theorem setAgenda_hostValue : (s.setAgenda x).hostValue = s.hostValue := rfl
@[simp] theorem setAgenda_session : (s.setAgenda x).session = s.session := rfl
@[simp] theorem setAgenda_draws : (s.setAgenda x).draws = s.draws := rfl
@[simp] theorem setAgenda_chan (c : Nat) : (s.setAgenda x).chan c = s.chan c := rfl
@[simp] theorem setAgenda_abortBit (c : Nat) : (s.setAgenda x).abortBit c = s.abortBit c := rfl
end

section
variable (s : State) (x : HostAgent)
@[simp] theorem setHost_ch : (s.setHost x).ch = s.ch := rfl
@[simp] theorem setHost_abortPending : (s.setHost x).abortPending = s.abortPending := rfl
@[simp] theorem setHost_fifo : (s.setHost x).fifo = s.fifo := rfl
@[simp] theorem setHost_sampler : (s.setHost x).sampler = s.sampler := rfl
@[simp] theorem setHost_ref : (s.setHost x).ref = s.ref := rfl
@[simp] theorem setHost_wave : (s.setHost x).wave = s.wave := rfl
@[simp] theorem setHost_mem : (s.setHost x).mem = s.mem := rfl
@[simp] theorem setHost_fault : (s.setHost x).fault = s.fault := rfl
@[simp] theorem setHost_refusal : (s.setHost x).refusal = s.refusal := rfl
@[simp] theorem setHost_params : (s.setHost x).params = s.params := rfl
@[simp] theorem setHost_agenda : (s.setHost x).agenda = s.agenda := rfl
@[simp] theorem setHost_host : (s.setHost x).host = x := rfl
@[simp] theorem setHost_hostValue : (s.setHost x).hostValue = s.hostValue := rfl
@[simp] theorem setHost_session : (s.setHost x).session = s.session := rfl
@[simp] theorem setHost_draws : (s.setHost x).draws = s.draws := rfl
@[simp] theorem setHost_chan (c : Nat) : (s.setHost x).chan c = s.chan c := rfl
@[simp] theorem setHost_abortBit (c : Nat) : (s.setHost x).abortBit c = s.abortBit c := rfl
end

section
variable (s : State) (x : Option Word)
@[simp] theorem setHostValue_ch : (s.setHostValue x).ch = s.ch := rfl
@[simp] theorem setHostValue_abortPending : (s.setHostValue x).abortPending = s.abortPending := rfl
@[simp] theorem setHostValue_fifo : (s.setHostValue x).fifo = s.fifo := rfl
@[simp] theorem setHostValue_sampler : (s.setHostValue x).sampler = s.sampler := rfl
@[simp] theorem setHostValue_ref : (s.setHostValue x).ref = s.ref := rfl
@[simp] theorem setHostValue_wave : (s.setHostValue x).wave = s.wave := rfl
@[simp] theorem setHostValue_mem : (s.setHostValue x).mem = s.mem := rfl
@[simp] theorem setHostValue_fault : (s.setHostValue x).fault = s.fault := rfl
@[simp] theorem setHostValue_refusal : (s.setHostValue x).refusal = s.refusal := rfl
@[simp] theorem setHostValue_params : (s.setHostValue x).params = s.params := rfl
@[simp] theorem setHostValue_agenda : (s.setHostValue x).agenda = s.agenda := rfl
@[simp] theorem setHostValue_host : (s.setHostValue x).host = s.host := rfl
@[simp] theorem setHostValue_hostValue : (s.setHostValue x).hostValue = x := rfl
@[simp] theorem setHostValue_session : (s.setHostValue x).session = s.session := rfl
@[simp] theorem setHostValue_draws : (s.setHostValue x).draws = s.draws := rfl
@[simp] theorem setHostValue_chan (c : Nat) : (s.setHostValue x).chan c = s.chan c := rfl
@[simp] theorem setHostValue_abortBit (c : Nat) : (s.setHostValue x).abortBit c = s.abortBit c := rfl
end

section
variable (s : State) (x : Option Session)
@[simp] theorem setSession_ch : (s.setSession x).ch = s.ch := rfl
@[simp] theorem setSession_abortPending : (s.setSession x).abortPending = s.abortPending := rfl
@[simp] theorem setSession_fifo : (s.setSession x).fifo = s.fifo := rfl
@[simp] theorem setSession_sampler : (s.setSession x).sampler = s.sampler := rfl
@[simp] theorem setSession_ref : (s.setSession x).ref = s.ref := rfl
@[simp] theorem setSession_wave : (s.setSession x).wave = s.wave := rfl
@[simp] theorem setSession_mem : (s.setSession x).mem = s.mem := rfl
@[simp] theorem setSession_fault : (s.setSession x).fault = s.fault := rfl
@[simp] theorem setSession_refusal : (s.setSession x).refusal = s.refusal := rfl
@[simp] theorem setSession_params : (s.setSession x).params = s.params := rfl
@[simp] theorem setSession_agenda : (s.setSession x).agenda = s.agenda := rfl
@[simp] theorem setSession_host : (s.setSession x).host = s.host := rfl
@[simp] theorem setSession_hostValue : (s.setSession x).hostValue = s.hostValue := rfl
@[simp] theorem setSession_session : (s.setSession x).session = x := rfl
@[simp] theorem setSession_draws : (s.setSession x).draws = s.draws := rfl
@[simp] theorem setSession_chan (c : Nat) : (s.setSession x).chan c = s.chan c := rfl
@[simp] theorem setSession_abortBit (c : Nat) : (s.setSession x).abortBit c = s.abortBit c := rfl
end

section
variable (s : State) (x : Nat)
@[simp] theorem setDraws_ch : (s.setDraws x).ch = s.ch := rfl
@[simp] theorem setDraws_abortPending : (s.setDraws x).abortPending = s.abortPending := rfl
@[simp] theorem setDraws_fifo : (s.setDraws x).fifo = s.fifo := rfl
@[simp] theorem setDraws_sampler : (s.setDraws x).sampler = s.sampler := rfl
@[simp] theorem setDraws_ref : (s.setDraws x).ref = s.ref := rfl
@[simp] theorem setDraws_wave : (s.setDraws x).wave = s.wave := rfl
@[simp] theorem setDraws_mem : (s.setDraws x).mem = s.mem := rfl
@[simp] theorem setDraws_fault : (s.setDraws x).fault = s.fault := rfl
@[simp] theorem setDraws_refusal : (s.setDraws x).refusal = s.refusal := rfl
@[simp] theorem setDraws_params : (s.setDraws x).params = s.params := rfl
@[simp] theorem setDraws_agenda : (s.setDraws x).agenda = s.agenda := rfl
@[simp] theorem setDraws_host : (s.setDraws x).host = s.host := rfl
@[simp] theorem setDraws_hostValue : (s.setDraws x).hostValue = s.hostValue := rfl
@[simp] theorem setDraws_session : (s.setDraws x).session = s.session := rfl
@[simp] theorem setDraws_draws : (s.setDraws x).draws = x := rfl
@[simp] theorem setDraws_chan (c : Nat) : (s.setDraws x).chan c = s.chan c := rfl
@[simp] theorem setDraws_abortBit (c : Nat) : (s.setDraws x).abortBit c = s.abortBit c := rfl
end

section
variable (s : State) (c : Nat) (k : Channel)
theorem setChan_ch : (s.setChan c k).ch = s.ch.set c k := rfl
@[simp] theorem setChan_abortPending : (s.setChan c k).abortPending = s.abortPending := rfl
@[simp] theorem setChan_fifo : (s.setChan c k).fifo = s.fifo := rfl
@[simp] theorem setChan_sampler : (s.setChan c k).sampler = s.sampler := rfl
@[simp] theorem setChan_ref : (s.setChan c k).ref = s.ref := rfl
@[simp] theorem setChan_wave : (s.setChan c k).wave = s.wave := rfl
@[simp] theorem setChan_mem : (s.setChan c k).mem = s.mem := rfl
@[simp] theorem setChan_fault : (s.setChan c k).fault = s.fault := rfl
@[simp] theorem setChan_refusal : (s.setChan c k).refusal = s.refusal := rfl
@[simp] theorem setChan_params : (s.setChan c k).params = s.params := rfl
@[simp] theorem setChan_agenda : (s.setChan c k).agenda = s.agenda := rfl
@[simp] theorem setChan_host : (s.setChan c k).host = s.host := rfl
@[simp] theorem setChan_hostValue : (s.setChan c k).hostValue = s.hostValue := rfl
@[simp] theorem setChan_session : (s.setChan c k).session = s.session := rfl
@[simp] theorem setChan_draws : (s.setChan c k).draws = s.draws := rfl
@[simp] theorem setChan_abortBit (d : Nat) : (s.setChan c k).abortBit d = s.abortBit d := rfl

@[simp] theorem setChan_ch_length : (s.setChan c k).ch.length = s.ch.length := by simp [setChan_ch]

/-- Reading back the record just written. -/
theorem chan_setChan_self (h : c < s.ch.length) : (s.setChan c k).chan c = k := by
  simp [State.chan, setChan_ch, List.getD, h]

/-- Writing one channel leaves every other alone. -/
theorem chan_setChan_ne {d : Nat} (h : c ≠ d) : (s.setChan c k).chan d = s.chan d := by
  simp [State.chan, setChan_ch, List.getD, h]

/-- Both cases at once. -/
theorem chan_setChan (d : Nat) (h : c < s.ch.length) :
    (s.setChan c k).chan d = if c = d then k else s.chan d := by
  by_cases e : c = d
  · subst e; simp [chan_setChan_self s c k h]
  · simp [e, chan_setChan_ne s c k e]

/-- The record of a channel the block does not have is never written. -/
theorem setChan_of_le (h : s.ch.length ≤ c) : s.setChan c k = s := by
  simp only [State.setChan, State.setCh, List.set_eq_of_length_le h]
end

/-- A channel of the reset state of the table is `Channel.reset`. -/
@[simp] theorem resetWith_chan (p : Params) (c : Nat) : (State.resetWith p).chan c = Channel.reset := by
  simp only [State.chan, State.resetWith, List.getD, List.getElem?_replicate]
  split <;> rfl

/-- A channel of the reset state with zeros. -/
theorem resetZero_chan (p : Params) {c : Nat} (h : c < p.nch) : (State.resetZero p).chan c = Channel.resetZero := by
  simp [State.chan, State.resetZero, List.getD, h]

end Sys2Proof.Machine
end

