-- ==== Sys2Proof/Laws/Ops.lean ====
section
/-! SUPPORT. One lemma per shared operation that says all it can do when it answers a next state. -/

namespace Sys2Proof.Machine

section
variable {α β : Type}

@[simp] theorem andThen_next (a : α) (f : α → Res β) : andThen (.next a) f = f a := rfl
@[simp] theorem andThen_fault (x : Fault) (f : α → Res β) : andThen (.fault x) f = .fault x := rfl
@[simp] theorem andThen_refused (x : Refusal) (f : α → Res β) : andThen (.refused x) f = .refused x := rfl

/-- A sequence answers a result only if both parts do. -/
theorem andThen_eq_next {r : Res α} {f : α → Res β} {b : β} :
    andThen r f = .next b ↔ ∃ a, r = .next a ∧ f a = .next b := by
  cases r <;> simp [andThen]

end

/-- A step that is settled always answers a next state: what the agent did, or the state before it with a mark. -/
theorem settle_cases (s : State) (o : Res State) :
    (∃ t, o = .next t ∧ settle s o = .next t.closeSession) ∨ (∃ r, o = .fault r ∧ settle s o = .next (s.setFault (some r))) ∨
      (∃ r, o = .refused r ∧ settle s o = .next (s.setRefusal (some r))) := by
  cases o <;> simp [settle]

/-- A needed register holds a word. -/
theorem needWord_eq_next {r : RegVal} {v : Word} : needWord r = .next v ↔ r = .word v := by
  cases r <;> simp [needWord]

@[simp] theorem needWord_word (v : Word) : needWord (.word v) = .next v := rfl
@[simp] theorem needWord_unwritten : needWord .unwritten = .fault .unwritten := rfl

@[simp] theorem drawWord_fst (s : State) : (drawWord s).1 = Config.any32 s.draws := rfl
@[simp] theorem drawWord_snd (s : State) : (drawWord s).2 = s.setDraws (s.draws + 1) := rfl

/-- The guard passes only for a channel neither busy nor pending and, for the host, without a pending abort; it changes
nothing (rule R125). -/
theorem writeGuard_eq_next {m : Master} {c : Nat} {s t : State} :
    writeGuard m c s = .next t ↔
      t = s ∧ (s.chan c).busy = false ∧ (s.chan c).pend = false ∧ (m = .host → s.abortBit c = false) := by
  unfold writeGuard
  split
  · rename_i h
    constructor
    · intro e; cases e
    · rintro ⟨-, hb, hp, -⟩; simp [hb, hp] at h
  · rename_i h
    simp only [not_or, Bool.not_eq_true] at h
    split
    · rename_i h2
      constructor
      · intro e; cases e
      · rintro ⟨-, -, -, ha⟩; simp [ha h2.1] at h2
    · rename_i h2
      simp only [Host.Outcome.next.injEq]
      constructor
      · rintro rfl
        exact ⟨rfl, h.1, h.2, fun hm => by simpa [hm] using h2⟩
      · rintro ⟨rfl, -⟩; rfl

/-- Only an admitted control word is stored, and nothing else changes (rules R97, R129). -/
theorem storeCtrl_eq_next {c : Nat} {v : Word} {s t : State} :
    storeCtrl c v s = .next t ↔ ctrlRefusal s.params v = none ∧ t = s.setChan c { s.chan c with ctrl := v } := by
  unfold storeCtrl
  split
  · rename_i r h; simp [h]
  · rename_i h; simp [h, eq_comm]

/-- What a trigger does when it faults nothing (rule R152). -/
theorem trigger_eq_next {m : Master} {c : Nat} {s t : State} :
    trigger m c s = .next t ↔
      ∃ ra buf n, (s.chan c).readAddr = .word ra ∧ (s.chan c).writeAddr = .word buf ∧
        (s.chan c).countReload = .word n ∧ n ≠ 0#32 ∧
        t = (s.setChan c { s.chan c with countLive := .word n, busy := true }).noteSession m c buf n := by
  unfold trigger
  split
  · rename_i ra buf n h1 h2 h3
    split
    · rename_i hn
      constructor
      · intro e; cases e
      · rintro ⟨_, _, n', -, -, h, hne, -⟩; rw [h3] at h; cases h; exact absurd hn hne
    · rename_i hn
      simp only [Host.Outcome.next.injEq]
      constructor
      · rintro rfl; exact ⟨ra, buf, n, h1, h2, h3, hn, rfl⟩
      · rintro ⟨ra', buf', n', e1, e2, e3, -, rfl⟩
        rw [h2] at e2; rw [h3] at e3; cases e2; cases e3; rfl
  · rename_i h
    constructor
    · intro e; cases e
    · rintro ⟨ra, buf, n, h1, h2, h3, -⟩; exact absurd h3 (h _ _ _ h1 h2)

section
variable (s : State)

@[simp] theorem closeSession_ch : s.closeSession.ch = s.ch := by unfold State.closeSession; split <;> rfl
@[simp] theorem closeSession_abortPending : s.closeSession.abortPending = s.abortPending := by unfold State.closeSession; split <;> rfl
@[simp] theorem closeSession_fifo : s.closeSession.fifo = s.fifo := by unfold State.closeSession; split <;> rfl
@[simp] theorem closeSession_sampler : s.closeSession.sampler = s.sampler := by unfold State.closeSession; split <;> rfl
@[simp] theorem closeSession_ref : s.closeSession.ref = s.ref := by unfold State.closeSession; split <;> rfl
@[simp] theorem closeSession_wave : s.closeSession.wave = s.wave := by unfold State.closeSession; split <;> rfl
@[simp] theorem closeSession_mem : s.closeSession.mem = s.mem := by unfold State.closeSession; split <;> rfl
@[simp] theorem closeSession_fault : s.closeSession.fault = s.fault := by unfold State.closeSession; split <;> rfl
@[simp] theorem closeSession_refusal : s.closeSession.refusal = s.refusal := by unfold State.closeSession; split <;> rfl
@[simp] theorem closeSession_params : s.closeSession.params = s.params := by unfold State.closeSession; split <;> rfl
@[simp] theorem closeSession_agenda : s.closeSession.agenda = s.agenda := by unfold State.closeSession; split <;> rfl
@[simp] theorem closeSession_host : s.closeSession.host = s.host := by unfold State.closeSession; split <;> rfl
@[simp] theorem closeSession_hostValue : s.closeSession.hostValue = s.hostValue := by unfold State.closeSession; split <;> rfl
@[simp] theorem closeSession_draws : s.closeSession.draws = s.draws := by unfold State.closeSession; split <;> rfl
@[simp] theorem closeSession_chan (d : Nat) : s.closeSession.chan d = s.chan d := by unfold State.closeSession; split <;> rfl
@[simp] theorem closeSession_abortBit (d : Nat) : s.closeSession.abortBit d = s.abortBit d := by
  unfold State.closeSession; split <;> rfl
@[simp] theorem closeSession_sessionActive : s.closeSession.sessionActive = s.sessionActive := by
  unfold State.closeSession; split <;> rfl

/-- A session's note outlives a step only while the session is active (log 15). -/
theorem closeSession_active (h : s.closeSession.session ≠ none) : s.sessionActive = true := by
  unfold State.closeSession at h
  split at h
  · assumption
  · exact absurd rfl h

/-- An active session keeps its note (log 15). -/
theorem closeSession_of_active (h : s.sessionActive = true) : s.closeSession = s := by
  unfold State.closeSession; rw [if_pos h]

/-- The trigger of a channel goes on with the session in progress (rule R44; log 15). -/
theorem noteSession_keeps (c d : Nat) (buf n : Word) (x : Session) (h : s.session = some x) :
    s.noteSession (.dma d) c buf n = s := by
  unfold State.noteSession; rw [if_neg]; simp [h]

end

section
variable (s : State) (m : Master) (c : Nat) (buf n : Word)

@[simp] theorem noteSession_ch : (s.noteSession m c buf n).ch = s.ch := by unfold State.noteSession; split <;> rfl
@[simp] theorem noteSession_chan (d : Nat) : (s.noteSession m c buf n).chan d = s.chan d := by
  unfold State.noteSession; split <;> rfl
@[simp] theorem noteSession_abortPending : (s.noteSession m c buf n).abortPending = s.abortPending := by
  unfold State.noteSession; split <;> rfl
@[simp] theorem noteSession_abortBit (d : Nat) : (s.noteSession m c buf n).abortBit d = s.abortBit d := by
  unfold State.noteSession; split <;> rfl
@[simp] theorem noteSession_fifo : (s.noteSession m c buf n).fifo = s.fifo := by unfold State.noteSession; split <;> rfl
@[simp] theorem noteSession_sampler : (s.noteSession m c buf n).sampler = s.sampler := by
  unfold State.noteSession; split <;> rfl
@[simp] theorem noteSession_ref : (s.noteSession m c buf n).ref = s.ref := by unfold State.noteSession; split <;> rfl
@[simp] theorem noteSession_wave : (s.noteSession m c buf n).wave = s.wave := by unfold State.noteSession; split <;> rfl
@[simp] theorem noteSession_mem : (s.noteSession m c buf n).mem = s.mem := by unfold State.noteSession; split <;> rfl
@[simp] theorem noteSession_fault : (s.noteSession m c buf n).fault = s.fault := by
  unfold State.noteSession; split <;> rfl
@[simp] theorem noteSession_refusal : (s.noteSession m c buf n).refusal = s.refusal := by
  unfold State.noteSession; split <;> rfl
@[simp] theorem noteSession_params : (s.noteSession m c buf n).params = s.params := by
  unfold State.noteSession; split <;> rfl
@[simp] theorem noteSession_agenda : (s.noteSession m c buf n).agenda = s.agenda := by
  unfold State.noteSession; split <;> rfl
@[simp] theorem noteSession_host : (s.noteSession m c buf n).host = s.host := by unfold State.noteSession; split <;> rfl
@[simp] theorem noteSession_hostValue : (s.noteSession m c buf n).hostValue = s.hostValue := by
  unfold State.noteSession; split <;> rfl
@[simp] theorem noteSession_draws : (s.noteSession m c buf n).draws = s.draws := by
  unfold State.noteSession; split <;> rfl

end

/-- A register write that answers a next state: the register exists, the guard passed, the store was made (rules R78,
R125). -/
theorem chanWrite_eq_next {m : Master} {c : Nat} {r : ChanReg} {v : Word} {s t : State} :
    chanWrite m c r v s = .next t ↔
      c < s.params.nch ∧ (s.chan c).busy = false ∧ (s.chan c).pend = false ∧
        (m = .host → s.abortBit c = false) ∧ chanStore m c r v s = .next t := by
  unfold chanWrite
  split
  · rename_i h
    simp only [andThen_eq_next, writeGuard_eq_next, h, true_and]
    constructor
    · rintro ⟨a, ⟨rfl, hb, hp, ha⟩, hs⟩; exact ⟨hb, hp, ha, hs⟩
    · rintro ⟨hb, hp, ha, hs⟩; exact ⟨s, ⟨rfl, hb, hp, ha⟩, hs⟩
  · rename_i h; simp [h]

/-- What a store to a channel register can leave: one record changed, in one register; a triggering write of an enabled word
also starts the channel (rules R126 to R130). -/
theorem chanStore_cases {m : Master} {c : Nat} {r : ChanReg} {v : Word} {s t : State} (h : chanStore m c r v s = .next t) :
    (r = .readAddr ∧ t = s.setChan c { s.chan c with readAddr := .word v }) ∨
    (r = .writeAddr ∧ t = s.setChan c { s.chan c with writeAddr := .word v }) ∨
    (r = .transCount ∧ t = s.setChan c { s.chan c with countReload := .word v }) ∨
    ((r = .ctrl ∨ r = .ctrlTrig) ∧ ctrlRefusal s.params v = none ∧
      t = s.setChan c { s.chan c with ctrl := v }) ∨
    (r = .ctrlTrig ∧ ctrlRefusal s.params v = none ∧ ctrlField v .en = 1 ∧
      trigger m c (s.setChan c { s.chan c with ctrl := v }) = .next t) := by
  cases r with
  | readAddr => left; simpa [chanStore, eq_comm] using h
  | writeAddr => right; left; simpa [chanStore, eq_comm] using h
  | transCount => right; right; left; simpa [chanStore, eq_comm] using h
  | ctrl =>
    obtain ⟨ha, rfl⟩ := storeCtrl_eq_next.mp h
    exact .inr (.inr (.inr (.inl ⟨.inl rfl, ha, rfl⟩)))
  | ctrlTrig =>
    obtain ⟨u, hu, ht⟩ := andThen_eq_next.mp h
    obtain ⟨ha, rfl⟩ := storeCtrl_eq_next.mp hu
    split at ht
    · rename_i he
      exact .inr (.inr (.inr (.inr ⟨rfl, ha, he, ht⟩)))
    · cases ht
      exact .inr (.inr (.inr (.inl ⟨.inr rfl, ha, rfl⟩)))

/-- A register read returns the register and changes nothing (rules R131 to R135). -/
theorem chanRead_eq_next {c : Nat} {r : ChanReg} {s t : State} {v : Word} :
    chanRead c r s = .next (v, t) ↔ c < s.params.nch ∧ chanLoad c r s = .next v ∧ t = s := by
  unfold chanRead
  split
  · rename_i h
    simp only [andThen_eq_next, Host.Outcome.next.injEq, Prod.mk.injEq, h, true_and]
    constructor
    · rintro ⟨a, ha, rfl, rfl⟩; exact ⟨ha, rfl⟩
    · rintro ⟨ha, rfl⟩; exact ⟨v, ha, rfl, rfl⟩
  · rename_i h; simp [h]

/-- What a bus read can leave: the state as it was, the FIFO without its head, or one draw taken (rules R52, R64, R116).
-/
theorem busRead32_cases {m : Master} {a : Word} {s t : State} {v : Word} (h : busRead32 m a s = .next (v, t)) :
    t = s ∨ (a = s.params.fifoAddr ∧ ∃ rest, s.fifo = v :: rest ∧ t = s.setFifo rest) ∨
      (m = .host ∧ t = s.setDraws (s.draws + 1) ∧ v = Config.any32 s.draws) := by
  unfold busRead32 at h
  split at h
  · cases h
  · split at h
    · unfold regRead at h
      split at h
      · cases h; exact .inl rfl
      · exact .inl (chanRead_eq_next.mp h).2.2
      · cases h
    · split at h
      · rename_i ha
        unfold fifoRead at h
        split at h
        · cases h
        · rename_i x rest hf
          cases h
          exact .inr (.inl ⟨ha, rest, hf, rfl⟩)
      · split at h
        · unfold memRead at h
          split at h
          · rename_i hm
            cases h
            exact .inr (.inr ⟨hm.1, rfl, rfl⟩)
          · split at h
            · cases h; exact .inl rfl
            · cases h
        · cases h

/-- What a bus write can leave: the abort mask grown, a channel register stored, or a word of `RAM` written (rules R52,
R139). -/
theorem busWrite32_cases {m : Master} {a v : Word} {s t : State} (h : busWrite32 m a v s = .next t) :
    t = s.setAbortPending (s.abortPending ||| (v &&& chanMask s.params)) ∨
      (∃ c r, inDma s.params a = true ∧ regSel s.params (dmaOff s.params a) = some (.chan c r) ∧
        chanWrite m c r v s = .next t) ∨
      (ramWord s.params a = true ∧ aligned a = true ∧ t = s.setMem (memWriteWord s.mem a v)) := by
  unfold busWrite32 at h
  split at h
  · cases h
  · rename_i hal
    split at h
    · rename_i hd
      unfold regWrite at h
      split at h
      · cases h; exact .inl rfl
      · rename_i c r hr; exact .inr (.inl ⟨c, r, hd, hr, h⟩)
      · cases h
    · split at h
      · cases h
      · split at h
        · rename_i hr
          cases h
          exact .inr (.inr ⟨hr, by simpa using hal, rfl⟩)
        · cases h

/-- A host read that answers a next state ends with the value delivered (log 12). -/
theorem deliver_eq_next {r : Res (Word × State)} {t : State} :
    deliver r = .next t ↔ ∃ v u, r = .next (v, u) ∧ t = u.setHostValue (some v) := by
  unfold deliver
  simp only [andThen_eq_next, Host.Outcome.next.injEq, Prod.exists]
  constructor
  · rintro ⟨v, u, h, rfl⟩; exact ⟨v, u, h, rfl⟩
  · rintro ⟨v, u, h, rfl⟩; exact ⟨v, u, h, rfl⟩

/-- A chain request that answers a next state makes a resting channel pending (rule R156). -/
theorem chainRequest_eq_next {d : Nat} {s t : State} :
    chainRequest d s = .next t ↔
      (s.chan d).busy = false ∧ (s.chan d).pend = false ∧ t = s.setChan d { s.chan d with pend := true } := by
  unfold chainRequest
  split
  · rename_i h
    constructor
    · intro e; cases e
    · rintro ⟨hb, hp, -⟩; simp [hb, hp] at h
  · rename_i h
    simp only [not_or, Bool.not_eq_true] at h
    simp [h, eq_comm]

/-- What a completion can leave: the channel not busy, its interrupt possibly raised, and the chain target pending unless it
is the channel itself (rules R155, R156, R163). -/
theorem complete_cases {c : Nat} {s t : State} (h : complete c s = .next t) :
    (ctrlField (s.chan c).ctrl .chainTo = c ∧
      t = raiseIrq c (s.setChan c { s.chan c with busy := false })) ∨
    (ctrlField (s.chan c).ctrl .chainTo ≠ c ∧
      ∃ u, chainRequest (ctrlField (s.chan c).ctrl .chainTo) (s.setChan c { s.chan c with busy := false }) = .next u ∧
        t = raiseIrq c u) := by
  unfold complete at h
  obtain ⟨u, hu, ht⟩ := andThen_eq_next.mp h
  cases ht
  split at hu
  · rename_i he; cases hu; exact .inl ⟨he, rfl⟩
  · rename_i he; exact .inr ⟨he, u, hu, rfl⟩

/-- What the end of a transfer can leave (rule R154). -/
theorem finishXfer_cases {c : Nat} {w : Word} {s t : State} (h : finishXfer c w s = .next t) :
    ∃ n u, (s.chan c).countLive = .word n ∧
      u = s.setChan c { s.chan c with
        readAddr := advanceAddr (ctrlField w .incrRead) (s.chan c).readAddr
        writeAddr := advanceAddr (ctrlField w .incrWrite) (s.chan c).writeAddr
        countLive := .word (n - 1#32) } ∧
      ((n - 1#32 = 0#32 ∧ complete c u = .next t) ∨ (n - 1#32 ≠ 0#32 ∧ t = u)) := by
  obtain ⟨n, hn, ht⟩ := andThen_eq_next.mp h
  refine ⟨n, _, needWord_eq_next.mp hn, rfl, ?_⟩
  dsimp only at ht
  split at ht
  · rename_i h0; exact .inl ⟨h0, ht⟩
  · rename_i h0; cases ht; exact .inr ⟨h0, rfl⟩

/-- A transfer that answers a next state is a read, then a write, then the end of the transfer (rule R154). -/
theorem xferWord_cases {c : Nat} {s t : State} (h : xferWord c s = .next t) :
    ∃ ra v u wa x, (s.chan c).readAddr = .word ra ∧ busRead32 (.dma c) ra s = .next (v, u) ∧
      (u.chan c).writeAddr = .word wa ∧ busWrite32 (.dma c) wa v u = .next x ∧
      finishXfer c (s.chan c).ctrl x = .next t := by
  obtain ⟨ra, hra, h⟩ := andThen_eq_next.mp h
  obtain ⟨⟨v, u⟩, hr, h⟩ := andThen_eq_next.mp h
  obtain ⟨wa, hwa, h⟩ := andThen_eq_next.mp h
  obtain ⟨x, hx, h⟩ := andThen_eq_next.mp h
  exact ⟨ra, v, u, wa, x, needWord_eq_next.mp hra, hr, needWord_eq_next.mp hwa, hx, h⟩

/-- `raiseIrq` changes at most the interrupt bit of its channel (rule R163). -/
theorem raiseIrq_cases (c : Nat) (s : State) :
    raiseIrq c s = s ∨ raiseIrq c s = s.setChan c { s.chan c with irq := true } := by
  unfold raiseIrq; split
  · exact .inr rfl
  · exact .inl rfl

end Sys2Proof.Machine
end

