-- ==== Sys2Proof/Laws/Abort.lean ====
section
/-! SUPPORT. What aborting channels leaves (rules R182, R184, R185, R188). -/

namespace Sys2Proof.Machine

/-- The record of an aborted channel: a busy one stops with its addresses and live count drawn, and no trigger stays pending
(rules R182, R184). -/
def abortedAs (k k' : Channel) : Prop :=
  (k.busy = true ∧ ∃ x y z : Word, k' = { k with
    busy := false, pend := false, readAddr := .word x, writeAddr := .word y, countLive := .word z }) ∨
  (k.busy = false ∧ k' = { k with pend := false })

/-- Aborting one channel changes its record and the number of draws. -/
theorem abortChannel_cases (c : Nat) (s : State) :
    ∃ k' n, abortedAs (s.chan c) k' ∧ abortChannel c s = (s.setChan c k').setDraws n := by
  cases hb : (s.chan c).busy
  · exact ⟨_, s.draws, .inr ⟨hb, rfl⟩, by simp [abortChannel, hb]; rfl⟩
  · exact ⟨_, s.draws + 1 + 1 + 1, .inl ⟨hb, _, _, _, rfl⟩, by simp only [abortChannel, hb]; rfl⟩

/-- Which record a channel list gives does not depend on the rest of the state. -/
theorem setCh_chan (s u : State) (l : List Channel) (d : Nat) : (u.setCh l).chan d = (s.setCh l).chan d := rfl

/-- Aborting the channels of a list without repeats changes the records of those whose abort is pending, and the number of
draws; nothing else. -/
theorem abortChannels_spec (cs : List Nat) (s : State) (hn : cs.Nodup) (hl : ∀ c ∈ cs, c < s.ch.length) :
    ∃ l n, abortChannels cs s = (s.setCh l).setDraws n ∧ l.length = s.ch.length ∧
      (∀ c, (c ∉ cs ∨ s.abortBit c = false) → ((s.setCh l).chan c) = s.chan c) ∧
      (∀ c ∈ cs, s.abortBit c = true → abortedAs (s.chan c) ((s.setCh l).chan c)) := by
  induction cs generalizing s with
  | nil => exact ⟨s.ch, s.draws, rfl, rfl, fun _ _ => rfl, by simp⟩
  | cons c t ih =>
    obtain ⟨hc, ht⟩ := List.nodup_cons.mp hn
    have hcl : c < s.ch.length := hl c (by simp)
    unfold abortChannels
    cases hb : s.abortBit c
    · simp only [Bool.false_eq_true, if_false]
      obtain ⟨l, n, h1, h2, h3, h4⟩ := ih s ht (fun d hd => hl d (by simp [hd]))
      refine ⟨l, n, h1, h2, fun d hd => h3 d ?_, fun d hd hbd => ?_⟩
      · rcases hd with hd | hd
        · exact .inl fun h => hd (by simp [h])
        · exact .inr hd
      · rcases List.mem_cons.mp hd with rfl | hd
        · simp [hb] at hbd
        · exact h4 d hd hbd
    · simp only [if_true]
      obtain ⟨k', n', hk, he⟩ := abortChannel_cases c s
      rw [he]
      obtain ⟨l, n, h1, h2, h3, h4⟩ := ih ((s.setChan c k').setDraws n') ht
        (fun d hd => by simpa using hl d (by simp [hd]))
      refine ⟨l, n, h1, by simpa using h2, fun d hd => ?_, fun d hd hbd => ?_⟩
      · have hdc : d ≠ c := by
          rintro rfl
          rcases hd with hd | hd
          · exact hd (by simp)
          · simp [hb] at hd
        have := h3 d (by
          rcases hd with hd | hd
          · exact .inl fun h => hd (by simp [h])
          · exact .inr (by simpa using hd))
        simpa [setCh_chan s, chan_setChan_ne _ _ _ hdc.symm] using this
      · by_cases hdc : d = c
        · subst hdc
          have := h3 d (.inl hc)
          have h' : (s.setCh l).chan d = k' := by
            simpa [setCh_chan s, chan_setChan_self _ _ _ hcl] using this
          rw [h']; exact hk
        · have hd' : d ∈ t := by
            rcases List.mem_cons.mp hd with h | h
            · exact absurd h hdc
            · exact h
          have := h4 d hd' (by simpa using hbd)
          simpa [setCh_chan s, chan_setChan_ne _ _ _ (Ne.symm hdc)] using this

end Sys2Proof.Machine
end

