-- ==== Sys2Proof/Laws/Encoding.lean ====
section
/-! SUPPORT. The parts of operation words and control words as numbers (rules R70, R74, R76, R80, R91, R96). -/

namespace Sys2Proof.Machine

/-- The fields of a control word by division (rules R70, R96). -/
theorem ctrlField_toNat (w : Word) :
    ctrlField w .en = w.toNat % 2 ∧ ctrlField w .highPriority = w.toNat / 2 % 2 ∧
      ctrlField w .dataSize = w.toNat / 4 % 4 ∧ ctrlField w .incrRead = w.toNat / 16 % 2 ∧
      ctrlField w .incrWrite = w.toNat / 32 % 2 ∧ ctrlField w .ringSize = w.toNat / 512 % 2 ∧
      ctrlField w .ringSel = w.toNat / 1024 % 2 ∧ ctrlField w .chainTo = w.toNat / 2048 % 16 ∧
      ctrlField w .treq = w.toNat / 32768 % 64 ∧ ctrlField w .irqQuiet = w.toNat / 2097152 % 2 := by
  simp [ctrlField, BitVec.extractLsb'_toNat, Nat.shiftRight_eq_div_pow]

/-- Bits 31:22 and 8:6 are clear (rules R70, R97). -/
theorem ctrlReservedClear_iff (w : Word) :
    ctrlReservedClear w = true ↔ w.toNat / 2 ^ 22 = 0 ∧ w.toNat / 2 ^ 6 % 8 = 0 := by
  simp only [ctrlReservedClear, Bool.and_eq_true, beq_iff_eq, ← BitVec.toNat_inj, BitVec.extractLsb'_toNat,
    Nat.shiftRight_eq_div_pow]
  have := w.isLt
  simp
  omega

/-- A bit of a word by division. -/
theorem getLsbD_eq_true_iff (w : Word) (k : Nat) : w.getLsbD k = true ↔ w.toNat / 2 ^ k % 2 = 1 := by
  rw [BitVec.getLsbD, Nat.testBit_eq_decide_div_mod_eq]; simp

/-- A field below a shifted one adds to it. -/
theorem shiftLeft_or_eq_add (a b k : Nat) (h : b < 2 ^ k) : a <<< k ||| b = a * 2 ^ k + b := by
  rw [Nat.shiftLeft_eq, Nat.mul_comm, ← Nat.two_pow_add_eq_or_of_lt h]

/-- The inputs brought into their ranges are legal (rules R71, R92). -/
theorem encLegal_low (f : EncInputs) : encLegal f.low = true := by
  have h2 : ∀ n, n % 2 ≤ 1 := fun n => by omega
  have h4 : ∀ n, n % 4 ≤ 3 := fun n => by omega
  have h16 : ∀ n, n % 16 ≤ 15 := fun n => by omega
  have h64 : ∀ n, n % 64 ≤ 63 := fun n => by omega
  simp [encLegal, EncInputs.low, h2, h4, h16, h64]

/-- The packed word of legal inputs as a number (rules R70, R91). -/
theorem encPack_toNat {f : EncInputs} (h : encLegal f = true) :
    (encPack f).toNat = f.q * 2 ^ 21 + f.treq * 2 ^ 15 + f.chain * 2 ^ 11 + f.rs * 2 ^ 10 + f.ring * 2 ^ 9
      + f.iw * 2 ^ 5 + f.ir * 2 ^ 4 + f.size * 2 ^ 2 + f.hp * 2 + f.en := by
  simp only [encLegal, Bool.and_eq_true, decide_eq_true_eq] at h
  obtain ⟨⟨⟨⟨⟨⟨⟨⟨⟨h1, h2⟩, h3⟩, h4⟩, h5⟩, h6⟩, h7⟩, h8⟩, h9⟩, h10⟩ := h
  unfold encPack
  simp only [Nat.lor_assoc]
  rw [shiftLeft_or_eq_add f.hp _ 1 (by omega), shiftLeft_or_eq_add f.size _ 2 (by omega),
    shiftLeft_or_eq_add f.ir _ 4 (by omega), shiftLeft_or_eq_add f.iw _ 5 (by omega),
    shiftLeft_or_eq_add f.ring _ 9 (by omega), shiftLeft_or_eq_add f.rs _ 10 (by omega),
    shiftLeft_or_eq_add f.chain _ 11 (by omega), shiftLeft_or_eq_add f.treq _ 15 (by omega),
    shiftLeft_or_eq_add f.q _ 21 (by omega), BitVec.toNat_ofNat, Nat.mod_eq_of_lt (by omega)]
  omega

/-- The register field is a multiple of 4 below 64 and names its register (rule R76). -/
theorem chanRegCode_spec (r : ChanReg) :
    (chanRegCode r).toNat < 64 ∧ (chanRegCode r).toNat % 4 = 0 ∧ chanRegOf (chanRegCode r) = some r := by
  cases r <;> decide

/-- The offset of a register of one of at most 16 channels (rule R76). -/
theorem chanOff_toNat {c : Nat} (r : ChanReg) (h : c < 16) :
    (chanOff c r).toNat = c * 64 + (chanRegCode r).toNat := by
  have := chanRegCode_spec r
  simp only [chanOff, BitVec.toNat_ofNat, Config.chStride]
  omega

/-- An offset's fields by division (rule R74). -/
theorem off_fields (off : BitVec 12) : offChan off = off.toNat / 64 ∧ (offReg off).toNat = off.toNat % 64 := by
  have := off.isLt
  simp only [offChan, offReg, BitVec.extractLsb'_toNat, Nat.shiftRight_eq_div_pow]
  omega

/-- The offset of a register of an existing channel selects that register, never the abort register (rules R76, R77). -/
theorem regSel_chanOff {p : Params} (hp : p.Valid) {c : Nat} (r : ChanReg) (h : c < p.nch) :
    regSel p (chanOff c r) = some (.chan c r) := by
  have hn := hp.nch_le
  have ho := chanOff_toNat r (show c < 16 by omega)
  have hc := chanRegCode_spec r
  have h1 : chanOff c r ≠ Config.abortOff := by
    intro e
    have := congrArg BitVec.toNat e
    have h444 : Config.abortOff.toNat = 0x444 := rfl
    omega
  have h2 : offChan (chanOff c r) = c := by rw [(off_fields _).1, ho]; omega
  have h3 : offReg (chanOff c r) = chanRegCode r := by
    apply BitVec.eq_of_toNat_eq; rw [(off_fields _).2, ho]; omega
  unfold regSel
  rw [if_neg h1, h2, if_pos h, h3, hc.2.2]; rfl

/-- Alignment as a remainder (rule R57). -/
theorem aligned_iff (a : Word) : aligned a = true ↔ a.toNat % 4 = 0 := by simp [aligned]

/-- An address of the block by its offset (rules R51, R75). -/
theorem dmaOff_of_toNat {p : Params} (hp : p.Valid) {a : Word} {off : Nat} (ha : a.toNat = p.dmaBase.toNat + off)
    (ho : off < 4096) : dmaOff p a = BitVec.ofNat 12 off ∧ inDma p a = true := by
  have hb := hp.dmaBase_aligned
  simp only [Config.dmaSize] at hb
  have h1 := p.dmaBase.isLt
  have h2 := a.isLt
  constructor
  · apply BitVec.eq_of_toNat_eq
    simp only [dmaOff, BitVec.toNat_setWidth, BitVec.toNat_sub, BitVec.toNat_ofNat]
    have : (2 ^ 32 - p.dmaBase.toNat + a.toNat) % 2 ^ 32 = off := by
      rw [ha, show 2 ^ 32 - p.dmaBase.toNat + (p.dmaBase.toNat + off) = off + 2 ^ 32 from by omega,
        Nat.add_mod_right, Nat.mod_eq_of_lt (by omega)]
    rw [this]
  · simp only [inDma, Bool.and_eq_true, decide_eq_true_eq]
    simp only [Config.dmaSize]
    omega

/-- The converse of `regSel_chanOff` for addresses: what an address of the block selects, it is the address of (rules R75,
R76). -/
theorem regSel_address {p : Params} {a : Word} {c : Nat} {r : ChanReg} (hd : inDma p a = true)
    (h : regSel p (dmaOff p a) = some (.chan c r)) :
    c < p.nch ∧ a.toNat = p.dmaBase.toNat + c * 0x40 + (chanRegCode r).toNat := by
  simp only [inDma, Bool.and_eq_true, decide_eq_true_eq] at hd
  simp only [Config.dmaSize] at hd
  have ho : (dmaOff p a).toNat = a.toNat - p.dmaBase.toNat := by
    simp only [dmaOff, BitVec.toNat_setWidth, BitVec.toNat_sub]
    have h1 := a.isLt
    have h2 := p.dmaBase.isLt
    rw [show 2 ^ 32 - p.dmaBase.toNat + a.toNat = (a.toNat - p.dmaBase.toNat) + 2 ^ 32 from by omega,
      Nat.add_mod_right, Nat.mod_eq_of_lt (show a.toNat - p.dmaBase.toNat < 2 ^ 32 from by omega),
      Nat.mod_eq_of_lt (by omega)]
  generalize dmaOff p a = off at h ho
  unfold regSel at h
  split at h
  · cases h
  · split at h
    · rename_i hc
      obtain ⟨x, hx, e⟩ := Option.map_eq_some_iff.mp h
      cases e
      have h3 : offReg off = chanRegCode r := by
        unfold chanRegOf at hx
        repeat' split at hx
        all_goals first
          | (rename_i e; cases hx; exact e)
          | cases hx
      have h2 := (off_fields off).2
      rw [h3] at h2
      refine ⟨hc, ?_⟩
      rw [h2, (off_fields off).1]
      omega
    · cases h

/-- The FIFO port is aligned and outside the block (rules R51, R79; log 4). -/
theorem fifoAddr_route {p : Params} (hp : p.Valid) : aligned p.fifoAddr = true ∧ inDma p p.fifoAddr = false := by
  refine ⟨(aligned_iff _).mpr hp.fifoAddr_aligned, ?_⟩
  have := hp.fifoAddr_outside
  rw [Bool.eq_false_iff]
  intro h
  simp only [inDma, Bool.and_eq_true, decide_eq_true_eq] at h
  omega

/-- An aligned word of `RAM` is outside the block and is not the FIFO port (rule R51). -/
theorem inRam_route {p : Params} (hp : p.Valid) {a : Word} (h : inRam p a = true) :
    inDma p a = false ∧ a ≠ p.fifoAddr := by
  simp only [inRam, List.any_eq_true, Bool.and_eq_true, decide_eq_true_eq] at h
  obtain ⟨r, hr, h1, h2⟩ := h
  refine ⟨?_, ?_⟩
  · rw [Bool.eq_false_iff]
    intro hd
    simp only [inDma, Bool.and_eq_true, decide_eq_true_eq] at hd
    have := hp.ram_outside_dma r hr
    omega
  · rintro rfl
    have := hp.ram_outside_fifo r hr
    omega

/-- The parts of a BUSOP word (rule R74). -/
theorem busopWord_parts (w : Bool) (off : BitVec 12) :
    (busopWord w off).getLsbD 12 = w ∧ (busopWord w off).setWidth 12 = off := by
  constructor
  · cases w <;> simp only [busopWord, BitVec.getLsbD_append] <;> rfl
  · apply BitVec.eq_of_getLsbD_eq
    intro i hi
    simp only [busopWord, BitVec.getLsbD_setWidth, BitVec.getLsbD_append]
    simp [hi]

/-- The parts of a BUSADDR word (rule R80). -/
theorem busaddrWord_parts (w : Bool) (a : Word) :
    (busaddrWord w a).getLsbD 32 = w ∧ (busaddrWord w a).setWidth 32 = a := by
  constructor
  · cases w <;> simp only [busaddrWord, BitVec.getLsbD_append] <;> rfl
  · apply BitVec.eq_of_getLsbD_eq
    intro i hi
    simp only [busaddrWord, BitVec.getLsbD_setWidth, BitVec.getLsbD_append]
    simp [hi]

end Sys2Proof.Machine
end

