-- ==== Sys2Proof/Laws/PerInstr.lean ====
section
/-! SUPPORT. The rows of spec/opcode_table.json, and that the encoder's words lie in their rows: a family of lemmas, one for
each operation. -/

namespace Sys2Proof.Laws

open Machine

/-- The formats of spec/opcode_table.json. -/
inductive Format where
  | busop
  | busaddr
  | hostact
  | hwstep
  | encoder
  deriving DecidableEq, Repr

/-- A row: its format, its mask and its match. -/
structure Row where
  format : Format
  mask : Nat
  pattern : Nat
  deriving DecidableEq, Repr

/-- The row of an operation; the rows of the FIFO port hold `FIFO_ADDR`. -/
def tableRow (p : Params) : Instr → Row
  | .wrReadAddr _ _ => ⟨.busop, 0x103F, 0x1000⟩
  | .wrWriteAddr _ _ => ⟨.busop, 0x103F, 0x1004⟩
  | .wrTransCount _ _ => ⟨.busop, 0x103F, 0x1008⟩
  | .wrCtrlTrig _ _ => ⟨.busop, 0x103F, 0x100C⟩
  | .wrCtrl _ _ => ⟨.busop, 0x103F, 0x1010⟩
  | .rdReadAddr _ => ⟨.busop, 0x103F, 0x0000⟩
  | .rdWriteAddr _ => ⟨.busop, 0x103F, 0x0004⟩
  | .rdTransCount _ => ⟨.busop, 0x103F, 0x0008⟩
  | .rdCtrlTrig _ => ⟨.busop, 0x103F, 0x000C⟩
  | .rdCtrl _ => ⟨.busop, 0x103F, 0x0010⟩
  | .wrAbort _ => ⟨.busop, 0x1FFF, 0x1444⟩
  | .rdAbort => ⟨.busop, 0x1FFF, 0x0444⟩
  | .rdFifo => ⟨.busaddr, 0x1FFFFFFFF, p.fifoAddr.toNat⟩
  | .wrFifo _ => ⟨.busaddr, 0x1FFFFFFFF, 0x100000000 + p.fifoAddr.toNat⟩
  | .rdMem _ => ⟨.busaddr, 0x100000000, 0x000000000⟩
  | .wrMem _ _ => ⟨.busaddr, 0x100000000, 0x100000000⟩
  | .samplerStart => ⟨.hostact, 0xF, 0x1⟩
  | .samplerStop => ⟨.hostact, 0xF, 0x2⟩
  | .waveStart => ⟨.hostact, 0xF, 0x3⟩
  | .waveStop => ⟨.hostact, 0xF, 0x4⟩
  | .xfer _ => ⟨.hwstep, 0xFF, 0x10⟩
  | .start _ => ⟨.hwstep, 0xFF, 0x11⟩
  | .abortDone => ⟨.hwstep, 0xFF, 0x12⟩
  | .sampleHigh => ⟨.hwstep, 0xFF, 0x13⟩
  | .sampleIn _ => ⟨.hwstep, 0xFF, 0x14⟩
  | .sampleLow => ⟨.hwstep, 0xFF, 0x15⟩
  | .waveStep => ⟨.hwstep, 0xFF, 0x16⟩
  | .enc _ _ _ _ _ _ _ _ _ _ => ⟨.encoder, 0xFFC001C0, 0x00000000⟩

/-- The format and the number of an operation word. -/
def wordNumber : Command → Format × Nat
  | .busop op _ => (.busop, op.toNat)
  | .busaddr op _ => (.busaddr, op.toNat)
  | .hostact code => (.hostact, code.toNat)
  | .hwstep label _ => (.hwstep, label.toNat)
  | .encoder w _ => (.encoder, w.toNat)

/-- A word lies in a row. -/
def Row.holds (r : Row) (c : Command) : Prop :=
  (wordNumber c).1 = r.format ∧ (wordNumber c).2 &&& r.mask = r.pattern

/-- The word the encoder gives an existing operation lies in that operation's row of the table. -/
def TableRow.Statement (i : Instr) : Prop :=
  ∀ p : Params, p.Valid → i.wellFormed p = true → (tableRow p i).holds (encode p i)

/-- The number of a BUSOP word (rule R74). -/
theorem busopWord_toNat (w : Bool) (off : BitVec 12) : (busopWord w off).toNat = w.toNat * 4096 + off.toNat := by
  have := off.isLt
  simp only [busopWord, BitVec.toNat_append, BitVec.toNat_ofBool]
  exact shiftLeft_or_eq_add _ _ 12 (by omega)

/-- The number of a BUSADDR word (rule R80). -/
theorem busaddrWord_toNat (w : Bool) (a : Word) : (busaddrWord w a).toNat = w.toNat * 2 ^ 32 + a.toNat := by
  have := a.isLt
  simp only [busaddrWord, BitVec.toNat_append, BitVec.toNat_ofBool]
  exact shiftLeft_or_eq_add _ _ 32 (by omega)

/-- The register rows: the word of channel `c`'s register under mask `0x103F` does not depend on the channel (rule R76). -/
theorem busop_row (w : Bool) (r : ChanReg) {c : Nat} (h : c < 16) :
    (busopWord w (chanOff c r)).toNat &&& 0x103F = w.toNat * 4096 + (chanRegCode r).toNat := by
  rw [busopWord_toNat, chanOff_toNat r h]
  have : ∀ (w : Bool) (c : Fin 16), (w.toNat * 4096 + (c.val * 64 + (chanRegCode r).toNat)) &&& 0x103F
      = w.toNat * 4096 + (chanRegCode r).toNat := by cases r <;> decide
  exact this w ⟨c, h⟩

/-- The bits below `k` of a number, by a mask. -/
theorem and_mask_eq (n k : Nat) (h : n < 2 ^ k) : n &&& (2 ^ k - 1) = n := by
  rw [Nat.and_two_pow_sub_one_eq_mod, Nat.mod_eq_of_lt h]

/-- A row of the channel registers. -/
theorem chan_row {p : Params} (hp : p.Valid) {c : Nat} (h : decide (c < p.nch) = true) (w : Bool) (r : ChanReg) (d : Word) :
    Row.holds ⟨.busop, 0x103F, w.toNat * 4096 + (chanRegCode r).toNat⟩ (.busop (busopWord w (chanOff c r)) d) :=
  ⟨rfl, busop_row w r (Nat.lt_of_lt_of_le (of_decide_eq_true h) hp.nch_le)⟩

theorem TableRow.wrReadAddr (c : Nat) (v : Word) : TableRow.Statement (.wrReadAddr c v) :=
  fun _ hp h => chan_row hp h true .readAddr v
theorem TableRow.wrWriteAddr (c : Nat) (v : Word) : TableRow.Statement (.wrWriteAddr c v) :=
  fun _ hp h => chan_row hp h true .writeAddr v
theorem TableRow.wrTransCount (c : Nat) (v : Word) : TableRow.Statement (.wrTransCount c v) :=
  fun _ hp h => chan_row hp h true .transCount v
theorem TableRow.wrCtrlTrig (c : Nat) (v : Word) : TableRow.Statement (.wrCtrlTrig c v) :=
  fun _ hp h => chan_row hp h true .ctrlTrig v
theorem TableRow.wrCtrl (c : Nat) (v : Word) : TableRow.Statement (.wrCtrl c v) :=
  fun _ hp h => chan_row hp h true .ctrl v
theorem TableRow.rdReadAddr (c : Nat) : TableRow.Statement (.rdReadAddr c) :=
  fun _ hp h => chan_row hp h false .readAddr 0#32
theorem TableRow.rdWriteAddr (c : Nat) : TableRow.Statement (.rdWriteAddr c) :=
  fun _ hp h => chan_row hp h false .writeAddr 0#32
theorem TableRow.rdTransCount (c : Nat) : TableRow.Statement (.rdTransCount c) :=
  fun _ hp h => chan_row hp h false .transCount 0#32
theorem TableRow.rdCtrlTrig (c : Nat) : TableRow.Statement (.rdCtrlTrig c) :=
  fun _ hp h => chan_row hp h false .ctrlTrig 0#32
theorem TableRow.rdCtrl (c : Nat) : TableRow.Statement (.rdCtrl c) :=
  fun _ hp h => chan_row hp h false .ctrl 0#32
theorem TableRow.wrAbort (v : Word) : TableRow.Statement (.wrAbort v) := fun p _ _ => ⟨rfl, by simp only [encode, wordNumber, tableRow]; decide⟩
theorem TableRow.rdAbort : TableRow.Statement .rdAbort := fun p _ _ => ⟨rfl, by simp only [encode, wordNumber, tableRow]; decide⟩
theorem TableRow.rdFifo : TableRow.Statement .rdFifo := by
  intro p _ _
  have := p.fifoAddr.isLt
  have h := and_mask_eq (busaddrWord false p.fifoAddr).toNat 33 (busaddrWord false p.fifoAddr).isLt
  rw [busaddrWord_toNat] at h
  refine ⟨rfl, ?_⟩
  simp only [encode, wordNumber, busaddrWord_toNat, tableRow]
  simpa using h
theorem TableRow.wrFifo (v : Word) : TableRow.Statement (.wrFifo v) := by
  intro p _ _
  have h := and_mask_eq (busaddrWord true p.fifoAddr).toNat 33 (busaddrWord true p.fifoAddr).isLt
  rw [busaddrWord_toNat] at h
  refine ⟨rfl, ?_⟩
  simp only [encode, wordNumber, busaddrWord_toNat, tableRow]
  simpa using h
/-- Bit 32 of a BUSADDR word (rule R80). -/
theorem busaddr_row (w : Bool) (a : Word) : (busaddrWord w a).toNat &&& 0x100000000 = w.toNat * 0x100000000 := by
  have ha := a.isLt
  rw [busaddrWord_toNat, show (0x100000000 : Nat) = 2 ^ 32 from rfl, Nat.and_two_pow, Nat.testBit_eq_decide_div_mod_eq]
  cases w
  · simp [Nat.div_eq_of_lt ha]
  · have : (true.toNat * 2 ^ 32 + a.toNat) / 2 ^ 32 = 1 := by simp only [Bool.toNat_true]; omega
    rw [this]; rfl
theorem TableRow.rdMem (a : Word) : TableRow.Statement (.rdMem a) := fun _ _ _ => ⟨rfl, busaddr_row false a⟩
theorem TableRow.wrMem (a v : Word) : TableRow.Statement (.wrMem a v) := fun _ _ _ => ⟨rfl, busaddr_row true a⟩
theorem TableRow.samplerStart : TableRow.Statement .samplerStart := fun p _ _ => ⟨rfl, by simp only [encode, wordNumber, tableRow]; decide⟩
theorem TableRow.samplerStop : TableRow.Statement .samplerStop := fun p _ _ => ⟨rfl, by simp only [encode, wordNumber, tableRow]; decide⟩
theorem TableRow.waveStart : TableRow.Statement .waveStart := fun p _ _ => ⟨rfl, by simp only [encode, wordNumber, tableRow]; decide⟩
theorem TableRow.waveStop : TableRow.Statement .waveStop := fun p _ _ => ⟨rfl, by simp only [encode, wordNumber, tableRow]; decide⟩
theorem TableRow.xfer (c : Nat) : TableRow.Statement (.xfer c) := fun p _ _ => ⟨rfl, by simp only [encode, wordNumber, tableRow]; decide⟩
theorem TableRow.start (c : Nat) : TableRow.Statement (.start c) := fun p _ _ => ⟨rfl, by simp only [encode, wordNumber, tableRow]; decide⟩
theorem TableRow.abortDone : TableRow.Statement .abortDone := fun p _ _ => ⟨rfl, by simp only [encode, wordNumber, tableRow]; decide⟩
theorem TableRow.sampleHigh : TableRow.Statement .sampleHigh := fun p _ _ => ⟨rfl, by simp only [encode, wordNumber, tableRow]; decide⟩
theorem TableRow.sampleIn (s : Sample) : TableRow.Statement (.sampleIn s) := fun p _ _ => ⟨rfl, by simp only [encode, wordNumber, tableRow]; decide⟩
theorem TableRow.sampleLow : TableRow.Statement .sampleLow := fun p _ _ => ⟨rfl, by simp only [encode, wordNumber, tableRow]; decide⟩
theorem TableRow.waveStep : TableRow.Statement .waveStep := fun p _ _ => ⟨rfl, by simp only [encode, wordNumber, tableRow]; decide⟩
theorem TableRow.enc (q treq chain rs ring iw ir size hp en : Nat) :
    TableRow.Statement (.enc q treq chain rs ring iw ir size hp en) := by
  intro p _ _
  refine ⟨rfl, ?_⟩
  have hl := encLegal_low ⟨q, treq, chain, rs, ring, iw, ir, size, hp, en⟩
  have hr : ctrlReservedClear (encPack (EncInputs.low ⟨q, treq, chain, rs, ring, iw, ir, size, hp, en⟩)) = true := by
    rw [ctrlReservedClear_iff, encPack_toNat hl]
    simp only [EncInputs.low]
    constructor <;> omega
  show (encPack (EncInputs.low ⟨q, treq, chain, rs, ring, iw, ir, size, hp, en⟩)).toNat &&& 0xFFC001C0 = 0
  generalize encPack (EncInputs.low ⟨q, treq, chain, rs, ring, iw, ir, size, hp, en⟩) = w at hr
  simp only [ctrlReservedClear, Bool.and_eq_true, beq_iff_eq] at hr
  have hz : w &&& 0xFFC001C0#32 = 0#32 := by
    apply BitVec.eq_of_getLsbD_eq
    intro i hi
    have h1 := congrArg (fun b : BitVec 10 => b.getLsbD (i - 22)) hr.1
    have h2 := congrArg (fun b : BitVec 3 => b.getLsbD (i - 6)) hr.2
    simp only [BitVec.getLsbD_extractLsb', BitVec.getLsbD_zero] at h1 h2
    have hm : ∀ j : Fin 32, (0xFFC001C0#32).getLsbD j.val = true →
        (22 ≤ j.val ∨ (6 ≤ j.val ∧ j.val < 9)) := by decide
    rw [BitVec.getLsbD_and, BitVec.getLsbD_zero]
    cases hb : (0xFFC001C0#32).getLsbD i
    · simp
    · rcases hm ⟨i, hi⟩ hb with h | ⟨h3, h4⟩
      · rw [show 22 + (i - 22) = i from Nat.add_sub_cancel' h] at h1
        simpa [show i - 22 < 10 by omega] using h1
      · rw [show 6 + (i - 6) = i from Nat.add_sub_cancel' h3] at h2
        have h5 : i < 9 := h4
        simpa [show i - 6 < 3 by omega] using h2
  have := congrArg BitVec.toNat hz
  simpa using this

end Sys2Proof.Laws
end

