-- ==== Sys2Proof/Laws/Step.lean ====
section
/-! SUPPORT. What a step can do (rules R37, R216, R217; log 8, log 11). -/

namespace Sys2Proof.Machine

/-- A state with a fault mark takes no step. -/
theorem step_faulted {s : State} {r : Fault} (h : s.fault = some r) : step s = .fault r := by
  unfold step; rw [h]

/-- A state with a refusal mark takes no step. -/
theorem step_refused {s : State} {r : Refusal} (hf : s.fault = none) (h : s.refusal = some r) : step s = .refused r := by
  unfold step; rw [hf, h]

/-- With no turn left the machine idles. -/
theorem step_idle {s : State} (hf : s.fault = none) (hr : s.refusal = none) (ha : s.agenda = []) : step s = .next s := by
  unfold step; rw [hf, hr, ha]

/-- Otherwise the first turn of the agenda is taken and its outcome settled. -/
theorem step_turn {s : State} {x : Turn} {rest : List Turn} (hf : s.fault = none) (hr : s.refusal = none)
    (ha : s.agenda = x :: rest) : step s = settle s (runTurn x (s.setAgenda rest)) := by
  unfold step; rw [hf, hr, ha]

/-- A turn with a word that decodes is the operation's meaning. -/
theorem runTurn_command {s : State} {c : Command} {i : Instr} (h : decode s.params c = .ok i) :
    runTurn (.command c) s = exec i s := by
  simp only [runTurn, h]

/-- After a read of a bounded poll only the host's program and result change (rules R203, R232). -/
theorem afterBoundedRead_eq (s : State) (k t : Nat) (r : HostReg) (rest : List HostForm) :
    ∃ p x, s.afterBoundedRead k t r rest = s.setHost { s.host with prog := p, result := x } := by
  unfold State.afterBoundedRead
  split
  · exact ⟨rest, s.host.result, rfl⟩
  · cases k with
    | zero => exact ⟨[], some .timeout, rfl⟩
    | succ j => exact ⟨.pollzWithin (j + 1) t r :: rest, s.host.result, rfl⟩

/-- All a step can leave: the state itself when the agenda is empty, what a turn leaves (a
session that is over forgotten), or the state before the step with a
mark set. -/
theorem step_cases {s t : State} (h : step s = .next t) :
    s.fault = none ∧ s.refusal = none ∧
      ((s.agenda = [] ∧ t = s) ∨
        ∃ x rest, s.agenda = x :: rest ∧
          ((∃ u, runTurn x (s.setAgenda rest) = .next u ∧ t = u.closeSession) ∨
            (∃ r, runTurn x (s.setAgenda rest) = .fault r ∧ t = s.setFault (some r)) ∨
            (∃ r, runTurn x (s.setAgenda rest) = .refused r ∧ t = s.setRefusal (some r)))) := by
  cases hf : s.fault with
  | some r => rw [step_faulted hf] at h; cases h
  | none =>
    cases hr : s.refusal with
    | some r => rw [step_refused hf hr] at h; cases h
    | none =>
      refine ⟨rfl, rfl, ?_⟩
      cases ha : s.agenda with
      | nil => rw [step_idle hf hr ha] at h; cases h; exact .inl ⟨rfl, rfl⟩
      | cons x rest =>
        rw [step_turn hf hr ha] at h
        refine .inr ⟨x, rest, rfl, ?_⟩
        rcases settle_cases s (runTurn x (s.setAgenda rest)) with ⟨u, h1, h2⟩ | ⟨r, h1, h2⟩ | ⟨r, h1, h2⟩
        · rw [h2] at h; cases h; exact .inl ⟨u, h1, rfl⟩
        · rw [h2] at h; cases h; exact .inr (.inl ⟨r, h1, rfl⟩)
        · rw [h2] at h; cases h; exact .inr (.inr ⟨r, h1, rfl⟩)

/-- What a turn of the host can leave: the state with only the host's own part changed, the state itself, or what one operation
leaves with the host's own part changed (rules R85, R191). -/
theorem hostTurn_cases {s t : State} (h : hostTurn s = .next t) :
    (∃ x, t = s.setHost x) ∨ (t = s) ∨ ∃ i u x, exec i s = .next u ∧ t = u.setHost x := by
  have self : ∀ u : State, u = u.setHost u.host := fun _ => rfl
  have keep : ∀ (u : State) k, ∃ x, u.keepValue k = u.setHost x := fun u k => by
    unfold State.keepValue; split
    · exact ⟨_, rfl⟩
    · exact ⟨_, rfl⟩
  unfold hostTurn at h
  split at h
  · cases h; exact .inr (.inl rfl)
  · rename_i f rest hf
    unfold runForm at h
    split at h
    · obtain ⟨v, -, h⟩ := andThen_eq_next.mp h
      obtain ⟨i, -, h⟩ := andThen_eq_next.mp h
      obtain ⟨u, hu, h⟩ := andThen_eq_next.mp h
      cases h; exact .inr (.inr ⟨i, u, _, hu, rfl⟩)
    · obtain ⟨u, hu, h⟩ := andThen_eq_next.mp h
      obtain ⟨i, -, hu⟩ := andThen_eq_next.mp hu
      cases h
      obtain ⟨x, hx⟩ := keep u _
      rw [hx]; exact .inr (.inr ⟨i, u, _, hu, rfl⟩)
    · obtain ⟨u, hu, h⟩ := andThen_eq_next.mp h
      obtain ⟨i, -, hu⟩ := andThen_eq_next.mp hu
      cases h
      split
      · exact .inr (.inr ⟨i, u, _, hu, rfl⟩)
      · exact .inr (.inr ⟨i, u, u.host, hu, rfl⟩)
    · cases h; exact .inl ⟨_, rfl⟩
    · obtain ⟨u, hu, h⟩ := andThen_eq_next.mp h
      obtain ⟨i, -, hu⟩ := andThen_eq_next.mp hu
      cases h
      obtain ⟨p, x, e⟩ := afterBoundedRead_eq (u.keepValue _) _ _ _ rest
      rw [e]
      obtain ⟨y, hy⟩ := keep u _
      rw [hy]
      exact .inr (.inr ⟨i, u, _, hu, rfl⟩)
    all_goals first
      | (obtain ⟨u, hu, h⟩ := andThen_eq_next.mp h
         cases h
         exact .inr (.inr ⟨_, u, _, hu, rfl⟩))
      | (obtain ⟨v, -, h⟩ := andThen_eq_next.mp h
         cases h; exact .inl ⟨_, rfl⟩)
      | (cases h; exact .inl ⟨_, rfl⟩)

/-- What a step can leave, by the operation it runs: the state itself, the state with a mark set, or, the agenda one turn shorter,
what one operation or none leaves with the host's own part changed and a session that is over forgotten. -/
theorem step_exec_cases {s t : State} (h : step s = .next t) :
    t = s ∨ (∃ r, t = s.setFault (some r)) ∨ (∃ r, t = s.setRefusal (some r)) ∨
      ∃ rest, (∃ x, t = ((s.setAgenda rest).setHost x).closeSession) ∨
        ∃ i u x, exec i (s.setAgenda rest) = .next u ∧ t = (u.setHost x).closeSession := by
  obtain ⟨-, -, h⟩ := step_cases h
  rcases h with ⟨-, rfl⟩ | ⟨x, rest, -, ⟨t, hr, rfl⟩ | ⟨r, -, rfl⟩ | ⟨r, -, rfl⟩⟩
  · exact .inl rfl
  · refine .inr (.inr (.inr ⟨rest, ?_⟩))
    clear h
    have h := hr
    unfold runTurn at h
    split at h
    · split at h
      · exact .inr ⟨_, t, t.host, h, rfl⟩
      · cases h
    · rcases hostTurn_cases h with ⟨x, rfl⟩ | rfl | h
      · exact .inl ⟨x, rfl⟩
      · exact .inl ⟨s.host, rfl⟩
      · obtain ⟨i, u, x, h', rfl⟩ := h; exact .inr ⟨i, u, x, h', rfl⟩
  · exact .inr (.inl ⟨r, rfl⟩)
  · exact .inr (.inr (.inl ⟨r, rfl⟩))

end Sys2Proof.Machine
end

