-- ==== Sys2Proof/Laws/Written.lean ====
section
/-! SUPPORT. No step writes UNWRITTEN back (rule R21): a register that holds a word holds one after every step, so that a run
from `State.reset` never reads an UNWRITTEN register. -/

namespace Sys2Proof.Machine

/-- Each register of `k` that holds a word holds one in `k'`. -/
structure Channel.StaysWritten (k k' : Channel) : Prop where
  readAddr : k.readAddr ≠ .unwritten → k'.readAddr ≠ .unwritten
  writeAddr : k.writeAddr ≠ .unwritten → k'.writeAddr ≠ .unwritten
  countReload : k.countReload ≠ .unwritten → k'.countReload ≠ .unwritten
  countLive : k.countLive ≠ .unwritten → k'.countLive ≠ .unwritten

theorem Channel.StaysWritten.refl (k : Channel) : k.StaysWritten k := ⟨id, id, id, id⟩

/-- Every channel register that holds a word in `s` holds one in `t`, and `t` has the channels and the parameters of `s`. -/
structure State.StaysWritten (s t : State) : Prop where
  params : t.params = s.params
  length : t.ch.length = s.ch.length
  chan : ∀ c, (s.chan c).StaysWritten (t.chan c)

namespace State.StaysWritten

theorem of_ch {s t : State} (h : t.ch = s.ch) (hp : t.params = s.params) : s.StaysWritten t :=
  ⟨hp, by rw [h], fun c => by unfold State.chan; rw [h]; exact .refl _⟩

theorem refl (s : State) : s.StaysWritten s := of_ch rfl rfl

theorem trans {s t u : State} (h : s.StaysWritten t) (g : t.StaysWritten u) : s.StaysWritten u :=
  ⟨g.1.trans h.1, g.2.trans h.2, fun c =>
    ⟨fun x => (g.3 c).1 ((h.3 c).1 x), fun x => (g.3 c).2 ((h.3 c).2 x), fun x => (g.3 c).3 ((h.3 c).3 x),
      fun x => (g.3 c).4 ((h.3 c).4 x)⟩⟩

theorem setChan (s : State) (c : Nat) (k : Channel) (h : (s.chan c).StaysWritten k) : s.StaysWritten (s.setChan c k) := by
  by_cases hc : c < s.ch.length
  · refine ⟨rfl, by simp, fun d => ?_⟩
    rw [chan_setChan s c k d hc]
    split
    · rename_i e; subst e; exact h
    · exact .refl _
  · rw [setChan_of_le s c k (by omega)]; exact refl s

theorem trigger {m : Master} {c : Nat} {s t : State} (h : Machine.trigger m c s = .next t) : s.StaysWritten t := by
  obtain ⟨ra, buf, n, -, -, -, -, rfl⟩ := trigger_eq_next.mp h
  refine (setChan s c { s.chan c with countLive := .word n, busy := true } ⟨id, id, id, nofun⟩).trans (of_ch ?_ ?_) <;> simp

theorem chanWrite {m : Master} {c : Nat} {r : ChanReg} {v : Word} {s t : State} (h : Machine.chanWrite m c r v s = .next t) :
    s.StaysWritten t := by
  rcases chanStore_cases (chanWrite_eq_next.mp h).2.2.2.2 with
    ⟨-, rfl⟩ | ⟨-, rfl⟩ | ⟨-, rfl⟩ | ⟨-, -, rfl⟩ | ⟨-, -, -, h⟩
  · exact setChan _ _ _ (by exact ⟨nofun, id, id, id⟩)
  · exact setChan _ _ _ (by exact ⟨id, nofun, id, id⟩)
  · exact setChan _ _ _ (by exact ⟨id, id, nofun, id⟩)
  · exact setChan _ _ _ (by exact ⟨id, id, id, id⟩)
  · exact (setChan _ _ _ (by exact ⟨id, id, id, id⟩)).trans (trigger h)

theorem busRead32 {m : Master} {a v : Word} {s t : State} (h : Machine.busRead32 m a s = .next (v, t)) : s.StaysWritten t := by
  rcases busRead32_cases h with rfl | ⟨-, _, -, rfl⟩ | ⟨-, rfl, -⟩ <;> exact of_ch rfl rfl

theorem busWrite32 {m : Master} {a v : Word} {s t : State} (h : Machine.busWrite32 m a v s = .next t) : s.StaysWritten t := by
  rcases busWrite32_cases h with rfl | ⟨_, _, -, -, h⟩ | ⟨-, -, rfl⟩
  · exact of_ch rfl rfl
  · exact chanWrite h
  · exact of_ch rfl rfl

theorem raiseIrq (c : Nat) (s : State) : s.StaysWritten (Machine.raiseIrq c s) := by
  rcases raiseIrq_cases c s with h | h <;> rw [h]
  · exact refl s
  · exact setChan _ _ _ (by exact ⟨id, id, id, id⟩)

theorem complete {c : Nat} {s t : State} (h : Machine.complete c s = .next t) : s.StaysWritten t := by
  rcases complete_cases h with ⟨-, rfl⟩ | ⟨-, u, hu, rfl⟩
  · exact (setChan _ _ _ (by exact ⟨id, id, id, id⟩)).trans (raiseIrq _ _)
  · obtain ⟨-, -, rfl⟩ := chainRequest_eq_next.mp hu
    exact ((setChan _ _ _ (by exact ⟨id, id, id, id⟩)).trans (setChan _ _ _ (by exact ⟨id, id, id, id⟩))).trans (raiseIrq _ _)

theorem advanceAddr {n : Nat} {r : RegVal} (h : r ≠ .unwritten) : Machine.advanceAddr n r ≠ .unwritten := by
  cases r with
  | unwritten => exact absurd rfl h
  | word a => unfold Machine.advanceAddr; dsimp only; split <;> nofun

theorem finishXfer {c : Nat} {w : Word} {s t : State} (h : Machine.finishXfer c w s = .next t) : s.StaysWritten t := by
  obtain ⟨n, u, -, hu, h⟩ := finishXfer_cases h
  have a : s.StaysWritten u := by rw [hu]; exact setChan _ _ _ (by exact ⟨advanceAddr, advanceAddr, id, nofun⟩)
  rcases h with ⟨-, h⟩ | ⟨-, rfl⟩
  · exact a.trans (complete h)
  · exact a

theorem abortChannels (cs : List Nat) (s : State) : s.StaysWritten (Machine.abortChannels cs s) := by
  induction cs generalizing s with
  | nil => exact refl s
  | cons c t ih =>
    unfold Machine.abortChannels
    split
    · refine trans ?_ (ih _)
      obtain ⟨k, n, hk, e⟩ := abortChannel_cases c s
      rw [e]
      refine (setChan s c k ?_).trans (of_ch rfl rfl)
      rcases hk with ⟨-, _, _, _, rfl⟩ | ⟨-, rfl⟩
      · exact ⟨nofun, nofun, id, nofun⟩
      · exact ⟨id, id, id, id⟩
    · exact ih s

/-- Every operation keeps what is written (rule R21). -/
theorem exec {i : Instr} {s t : State} (h : Machine.exec i s = .next t) : s.StaysWritten t := by
  have read : ∀ {r : Res (Word × State)}, (∀ v u, r = .next (v, u) → s.StaysWritten u) → Machine.deliver r = .next t →
      s.StaysWritten t := fun hr h => by
    obtain ⟨v, u, e, rfl⟩ := deliver_eq_next.mp h
    exact (hr v u e).trans (of_ch rfl rfl)
  have chanRead : ∀ c r, Machine.deliver (chanRead c r s) = .next t → s.StaysWritten t := fun c r =>
    read fun v u hu => by rw [(chanRead_eq_next.mp hu).2.2]; exact refl s
  cases i
  case wrReadAddr c v => exact chanWrite h
  case wrWriteAddr c v => exact chanWrite h
  case wrTransCount c v => exact chanWrite h
  case wrCtrl c v => exact chanWrite h
  case wrCtrlTrig c v => exact chanWrite h
  case rdReadAddr c => exact chanRead c _ h
  case rdWriteAddr c => exact chanRead c _ h
  case rdTransCount c => exact chanRead c _ h
  case rdCtrlTrig c => exact chanRead c _ h
  case rdCtrl c => exact chanRead c _ h
  case wrFifo => cases h
  case rdFifo =>
    refine read (r := fifoRead s) (fun v u hu => ?_) h
    unfold fifoRead at hu
    split at hu
    · cases hu
    · cases hu; exact of_ch rfl rfl
  case rdMem a => exact read (fun _ _ hu => busRead32 hu) h
  case wrMem a v => exact busWrite32 h
  case xfer c =>
    simp only [Machine.exec, execXfer] at h
    split at h
    · obtain ⟨ra, v, u, wa, x, -, h1, -, h2, h3⟩ := xferWord_cases h
      exact ((busRead32 h1).trans (busWrite32 h2)).trans (finishXfer h3)
    · cases h; exact refl _
  case start c =>
    simp only [Machine.exec, execStart] at h
    have a : s.StaysWritten (s.setChan c { s.chan c with pend := false }) := setChan _ _ _ (by exact ⟨id, id, id, id⟩)
    split at h
    · split at h
      · exact a.trans (trigger h)
      · cases h; exact a
    · cases h; exact refl _
  case abortDone =>
    simp only [Machine.exec, execAbortDone] at h
    split at h
    · cases h; exact (abortChannels _ s).trans (of_ch rfl rfl)
    · cases h; exact refl _
  case sampleIn x =>
    simp only [Machine.exec, execSampleIn] at h
    split at h <;> (try split at h) <;> (cases h; exact of_ch rfl rfl)
  case waveStep =>
    simp only [Machine.exec, execWaveStep] at h
    split at h <;> (try split at h) <;> (cases h; exact of_ch rfl rfl)
  case enc => simp only [Machine.exec, execEnc] at h; split at h <;> cases h; exact of_ch rfl rfl
  case samplerStart => simp only [Machine.exec, execSamplerStart] at h; split at h <;> (cases h; exact of_ch rfl rfl)
  case waveStart => simp only [Machine.exec, execWaveStart] at h; split at h <;> (cases h; exact of_ch rfl rfl)
  case sampleHigh => simp only [Machine.exec, execSampleHigh] at h; split at h <;> (cases h; exact of_ch rfl rfl)
  case sampleLow => simp only [Machine.exec, execSampleLow] at h; split at h <;> (cases h; exact of_ch rfl rfl)
  all_goals (cases h; exact of_ch rfl rfl)

/-- Every step keeps what is written: no step writes UNWRITTEN back (rule R21). -/
theorem step {s t : State} (h : Machine.step s = .next t) : s.StaysWritten t := by
  rcases step_exec_cases h with rfl | ⟨r, rfl⟩ | ⟨r, rfl⟩ | ⟨rest, ⟨x, rfl⟩ | ⟨i, u, x, hu, rfl⟩⟩
  · exact refl _
  · exact of_ch rfl rfl
  · exact of_ch rfl rfl
  · exact of_ch (by simp) (by simp)
  · exact ((of_ch rfl rfl : s.StaysWritten (s.setAgenda rest)).trans (exec hu)).trans (of_ch (by simp) (by simp))

end State.StaysWritten

/-- Every address and count register of the block holds a word. -/
def State.RegistersWritten (s : State) : Prop :=
  ∀ c, c < s.params.nch → (s.chan c).readAddr ≠ .unwritten ∧ (s.chan c).writeAddr ≠ .unwritten ∧
    (s.chan c).countReload ≠ .unwritten ∧ (s.chan c).countLive ≠ .unwritten

/-- Every register holds a word at reset (rule R235, its last part; log 6). -/
theorem reset_registersWritten : State.reset.RegistersWritten := fun c h => by
  rw [State.reset, resetZero_chan Params.default h]; exact ⟨nofun, nofun, nofun, nofun⟩

/-- Every step keeps every register holding a word. -/
theorem step_registersWritten {s t : State} (h : s.RegistersWritten) (hs : step s = .next t) : t.RegistersWritten := by
  have k := State.StaysWritten.step hs
  intro c hc
  rw [k.params] at hc
  obtain ⟨h1, h2, h3, h4⟩ := h c hc
  exact ⟨(k.chan c).readAddr h1, (k.chan c).writeAddr h2, (k.chan c).countReload h3, (k.chan c).countLive h4⟩

/-- In such a state a read of an existing channel register answers a value: none raises `Fault(Unwritten)`. -/
theorem chanRead_of_registersWritten {s : State} (h : s.RegistersWritten) {c : Nat} (hc : c < s.params.nch) (r : ChanReg) :
    ∃ v, chanRead c r s = .next (v, s) := by
  obtain ⟨h1, h2, -, h4⟩ := h c hc
  have need : ∀ {x : RegVal}, x ≠ .unwritten → ∃ v, needWord x = .next v := fun {x} hx => by
    cases x with
    | unwritten => exact absurd rfl hx
    | word v => exact ⟨v, rfl⟩
  have load : ∃ v, chanLoad c r s = .next v := by
    cases r
    · exact need h1
    · exact need h2
    · exact need h4
    · exact ⟨_, rfl⟩
    · exact ⟨_, rfl⟩
  exact load.imp fun v hv => chanRead_eq_next.mpr ⟨hc, hv, rfl⟩

end Sys2Proof.Machine
end

