-- ==== Sys2Proof/Tests/Slice0.lean ====
section
/-! SUPPORT. Tests: the WellFormed smoke test, words written out from the encoding rules, vectors of 95_test_vectors.md, and
for each statement with hypotheses a state that meets them. -/

namespace Sys2Proof.Tests

open Machine Safety

/-! ## Helpers -/

/-- The defaults of rule R6 with a known waveform pattern (V1) and poll bound. -/
def tp : Params := { Params.default with wavePattern := [true, false], abortRetries := 3 }

/-- The reset state of rule R235's table with those parameters, from which the vectors of 95_test_vectors.md start. -/
def base : State := State.resetWith tp

def nextWith (o : Res State) (f : State → Bool) : Bool :=
  match o with
  | .next t => f t
  | _ => false

def faultOf {α : Type} (o : Res α) : Option Fault :=
  match o with
  | .fault r => some r
  | _ => none

def refusalOf {α : Type} (o : Res α) : Option Refusal :=
  match o with
  | .refused r => some r
  | _ => none

def isNext {α : Type} (o : Res α) : Bool :=
  match o with
  | .next _ => true
  | _ => false

theorem exists_next {α : Type} {o : Res α} (h : isNext o = true) : ∃ t, o = .next t := by
  cases o with
  | next t => exact ⟨t, rfl⟩
  | fault r => cases h
  | refused r => cases h

theorem eq_fault {α : Type} {o : Res α} {r : Fault} (h : faultOf o = some r) : o = .fault r := by
  cases o with
  | next t => cases h
  | fault x => cases h; rfl
  | refused x => cases h

theorem eq_refused {α : Type} {o : Res α} {r : Refusal} (h : refusalOf o = some r) : o = .refused r := by
  cases o with
  | next t => cases h
  | fault x => cases h
  | refused x => cases h; rfl

def decodes (c : Command) (i : Instr) : Bool :=
  match decode tp c with
  | .ok j => decide (j = i)
  | .error _ => false

theorem decode_eq {c : Command} {i : Instr} (h : decodes c i = true) : decode tp c = .ok i := by
  unfold decodes at h
  split at h
  · rename_i j hj; rw [hj, of_decide_eq_true h]
  · cases h

/-- Channel 0 as `startCapture(0x2000_1000, 256)` leaves it, with `n` words left (vector G3). -/
def primary (n : Word) (busy pend : Bool) : Channel :=
  ⟨.word 0x50200020#32, .word 0x20001000#32, .word 256#32, .word n, 0x0022082B#32, busy, pend, false⟩

/-- Channel 1 as `arm(0x2000_0F00, 0)` leaves it (vectors G6, X4). -/
def restart (busy pend : Bool) : Channel :=
  ⟨.word 0x20000F00#32, .word 0x50000004#32, .word 1#32, .word 1#32, 0x003F8009#32, busy, pend, false⟩

/-- A session in progress: the descriptor written, one word in the FIFO. -/
def session (n : Word) : State :=
  { base with
    ch := (base.ch.set 0 (primary n true false)).set 1 (restart false false)
    fifo := [0x01234567#32]
    mem := memWriteWord [] 0x20000F00#32 0x20001000#32
    session := some ⟨0x20001000#32, 256#32⟩ }

/-- `s` with the records of channels 0 and 1 replaced. -/
def pair (s : State) (a b : Channel) : State := { s with ch := (s.ch.set 0 a).set 1 b }

def give (s : State) (x : Turn) : State := { s with agenda := [x] }

theorem tp_valid : tp.Valid := by
  refine ⟨by decide, by decide, by decide, by decide, by decide, by decide, by decide, by decide, by decide, by decide,
    by decide, ?_, ?_⟩ <;> (intro r hr; simp [tp, Params.default] at hr; subst hr; decide)

theorem test_default_parameters_valid : Params.default.Valid := by
  refine ⟨by decide, by decide, by decide, by decide, by decide, by decide, by decide, by decide, by decide, by decide,
    by simp [Params.default], ?_, ?_⟩ <;> (intro r hr; simp [Params.default] at hr; subst hr; decide)

theorem test_reset_memory_canonical : memWf State.reset.mem ∧ State.reset.mem = [] := by decide

/-! ## WellFormed: each check refuses an ill-formed term -/

theorem test_wf_refuses_writes_of_channel_12 :
    Instr.wellFormed tp (.wrReadAddr 12 0) = false ∧ Instr.wellFormed tp (.wrWriteAddr 12 0) = false ∧
      Instr.wellFormed tp (.wrTransCount 12 0) = false ∧ Instr.wellFormed tp (.wrCtrlTrig 12 0) = false ∧
      Instr.wellFormed tp (.wrCtrl 12 0) = false := by decide

theorem test_wf_refuses_reads_of_channel_12 :
    Instr.wellFormed tp (.rdReadAddr 12) = false ∧ Instr.wellFormed tp (.rdWriteAddr 12) = false ∧
      Instr.wellFormed tp (.rdTransCount 12) = false ∧ Instr.wellFormed tp (.rdCtrlTrig 12) = false ∧
      Instr.wellFormed tp (.rdCtrl 12) = false := by decide

theorem test_wf_refuses_steps_of_channel_12 :
    Instr.wellFormed tp (.xfer 12) = false ∧ Instr.wellFormed tp (.start 12) = false := by decide

theorem test_wf_refuses_register_and_port_addresses_as_memory :
    Instr.wellFormed tp (.rdMem 0x50000FFC#32) = false ∧ Instr.wellFormed tp (.wrMem 0x50000000#32 0) = false ∧
      Instr.wellFormed tp (.rdMem 0x50200020#32) = false ∧ Instr.wellFormed tp (.wrMem 0x50200020#32 0) = false := by
  decide

/-! ## Decoding: words written out from rules R70, R74, R80, R81 and R82, one for each row -/

theorem test_decode_channel_writes :
    decodes (.busop 0b1000000000000#13 7#32) (.wrReadAddr 0 7#32) ∧
      decodes (.busop 0b1000001000100#13 7#32) (.wrWriteAddr 1 7#32) ∧
      decodes (.busop 0b1001011001000#13 7#32) (.wrTransCount 11 7#32) ∧
      decodes (.busop 0b1000000001100#13 7#32) (.wrCtrlTrig 0 7#32) ∧
      decodes (.busop 0b1000001010000#13 7#32) (.wrCtrl 1 7#32) := by decide

theorem test_decode_channel_reads :
    decodes (.busop 0b0000000000000#13 0#32) (.rdReadAddr 0) ∧
      decodes (.busop 0b0000001000100#13 0#32) (.rdWriteAddr 1) ∧
      decodes (.busop 0b0001011001000#13 0#32) (.rdTransCount 11) ∧
      decodes (.busop 0b0000000001100#13 0#32) (.rdCtrlTrig 0) ∧
      decodes (.busop 0b0000001010000#13 0#32) (.rdCtrl 1) := by decide

theorem test_decode_abort :
    decodes (.busop 0b1010001000100#13 3#32) (.wrAbort 3#32) ∧ decodes (.busop 0b0010001000100#13 0#32) .rdAbort := by
  decide

theorem test_decode_port_and_memory :
    decodes (.busaddr 0b001010000001000000000000000100000#33 0#32) .rdFifo ∧
      decodes (.busaddr 0b101010000001000000000000000100000#33 5#32) (.wrFifo 5#32) ∧
      decodes (.busaddr 0b000100000000000000000111100000000#33 0#32) (.rdMem 0x20000F00#32) ∧
      decodes (.busaddr 0b100100000000000000000111100000000#33 9#32) (.wrMem 0x20000F00#32 9#32) := by decide

theorem test_decode_host_actions :
    decodes (.hostact 0b0001#4) .samplerStart ∧ decodes (.hostact 0b0010#4) .samplerStop ∧
      decodes (.hostact 0b0011#4) .waveStart ∧ decodes (.hostact 0b0100#4) .waveStop := by decide

theorem test_decode_hardware_steps :
    decodes (.hwstep 0b00010000#8 2#32) (.xfer 2) ∧ decodes (.hwstep 0b00010001#8 11#32) (.start 11) ∧
      decodes (.hwstep 0b00010010#8 0#32) .abortDone ∧ decodes (.hwstep 0b00010011#8 0#32) .sampleHigh ∧
      decodes (.hwstep 0b00010100#8 0x3FF#32) (.sampleIn 0x3FF#10) ∧ decodes (.hwstep 0b00010101#8 0#32) .sampleLow ∧
      decodes (.hwstep 0b00010110#8 0#32) .waveStep := by decide

theorem test_decode_encoder :
    decodes (.encoder 0b00000000001000100000100000101011#32 ⟨0, 0, 0, 0, 0, 0, 0, 0, 0, 0⟩)
        (.enc 1 4 1 0 0 1 0 2 1 1) ∧
      decodes (.encoder 0b00000000001000100000100000101011#32 ⟨0, 0, 0, 0, 4, 0, 0, 0, 0, 0⟩)
        (.enc 1 4 1 0 8 1 0 2 1 1) := by decide

/-- Vectors A7 and A8, and words in no row. -/
theorem test_decode_refuses_by_name :
    decode tp (.busop 0x0014#13 0#32) = .error (.unmappedRegister 0x014#12) ∧
      decode tp (.busop 0x0300#13 0#32) = .error (.unmappedRegister 0x300#12) ∧
      decode tp (.hostact 0x5#4) = .error (.reservedHostAct 0x5#4) ∧
      decode tp (.hwstep 0x17#8 0#32) = .error (.reservedHwStep 0x17#8) ∧
      decode tp (.hwstep 0x10#8 12#32) = .error (.noChannel 12) ∧
      decode tp (.hwstep 0x14#8 0x400#32) = .error (.sampleRange 0x400#32) ∧
      decode tp (.encoder 0x00400000#32 ⟨0, 0, 0, 0, 0, 0, 0, 0, 0, 0⟩) = .error (.encoderLayout 0x00400000#32) := by
  decide

/-- The table's numbers reach the decoder in every format. -/
theorem test_decode_table_words :
    decodeTableWord 16 0x1004 = some (.wrWriteAddr 0 0#32) ∧ decodeTableWord 40 0x050200020 = some .rdFifo ∧
      decodeTableWord 8 0x3 = some .waveStart ∧ decodeTableWord 8 0x12 = some .abortDone ∧
      decodeTableWord 32 0x003FFE3F = some (.enc 1 63 15 1 1 1 1 3 1 1) := by decide

/-! ## The encoder and the admission checks: vectors N1 to N18 and W1 to W17 -/

theorem test_encoder_words :
    encodeCtrl ⟨1, 4, 1, 0, 0, 1, 0, 2, 1, 1⟩ = some 0x0022082B#32 ∧
      encodeCtrl ⟨1, 63, 15, 1, 1, 1, 1, 3, 1, 1⟩ = some 0x003FFE3F#32 ∧
      encodeCtrl ⟨0, 63, 0, 0, 0, 0, 0, 0, 0, 0⟩ = some 0x001F8000#32 ∧
      encodeCtrl ⟨0, 0, 15, 0, 0, 0, 0, 0, 0, 0⟩ = some 0x00007800#32 ∧
      encodeCtrl ⟨0, 0, 0, 0, 0, 0, 0, 3, 0, 0⟩ = some 0x0000000C#32 ∧
      priCtrl tp = 0x0022082B#32 ∧ priCtrlBurst tp = 0x0022002B#32 ∧ rstCtrl tp = 0x003F8009#32 := by decide

theorem test_encoder_refuses :
    refusalOf (exec (.enc 1 4 1 0 4 1 0 2 1 1) base) = some .encoderRange ∧
      refusalOf (exec (.enc 2 0 0 0 0 0 0 0 0 0) base) = some .encoderRange ∧
      refusalOf (exec (.enc 0 64 0 0 0 0 0 0 0 0) base) = some .encoderRange ∧
      refusalOf (exec (.enc 0 0 16 0 0 0 0 0 0 0) base) = some .encoderRange := by decide

theorem test_admission :
    ctrlRefusal tp 0x0022082B#32 = none ∧ ctrlRefusal tp 0x00000004#32 = none ∧ ctrlRefusal tp 0x00204026#32 = none ∧
      ctrlRefusal tp 0x003FFE3F#32 = some .ctrlRing ∧ ctrlRefusal tp 0x00400000#32 = some .ctrlReserved ∧
      ctrlRefusal tp 0x00000040#32 = some .ctrlReserved ∧ ctrlRefusal tp 0x00000200#32 = some .ctrlRing ∧
      ctrlRefusal tp 0x00220827#32 = some .ctrlDataSize ∧ ctrlRefusal tp 0x0022882B#32 = some .ctrlTreq ∧
      ctrlRefusal tp 0x0022602B#32 = some .ctrlChain ∧ ctrlRefusal tp 0x00400400#32 = some .ctrlReserved := by decide

/-! ## Bus and memory: vectors A1 to A13 -/

theorem test_memory_write_is_little_endian :
    nextWith (exec (.wrMem 0x20000F00#32 0x20001000#32) base) (fun t => t.mem ==
      [(0x20000F00, 0x00#8), (0x20000F01, 0x10#8), (0x20000F02, 0x00#8), (0x20000F03, 0x20#8)]) := by decide

theorem test_memory_read : nextWith (exec (.rdMem 0x20000F00#32) { base with
    mem := [(0x20000F00, 0x00#8), (0x20000F01, 0x10#8), (0x20000F02, 0x00#8), (0x20000F03, 0x20#8)] })
    (fun t => t.hostValue == some 0x20001000#32) := by decide

theorem test_memory_faults :
    faultOf (exec (.rdMem 0x20000F04#32) base) = some .unwritten ∧
      faultOf (exec (.wrMem 0x20000F02#32 1#32) base) = some (.misaligned 0x20000F02#32) ∧
      faultOf (exec (.wrMem 0x10000000#32 1#32) base) = some (.busError 0x10000000#32) ∧
      isNext (exec (.wrMem 0x20041FFC#32 7#32) base) = true := by decide

theorem test_fifo_port :
    refusalOf (exec (.wrFifo 5#32) base) = some .fifoWrite ∧ faultOf (exec .rdFifo base) = some .fifoUnderflow ∧
      nextWith (exec .rdFifo { base with fifo := [1#32, 2#32] })
        (fun t => t.hostValue == some 1#32 && t.fifo == [2#32]) := by decide

theorem test_register_reads_at_reset :
    faultOf (exec (.rdReadAddr 0) base) = some .unwritten ∧
      nextWith (exec (.rdCtrl 0) base) (fun t => t.hostValue == some 0#32) := by decide

/-- The machine's own reset state has 0 in its registers (rule R235, its last part; log 6). -/
theorem test_registers_read_zero_after_reset :
    nextWith (exec (.rdReadAddr 0) State.reset) (fun t => t.hostValue == some 0#32) ∧
      nextWith (exec (.rdWriteAddr 11) State.reset) (fun t => t.hostValue == some 0#32) ∧
      nextWith (exec (.rdTransCount 1) State.reset) (fun t => t.hostValue == some 0#32) ∧
      faultOf (exec (.wrCtrlTrig 0 0x0022082B#32) State.reset) = some (.zeroCount 0) := by decide

/-! ## Channel registers: vectors G1 to G12 -/

theorem test_writes_store :
    nextWith (exec (.wrReadAddr 0 0x50200020#32) base) (fun t => (t.chan 0).readAddr == .word 0x50200020#32) ∧
      nextWith (exec (.wrTransCount 0 256#32) base)
        (fun t => (t.chan 0).countReload == .word 256#32 && (t.chan 0).countLive == .unwritten) ∧
      nextWith (exec (.wrWriteAddr 0 0x20001000#32) base) (fun t => (t.chan 0).writeAddr == .word 0x20001000#32) := by
  decide

theorem test_ctrl_trig_starts :
    nextWith (exec (.wrCtrlTrig 0 0x0022082B#32) (pair base { primary 0#32 false false with ctrl := 0#32 } Channel.reset))
      (fun t => (t.chan 0).ctrl == 0x0022082B#32 && (t.chan 0).busy && (t.chan 0).countLive == .word 256#32) := by decide

theorem test_ctrl_trig_faults :
    faultOf (exec (.wrCtrlTrig 0 0x0022082B#32) base) = some .unwritten ∧
      faultOf (exec (.wrCtrlTrig 0 0x0022082B#32)
        (pair base { primary 0#32 false false with countReload := .word 0#32 } Channel.reset)) = some (.zeroCount 0) ∧
      nextWith (exec (.wrCtrlTrig 0 0x0022082A#32) base)
        (fun t => (t.chan 0).ctrl == 0x0022082A#32 && !(t.chan 0).busy) := by decide

theorem test_ctrl_arms_without_starting :
    nextWith (exec (.wrCtrl 1 0x003F8009#32) base)
      (fun t => (t.chan 1).ctrl == 0x003F8009#32 && !(t.chan 1).busy && t.chanView 1 == .armed) ∧
      refusalOf (exec (.wrCtrl 0 0x00220827#32) base) = some .ctrlDataSize := by decide

theorem test_write_guard :
    faultOf (exec (.wrWriteAddr 0 0x20002000#32) (session 256#32)) = some (.configWhileActive 0) ∧
      faultOf (exec (.wrReadAddr 0 0#32) { base with abortPending := 1#32 }) = some (.configDuringAbort 0) := by decide

theorem test_count_reads_live :
    nextWith (exec (.rdTransCount 0) (session 255#32)) (fun t => t.hostValue == some 255#32) ∧
      nextWith (exec (.rdWriteAddr 0) (session 255#32)) (fun t => t.hostValue == some 0x20001000#32) ∧
      nextWith (exec (.rdCtrlTrig 0) (session 255#32)) (fun t => t.hostValue == some 0x0022082B#32) := by decide

theorem test_own_register_faults :
    faultOf (exec (.xfer 1) (pair (session 256#32) (primary 256#32 false false)
      { restart true false with writeAddr := .word 0x50000044#32 })) = some (.configWhileActive 1) := by decide

/-! ## The channel engine: vectors X1 to X12 -/

theorem test_xfer_moves_a_word :
    nextWith (exec (.xfer 0) (session 256#32)) (fun t =>
      memReadWord t.mem 0x20001000#32 == some 0x01234567#32 && memByte t.mem 0x20001000 == some 0x67#8 &&
        t.chan 0 == { primary 255#32 true false with writeAddr := .word 0x20001004#32 } && t.fifo == []) := by decide

theorem test_xfer_waits_for_the_fifo :
    nextWith (exec (.xfer 0) { session 256#32 with fifo := [] })
      (fun t => t.chan 0 == primary 256#32 true false) := by decide

theorem test_last_xfer_chains :
    nextWith (exec (.xfer 0) (session 1#32)) (fun t =>
      !(t.chan 0).busy && (t.chan 0).countLive == .word 0#32 && (t.chan 1).pend && !(t.chan 0).irq) ∧
      nextWith (exec (.xfer 0) (pair (session 1#32) { primary 1#32 true false with ctrl := 0x0002082B#32 }
        (restart false false))) (fun t => (t.chan 0).irq && (t.chan 1).pend) := by decide

theorem test_start_and_restart :
    nextWith (exec (.start 1) (pair (session 0#32) (primary 0#32 false false) (restart false true)))
      (fun t => t.chan 1 == restart true false) ∧
      nextWith (exec (.xfer 1) (pair (session 0#32) { primary 0#32 false false with writeAddr := .word 0x20001400#32 }
        (restart true false))) (fun t => t.chan 0 == primary 0#32 false true &&
          t.chan 1 == { restart false false with countLive := .word 0#32 }) := by decide

theorem test_start_drops_a_disabled_trigger :
    nextWith (exec (.start 1) (pair base (primary 0#32 false false) { restart false true with ctrl := 0#32 }))
      (fun t => !(t.chan 1).pend && !(t.chan 1).busy) := by decide

theorem test_xfer_faults :
    faultOf (exec (.xfer 0) (pair (session 1#32) (primary 1#32 true false) (restart true false)))
        = some (.chainCollision 1) ∧
      faultOf (exec (.xfer 0) (pair (session 1#32) { primary 1#32 true false with writeAddr := .word 0x20001002#32 }
        (restart false false))) = some (.misaligned 0x20001002#32) := by decide

theorem test_burst_ends_without_a_chain :
    nextWith (exec (.xfer 0) (pair (session 1#32) { primary 1#32 true false with ctrl := 0x0022002B#32 }
      (restart false false))) (fun t => !(t.chan 0).busy && t.ch.all (fun k => !k.pend)) := by decide

/-! ## Aborts: vectors B1 to B8 -/

theorem test_abort_register :
    nextWith (exec (.wrAbort 0x3#32) base) (fun t => t.abortPending == 3#32) ∧
      nextWith (exec (.wrAbort 0xFFFFFFFF#32) base) (fun t => t.abortPending == 0xFFF#32) ∧
      nextWith (exec (.wrAbort 0x2#32) { base with abortPending := 1#32 }) (fun t => t.abortPending == 3#32) ∧
      nextWith (exec .rdAbort { base with abortPending := 3#32 }) (fun t => t.hostValue == some 3#32) := by decide

theorem test_abort_done :
    nextWith (exec .abortDone { session 256#32 with abortPending := 1#32 }) (fun t =>
      !(t.chan 0).busy && (t.chan 0).ctrl == 0x0022082B#32 && (t.chan 0).countReload == .word 256#32 &&
        t.draws == 3 && t.abortPending == 0#32) ∧
      nextWith (exec .abortDone { pair base (primary 0#32 false false) (restart false true) with abortPending := 3#32 })
        (fun t => t.chan 1 == restart false false && t.quiescent) := by decide

/-! ## Sampler and waveform: vectors S1 to S11, V1 to V4 -/

theorem test_shift_register :
    shiftIn .left (shiftIn .left (shiftIn .left 0#32 0x001#10) 0x002#10) 0x003#10 = 0x00100803#32 ∧
      shiftIn .right (shiftIn .right (shiftIn .right 0#32 0x001#10) 0x002#10) 0x003#10 = 0x00C02004#32 ∧
      shiftIn .left (shiftIn .left (shiftIn .left 0#32 0x123#10) 0x045#10) 0x3C0#10 = 0x123117C0#32 ∧
      shiftIn .right (shiftIn .right (shiftIn .right 0#32 0x123#10) 0x045#10) 0x3C0#10 = 0xF004548C#32 := by decide

theorem test_sample_in :
    nextWith (exec (.sampleIn 0x3FF#10) { base with sampler := ⟨true, .sample, 1#32, 10⟩ })
        (fun t => t.sampler == ⟨true, .low, 0x7FF#32, 20⟩ && t.fifo == []) ∧
      nextWith (exec (.sampleIn 0x003#10) { base with sampler := ⟨true, .sample, 0x402#32, 20⟩ })
        (fun t => t.sampler == ⟨true, .low, 0#32, 0⟩ && t.fifo == [0x00100803#32]) := by decide

theorem test_sample_in_waits_for_room :
    nextWith (exec (.sampleIn 0x003#10) { base with sampler := ⟨true, .sample, 0x402#32, 20⟩, fifo := [1, 2, 3, 4] })
        (fun t => t.sampler == ⟨true, .sample, 0x402#32, 20⟩ && t.fifo == [1, 2, 3, 4]) ∧
      nextWith (exec (.sampleIn 0x003#10) { base with sampler := ⟨true, .sample, 0x402#32, 10⟩, fifo := [1, 2, 3, 4] })
        (fun t => t.sampler.isrCount == 20) := by decide

theorem test_sampler_phases :
    nextWith (exec .sampleHigh { base with sampler := ⟨true, .high, 0#32, 0⟩ })
        (fun t => t.ref == .bit true && t.sampler.phase == .sample) ∧
      nextWith (exec .sampleLow { base with sampler := ⟨true, .low, 0#32, 10⟩ })
        (fun t => t.ref == .bit false && t.sampler.phase == .high) := by decide

theorem test_sampler_start_discards_the_partial_word :
    nextWith (exec .samplerStop { base with sampler := ⟨true, .low, 5#32, 20⟩ })
        (fun t => t.sampler == ⟨false, .low, 5#32, 20⟩) ∧
      nextWith (exec .samplerStart { base with sampler := ⟨false, .low, 5#32, 20⟩ })
        (fun t => t.sampler == ⟨true, .high, 0#32, 0⟩) := by decide

theorem test_wave :
    nextWith (exec .waveStart base) (fun t => t.wave == ⟨true, 0, .unwritten⟩) ∧
      nextWith (exec .waveStep { base with wave := ⟨true, 0, .unwritten⟩ }) (fun t => t.wave == ⟨true, 1, .bit true⟩) ∧
      nextWith (exec .waveStep { base with wave := ⟨true, 1, .bit true⟩ }) (fun t => t.wave == ⟨true, 0, .bit false⟩) ∧
      nextWith (exec .waveStop { base with wave := ⟨true, 1, .bit false⟩ })
        (fun t => t.wave == ⟨false, 1, .bit false⟩) := by decide

/-! ## The step and the host program -/

theorem test_step_marks_a_fault :
    nextWith (step (give (session 1#32) (.command (.busop 0x1004#13 0#32))))
      (fun t => t.fault == some (.configWhileActive 0) && t.agenda.length == 1 && t.ch == (session 1#32).ch) := by decide

theorem test_step_runs_a_table_word :
    nextWith (step (base.withFetchWord 8 0x1)) (fun t => t.sampler.running && t.agenda == []) := by decide

theorem test_host_program_polls_and_clears_enable :
    nextWith (hostTurn { base with host := ⟨stopCapture tp 1#32, [], none⟩ })
        (fun t => t.abortPending == 1#32 && t.host.prog.length == 3) ∧
      nextWith (hostTurn { session 256#32 with host := ⟨clearEnable 0, [], none⟩ })
        (fun t => t.host.temps == [(0, 0x0022082B#32)]) := by decide

/-! ## Witnesses: for each statement with hypotheses, a state and operands that meet them together; where a statement has
several clauses, one for each, at the ends of its range. -/

theorem test_witness_DecodeOfEncodeIsTheOperation :
    tp.Valid ∧ Instr.wellFormed tp (.wrReadAddr 0 0#32) = true ∧ Instr.wellFormed tp (.rdCtrl 11) = true ∧
      Instr.wellFormed tp (.rdMem 0x50000002#32) = true ∧ Instr.wellFormed tp (.wrMem 0xFFFFFFFF#32 1#32) = true ∧
      Instr.wellFormed tp (.xfer 11) = true ∧ Instr.wellFormed tp (.enc 2 64 16 2 4 2 2 4 2 2) = true :=
  ⟨tp_valid, by decide⟩

theorem test_witness_DecodedOperationsExist :
    tp.Valid ∧ decode tp (.busop 0b1001011001000#13 7#32) = .ok (.wrTransCount 11 7#32) ∧
      decode tp (.busop 0x0002#13 0#32) = .ok (.rdMem 0x50000002#32) :=
  ⟨tp_valid, decode_eq (by decide), decode_eq (by decide)⟩

/-- The first clause at its first and last offset, and the second clause on both sides of the registers of channel 0. -/
theorem test_witness_UnmappedOffsetsAreRefused :
    base.params.Valid ∧
      ((0x50000300#32).toNat = base.params.dmaBase.toNat + 0x300 ∧ 0x300 < 0x1000 ∧ 0x300 % 4 = 0 ∧ 0x300 ≠ 0x444 ∧
        base.params.nch ≤ 0x300 / 64) ∧
      ((0x50000FFC#32).toNat = base.params.dmaBase.toNat + 0xFFC ∧ 0xFFC < 0x1000 ∧ 0xFFC % 4 = 0 ∧ 0xFFC ≠ 0x444 ∧
        base.params.nch ≤ 0xFFC / 64) ∧
      ((0x50000014#32).toNat = base.params.dmaBase.toNat + 0x14 ∧ 0x14 % 4 = 0 ∧ 0x14 ≠ 0x444 ∧
        (0x14 % 64 ≠ 0x00 ∧ 0x14 % 64 ≠ 0x04 ∧ 0x14 % 64 ≠ 0x08 ∧ 0x14 % 64 ≠ 0x0C ∧ 0x14 % 64 ≠ 0x10)) ∧
      ((0x500002FC#32).toNat = base.params.dmaBase.toNat + 0x2FC ∧ 0x2FC % 4 = 0 ∧ 0x2FC ≠ 0x444 ∧
        (0x2FC % 64 ≠ 0x00 ∧ 0x2FC % 64 ≠ 0x04 ∧ 0x2FC % 64 ≠ 0x08 ∧ 0x2FC % 64 ≠ 0x0C ∧ 0x2FC % 64 ≠ 0x10)) :=
  ⟨tp_valid, by decide⟩

theorem test_witness_StepRunsTheDecodedOperation :
    (base.fault = none ∧ base.refusal = none) ∧
      (decode tp (.busop 0x1000#13 5#32) = .ok (.wrReadAddr 0 5#32) ∧ Instr.wellFormed tp (.wrReadAddr 0 5#32) = true ∧
        ∃ t, exec (.wrReadAddr 0 5#32) base = .next t) ∧
      (decode tp (.busop 0x0000#13 0#32) = .ok (.rdReadAddr 0) ∧ Instr.wellFormed tp (.rdReadAddr 0) = true ∧
        exec (.rdReadAddr 0) base = .fault .unwritten) ∧
      (decode tp (.busop 0x1010#13 0x40#32) = .ok (.wrCtrl 0 0x40#32) ∧ Instr.wellFormed tp (.wrCtrl 0 0x40#32) = true ∧
        exec (.wrCtrl 0 0x40#32) base = .refused .ctrlReserved) :=
  ⟨by decide, ⟨decode_eq (by decide), by decide, exists_next (by decide)⟩,
    ⟨decode_eq (by decide), by decide, eq_fault (by decide)⟩, decode_eq (by decide), by decide, eq_refused (by decide)⟩

theorem test_witness_FaultsAndRefusalsMarkTheStateAndStop :
    (base.fault = none ∧ base.refusal = none) ∧
      runTurn (.command (.busop 0x0000#13 0#32)) base = .fault .unwritten ∧
      runTurn (.command (.hostact 0x0#4)) base = .refused (.reservedHostAct 0x0#4) :=
  ⟨by decide, eq_fault (by decide), eq_refused (by decide)⟩

theorem test_witness_PollEndsAtTheFirstZero :
    ({ base with host := ⟨[.pollz .abort], [], none⟩ } : State).host.prog = .pollz .abort :: [] ∧
      ({ base with host := ⟨[.pollz .abort], [], none⟩ } : State).abortPending = 0#32 ∧
      ({ base with host := ⟨[.pollz .abort], [], none⟩, abortPending := 0x800#32 } : State).abortPending ≠ 0#32 := by
  decide

/-- The host at a bounded poll of `ABORT` with `k` reads left. -/
def polling (k : Nat) (pending : Word) : State :=
  { base with host := ⟨[.pollzWithin k 0 .abort, .ret .ok], [], none⟩, abortPending := pending }

theorem test_witness_BoundedPollTimesOutAtItsLastRead :
    (polling 3 0x800#32).host.prog = .pollzWithin (2 + 1) 0 .abort :: [.ret .ok] ∧
      (polling 1 0x800#32).host.prog = .pollzWithin (0 + 1) 0 .abort :: [.ret .ok] ∧
      (polling 1 0x800#32).abortPending ≠ 0#32 ∧ (polling 1 0#32).abortPending = 0#32 := by decide

/-- The protocol with no host program keeps the block at reset, so it is safe (rules R216, R235). -/
theorem test_idle_protocol_is_safe : SafeFrom base := by
  have chanBusy : ∀ c, (base.chan c).busy = false ∧ (base.chan c).pend = false := fun c => by
    simp only [base, State.resetWith, State.chan, List.getD_eq_getElem?_getD, List.getElem?_replicate]
    split <;> exact ⟨rfl, rfl⟩
  have stay : ∀ t, Reaches base t → t = base := fun t h => by
    induction h with
    | refl => rfl
    | turn x _ _ hx hs ih =>
      subst ih
      obtain rfl | ⟨h, hx⟩ := hx
      · cases hs; rfl
      · cases x with
        | host => cases hx
        | command c =>
          obtain ⟨i, hd, hi⟩ := hx
          have : exec i base = .next base := by
            cases i <;> first
              | (cases hi; done)
              | rfl
              | simp [exec, execXfer, execStart, State.xferEnabled, State.startEnabled, chanBusy]
          rw [runTurn_command hd, this] at hs
          cases hs; rfl
  intro t h
  rw [stay t h]; rfl

/-- A protocol that reads a register nothing has written is not safe (rules R21, R216). -/
theorem test_unwritten_read_is_not_safe : ¬SafeFrom { base with host := ⟨[.rd 0 (.chan 0 .readAddr)], [], none⟩ } :=
  fun h => by cases h _ (.turn .host .refl ⟨rfl, rfl⟩ (.inl rfl) rfl)

/-- Rule R203 with a bound of 0: no read, and TIMEOUT. -/
theorem test_bounded_poll_of_no_reads :
    nextWith (hostTurn (polling 0 0x800#32)) (fun t => t.host.result == some .timeout && t.hostValue == none) := by decide

theorem test_witness_ResetIsAsTheTableSays : 11 < tp.nch ∧ ¬12 < tp.nch := by decide

theorem test_witness_NoStepChangesTheParameters :
    ∃ t, step (give (session 1#32) (.command (.hwstep 0x10#8 0#32))) = .next t := exists_next (by decide)

theorem test_witness_MemWriteSetsFourBytes :
    (0#32).toNat % 4 = 0 ∧ (0xFFFFFFFC#32).toNat % 4 = 0 := by decide

/-- The last word of `RAM`, written and with its last byte missing. -/
theorem test_witness_MemReadIsLittleEndian :
    base.params.Valid ∧ (0x20041FFC#32).toNat % 4 = 0 ∧ inRam tp 0x20041FFC#32 = true ∧
      inRam tp (0x20041FFC#32 + 3#32) = true ∧
      (memByte [(0x20041FFC, 1#8), (0x20041FFD, 2#8), (0x20041FFE, 3#8), (0x20041FFF, 4#8)] 0x20041FFC = some 1#8 ∧
        memByte [(0x20041FFC, 1#8), (0x20041FFD, 2#8), (0x20041FFE, 3#8), (0x20041FFF, 4#8)] (0x20041FFC + 1)
          = some 2#8 ∧
        memByte [(0x20041FFC, 1#8), (0x20041FFD, 2#8), (0x20041FFE, 3#8), (0x20041FFF, 4#8)] (0x20041FFC + 2)
          = some 3#8 ∧
        memByte [(0x20041FFC, 1#8), (0x20041FFD, 2#8), (0x20041FFE, 3#8), (0x20041FFF, 4#8)] (0x20041FFC + 3)
          = some 4#8) ∧
      memByte [(0x20041FFC, 1#8), (0x20041FFD, 2#8), (0x20041FFE, 3#8)] (0x20041FFC + 3) = none :=
  ⟨tp_valid, by decide⟩

theorem test_witness_MisalignedAndUnmappedAccessesFault :
    (0x50000001#32).toNat % 4 ≠ 0 ∧
      ((0x4FFFFFFC#32).toNat % 4 = 0 ∧ (0x4FFFFFFC#32).toNat < base.params.dmaBase.toNat ∧
        0x4FFFFFFC#32 ≠ base.params.fifoAddr ∧ inRam base.params 0x4FFFFFFC#32 = false) ∧
      ((0x50001000#32).toNat % 4 = 0 ∧ base.params.dmaBase.toNat + 0x1000 ≤ (0x50001000#32).toNat ∧
        0x50001000#32 ≠ base.params.fifoAddr ∧ inRam base.params (0x50001000#32 + 3#32) = false) := by decide

/-- An unpaced transfer from a misaligned address. -/
def misalignedRead : State :=
  pair base { primary 2#32 true false with readAddr := .word 2#32, ctrl := 0x003F8009#32 } Channel.reset

/-- A transfer from the FIFO to a misaligned address. -/
def misalignedWrite : State :=
  pair (session 2#32) { primary 2#32 true false with writeAddr := .word 0x20001002#32 } (restart false false)

theorem test_witness_MisalignedTransferFaults :
    ((misalignedRead.chan 0).busy = true ∧ misalignedRead.req 0 = true ∧
        (misalignedRead.chan 0).readAddr = .word 2#32 ∧ (2#32).toNat % 4 ≠ 0) ∧
      ((misalignedWrite.chan 0).busy = true ∧ misalignedWrite.req 0 = true ∧
        (misalignedWrite.chan 0).readAddr = .word 0x50200020#32 ∧
        (misalignedWrite.chan 0).writeAddr = .word 0x20001002#32 ∧ (0x20001002#32).toNat % 4 ≠ 0) ∧
      busRead32 (.dma 0) 0x50200020#32 misalignedWrite = .next (0x01234567#32, { misalignedWrite with fifo := [] }) :=
  ⟨by decide, by decide, rfl⟩

theorem test_witness_MemoryWriteStoresTheWord :
    base.params.Valid ∧ (0x20000000#32).toNat % 4 = 0 ∧ inRam base.params 0x20000000#32 = true ∧
      inRam base.params (0x20000000#32 + 3#32) = true ∧ (0x1FFFFFFF < (0x20000000#32).toNat ∧
        (0x20000000#32).toNat + 4 ≤ 0x20000004) := ⟨tp_valid, by decide⟩

theorem test_witness_HostMemoryReadReturnsTheWord :
    base.params.Valid ∧ inRam base.params 0x20000F00#32 = true ∧ inRam base.params (0x20000F00#32 + 3#32) = true ∧
      ({ base with mem := (session 1#32).mem } : State).sessionActive = false ∧
      memReadWord (session 1#32).mem 0x20000F00#32 = some 0x20001000#32 ∧
      memByte base.mem ((0x20000F00#32).toNat + 3) = none := ⟨tp_valid, by decide⟩

/-- In a session: the descriptor, and the first word after the buffer. -/
theorem test_witness_HostMemoryReadOutsideTheBuffer :
    (session 1#32).sessionActive = true ∧ (session 1#32).session = some ⟨0x20001000#32, 256#32⟩ ∧
      4 * (256#32).toNat ≤ (0x20000F00#32 - 0x20001000#32).toNat ∧
      4 * (256#32).toNat ≤ (0x20001400#32 - 0x20001000#32).toNat := by decide

/-- Rule R44: a mid-session start of the Primary Channel from another address leaves the session's buffer as it was. -/
theorem test_restart_keeps_the_buffer :
    nextWith (exec (.start 0) (pair (session 1#32)
        { primary 0#32 false true with writeAddr := .word 0x20002000#32 } (restart false false)))
      (fun t => t.session == some ⟨0x20001000#32, 256#32⟩ && (t.chan 0).writeAddr == .word 0x20002000#32) := by decide

/-- The first and the last word of the buffer. -/
theorem test_witness_HostReadOfTheBufferInASessionIsADraw :
    (session 1#32).params.Valid ∧ ((session 1#32).chan (session 1#32).params.pri).busy = true ∧
      (session 1#32).session = some ⟨0x20001000#32, 256#32⟩ ∧
      ((0x20001000#32).toNat % 4 = 0 ∧ inRam tp 0x20001000#32 = true ∧ inRam tp (0x20001000#32 + 3#32) = true) ∧
      ((0x200013FC#32).toNat % 4 = 0 ∧ inRam tp 0x200013FC#32 = true ∧ inRam tp (0x200013FC#32 + 3#32) = true ∧
        (0x20001000#32).toNat ≤ (0x200013FC#32).toNat ∧
        (0x200013FC#32).toNat < (0x20001000#32).toNat + 4 * (256#32).toNat) := ⟨tp_valid, by decide⟩

theorem test_witness_ChannelRegistersAreAtTheirAddresses :
    base.params.Valid ∧ 0 < base.params.nch ∧ 11 < base.params.nch ∧
      (0x50000000#32).toNat = base.params.dmaBase.toNat + 0 * 0x40 + (chanRegCode .readAddr).toNat ∧
      (0x500002D0#32).toNat = base.params.dmaBase.toNat + 11 * 0x40 + (chanRegCode .ctrl).toNat :=
  ⟨tp_valid, by decide⟩

theorem test_witness_WriteGuardFaultsBeforeAnyStore :
    0 < (session 1#32).params.nch ∧ ((session 1#32).chan 0).busy = true ∧
      ((pair base (primary 1#32 false true) Channel.reset).chan 0).pend = true ∧
      ((base.chan 11).busy = false ∧ (base.chan 11).pend = false ∧
        ({ base with abortPending := 0x800#32 } : State).abortBit 11 = true) ∧
      (Master.dma 1 = Master.host → ({ base with abortPending := 0x800#32 } : State).abortBit 11 = false) := by decide

theorem test_witness_AddressAndCountWritesStoreAnyWord :
    11 < base.params.nch ∧ ((session 1#32).chan 0).busy = true ∧
      ((base.chan 11).busy = false ∧ (base.chan 11).pend = false) ∧
      ({ base with abortPending := 0x800#32 } : State).abortBit 11 = true ∧
      (Master.host = Master.host → base.abortBit 11 = false) := by decide

theorem test_witness_HostAddressAndCountWritesComplete :
    11 < base.params.nch ∧ (base.chan 11).busy = false ∧ (base.chan 11).pend = false ∧ base.abortBit 11 = false := by
  decide

theorem test_witness_HostControlWriteStoresWithoutTrigger :
    1 < base.params.nch ∧ (base.chan 1).busy = false ∧ (base.chan 1).pend = false ∧ base.abortBit 1 = false ∧
      ctrlRefusal base.params 0x003F8009#32 = none ∧ ctrlRefusal base.params 0x0022602B#32 = some .ctrlChain := by decide

/-- Channel 0 configured and at rest, as vector G3 has it before its write. -/
def configured : State := pair base (primary 0#32 false false) Channel.reset

/-- The same with a count of 0 (vector G8). -/
def configuredZero : State := pair base { primary 0#32 false false with countReload := .word 0#32 } Channel.reset

theorem test_witness_HostTriggeringWriteStartsTheChannel :
    (0 < configured.params.nch ∧ configured.ch.length = configured.params.nch ∧ (configured.chan 0).busy = false ∧
        (configured.chan 0).pend = false ∧ configured.abortBit 0 = false) ∧
      ctrlRefusal configured.params 0x00400000#32 = some .ctrlReserved ∧
      (ctrlRefusal configured.params 0x0022082A#32 = none ∧ (0x0022082A#32).getLsbD 0 = false) ∧
      (ctrlRefusal configured.params 0x0022082B#32 = none ∧ (0x0022082B#32).getLsbD 0 = true) ∧
      ((configured.chan 0).readAddr = .word 0x50200020#32 ∧ (configured.chan 0).writeAddr = .word 0x20001000#32 ∧
        (configured.chan 0).countReload = .word 256#32 ∧ 256#32 ≠ 0#32) ∧
      ((configuredZero.chan 0).busy = false ∧ (configuredZero.chan 0).pend = false ∧ configuredZero.abortBit 0 = false ∧
        configuredZero.ch.length = configuredZero.params.nch ∧ (configuredZero.chan 0).countReload = .word 0#32) ∧
      (base.ch.length = base.params.nch ∧ (base.chan 0).busy = false ∧ (base.chan 0).pend = false ∧
        base.abortBit 0 = false ∧ (base.chan 0).countReload = .unwritten) := by decide

theorem test_witness_RegisterReadsReturnTheCurrentValue :
    (session 1#32).params.Valid ∧ 0 < (session 1#32).params.nch ∧
      (0x50000000#32).toNat = tp.dmaBase.toNat + 0 * 0x40 + (chanRegCode .readAddr).toNat ∧
      (0x50000004#32).toNat = tp.dmaBase.toNat + 0 * 0x40 + (chanRegCode .writeAddr).toNat ∧
      (0x50000008#32).toNat = tp.dmaBase.toNat + 0 * 0x40 + (chanRegCode .transCount).toNat ∧
      (0x5000000C#32).toNat = tp.dmaBase.toNat + 0 * 0x40 + (chanRegCode .ctrlTrig).toNat ∧
      (0x500002C0#32).toNat = tp.dmaBase.toNat + 11 * 0x40 + (chanRegCode .readAddr).toNat ∧
      (session 1#32).chan 0 = primary 1#32 true false ∧ (base.chan 11).readAddr = .unwritten :=
  ⟨tp_valid, by decide⟩

theorem test_witness_HostRegisterReadsComplete :
    0 < (session 1#32).params.nch ∧ ((session 1#32).chan 0).readAddr = .word 0x50200020#32 ∧
      ((session 1#32).chan 0).writeAddr = .word 0x20001000#32 ∧ ((session 1#32).chan 0).countLive = .word 1#32 := by decide

theorem test_witness_FieldsOfAnEncodedWordAreTheInputs :
    encLegal ⟨1, 63, 15, 1, 1, 1, 1, 3, 1, 1⟩ = true ∧ encLegal ⟨0, 0, 0, 0, 0, 0, 0, 0, 0, 0⟩ = true ∧
      encPack ⟨1, 63, 15, 1, 1, 1, 1, 3, 1, 1⟩ = encPack ⟨1, 63, 15, 1, 1, 1, 1, 3, 1, 1⟩ := by decide

/-- All inputs at their greatest, and one at a time just above its range. -/
theorem test_witness_EncoderPacksEachFieldAtItsOffset :
    ((1 ≤ 1 ∧ 63 ≤ 63 ∧ 15 ≤ 15 ∧ 3 ≤ 3)) ∧ (¬2 ≤ 1 ∧ ¬64 ≤ 63 ∧ ¬16 ≤ 15 ∧ ¬4 ≤ 3) ∧
      isNext (exec (.enc 1 63 15 1 1 1 1 3 1 1) base) = true ∧
      refusalOf (exec (.enc 0 0 0 0 0 0 0 4 0 0) base) = some .encoderRange ∧
      refusalOf (exec (.enc 0 0 0 0 0 0 0 0 0 2) base) = some .encoderRange := by decide

theorem test_witness_AbortRegister :
    base.params.Valid ∧ (0x50000444#32).toNat = base.params.dmaBase.toNat + 0x444 := ⟨tp_valid, by decide⟩

/-- Channel 0 busy, channel 1 pending, an abort of both requested. -/
def aborting : State :=
  { pair (session 1#32) (primary 1#32 true false) (restart false true) with abortPending := 3#32 }

/-- A busy channel in the mask, a resting one in the mask, and one outside the mask. -/
theorem test_witness_AbortDoneStopsTheChannelsOfTheMask :
    aborting.ch.length = aborting.params.nch ∧ aborting.abortPending ≠ 0#32 ∧
      (0 < aborting.params.nch ∧ aborting.abortPending.getLsbD 0 = true ∧ (aborting.chan 0).busy = true) ∧
      (1 < aborting.params.nch ∧ aborting.abortPending.getLsbD 1 = true ∧ (aborting.chan 1).busy = false) ∧
      (11 < aborting.params.nch ∧ aborting.abortPending.getLsbD 11 = false) := by decide

theorem test_witness_AbortOfAllActiveChannelsQuiesces :
    ({ session 1#32 with abortPending := 1#32 } : State).ch.length = tp.nch ∧ 1#32 ≠ 0#32 ∧
      ∀ c, c < tp.nch → (((session 1#32).chan c).busy = true ∨ ((session 1#32).chan c).pend = true) →
        (1#32).getLsbD c = true := by decide

theorem test_witness_QuiescentUntilTheHostTriggersOrAborts :
    base.ch.length = base.params.nch ∧ base.quiescent = true ∧
      (Instr.wellFormed base.params (.wrCtrlTrig 0 0x0022082A#32) = true ∧ (0x0022082A#32).getLsbD 0 = false ∧
        isNext (exec (.wrCtrlTrig 0 0x0022082A#32) base) = true) ∧
      (Instr.wellFormed base.params (.wrMem 0x20000000#32 1#32) = true ∧
        isNext (exec (.wrMem 0x20000000#32 1#32) base) = true) := by decide

theorem test_witness_SamplerStartsAndStops :
    base.sampler.running = false ∧ ({ base with sampler := ⟨true, .low, 1#32, 10⟩ } : State).sampler.running = true := by
  decide

theorem test_witness_SampleHighAndLowDriveTheReference :
    ({ base with sampler := ⟨true, .high, 1#32, 10⟩ } : State).sampler.running = true ∧
      ({ base with sampler := ⟨true, .high, 1#32, 10⟩ } : State).sampler.phase = .high ∧
      ({ base with sampler := ⟨true, .low, 1#32, 10⟩ } : State).sampler.phase = .low := by decide

/-- A sampler about to take a sample, with `n` bits in and three words in the FIFO. -/
def sampling (n : Nat) : State := { base with sampler := ⟨true, .sample, 1#32, n⟩, fifo := [1#32, 2#32, 3#32] }

/-- Both clauses at the ends of their ranges of bit counts, with room for one word; the default direction and the other one.
-/
theorem test_witness_SampleInShiftsAndPushes :
    ((sampling 19).sampler.running = true ∧ (sampling 19).sampler.phase = .sample) ∧
      ((sampling 20).sampler.running = true ∧ (sampling 20).sampler.phase = .sample) ∧
      ((sampling 19).params.inShiftDir = .left → 0x7FF#32 = ((sampling 19).sampler.isr <<< 10) ||| (0x3FF#10).setWidth 32) ∧
      ((sampling 19).params.inShiftDir = .right →
        0x7FF#32 = ((sampling 19).sampler.isr >>> 10) ||| ((0x3FF#10).setWidth 32 <<< 22)) ∧
      (0xFFC00000#32 = ((sampling 20).sampler.isr >>> 10) ||| ((0x3FF#10).setWidth 32 <<< 22)) ∧
      ((sampling 0).sampler.isrCount + 10 < 30 ∧ (sampling 19).sampler.isrCount + 10 < 30) ∧
      (30 ≤ (sampling 20).sampler.isrCount + 10 ∧ (sampling 20).fifo.length < (sampling 20).params.fifoDepth) := by decide

theorem test_witness_DisabledStepsHold :
    (base.chan 0).busy = false ∧
      (ctrlField (({ session 1#32 with fifo := [] } : State).chan 0).ctrl .treq = tp.sampleTreq.toNat ∧
        ({ session 1#32 with fifo := [] } : State).fifo = []) ∧
      (base.chan 0).pend = false ∧ ((session 1#32).chan 0).busy = true ∧ base.abortPending = 0#32 ∧
      base.sampler.running = false ∧ (sampling 20).sampler.phase ≠ .high ∧ base.sampler.phase ≠ .sample ∧
      (20 ≤ ({ sampling 20 with fifo := [1, 2, 3, 4] } : State).sampler.isrCount ∧
        ({ sampling 20 with fifo := [1, 2, 3, 4] } : State).params.fifoDepth
          ≤ ({ sampling 20 with fifo := [1, 2, 3, 4] } : State).fifo.length) ∧
      base.sampler.phase ≠ .low ∧ base.wave.running = false := by decide

/-- Two states that differ in channels and memory only. -/
theorem test_witness_SamplerTouchesOnlyItsOwnState :
    ((session 1#32).setFifo []).sampler = base.sampler ∧ ((session 1#32).setFifo []).ref = base.ref ∧
      ((session 1#32).setFifo []).fifo = base.fifo ∧ ((session 1#32).setFifo []).params = base.params ∧
      isNext (exec .sampleHigh base) = true ∧ isNext (exec .sampleLow base) = true ∧
      isNext (exec (.sampleIn 1#10) base) = true ∧ isNext (exec (.sampleIn 1#10) (sampling 20)) = true := by decide

theorem test_witness_FifoReadPopsTheHead :
    base.params.Valid ∧ base.fifo = [] ∧ (session 1#32).fifo = 0x01234567#32 :: [] := ⟨tp_valid, by decide⟩

theorem test_witness_FifoPortWriteIsRefused : base.params.Valid := tp_valid

theorem test_witness_WaveformCyclesThroughThePattern :
    base.wave.running = false ∧ ({ base with wave := ⟨true, 1, .unwritten⟩ } : State).wave.running = true ∧
      ({ base with wave := ⟨true, 1, .unwritten⟩ } : State).wave.idx
        < ({ base with wave := ⟨true, 1, .unwritten⟩ } : State).params.wavePattern.length := by decide

theorem test_witness_WaveformTouchesOnlyItsOwnState :
    (session 1#32).wave = base.wave ∧ (session 1#32).params = base.params ∧ isNext (exec .waveStart base) = true ∧
      isNext (exec .waveStop base) = true ∧ isNext (exec .waveStep base) = true := by decide

theorem test_witness_RequestFollowsTheFifoOrIsUnpaced :
    (session 1#32).params.Valid ∧ ctrlField ((session 1#32).chan 0).ctrl .treq = tp.sampleTreq.toNat ∧
      ctrlField ((session 1#32).chan 1).ctrl .treq = 63 := ⟨tp_valid, by decide⟩

/-- Channel 0 pending, with control word `w` and reload count `n`. -/
def pending (w : Word) (n : RegVal) : State :=
  pair base { primary 1#32 false true with ctrl := w, countReload := n } (restart false false)

theorem test_witness_StartTriggersOrDrops :
    ((pending 0x0022082A#32 (.word 256#32)).ch.length = tp.nch ∧ 0 < tp.nch ∧
        ((pending 0x0022082A#32 (.word 256#32)).chan 0).pend = true ∧
        ((pending 0x0022082A#32 (.word 256#32)).chan 0).busy = false ∧
        ((pending 0x0022082A#32 (.word 256#32)).chan 0).ctrl.getLsbD 0 = false) ∧
      ((pending 0x0022082B#32 (.word 256#32)).ch.length = tp.nch ∧
        ((pending 0x0022082B#32 (.word 256#32)).chan 0).pend = true ∧
        ((pending 0x0022082B#32 (.word 256#32)).chan 0).busy = false ∧
        ((pending 0x0022082B#32 (.word 256#32)).chan 0).ctrl.getLsbD 0 = true ∧
        ((pending 0x0022082B#32 (.word 256#32)).chan 0).readAddr = .word 0x50200020#32 ∧
        ((pending 0x0022082B#32 (.word 256#32)).chan 0).writeAddr = .word 0x20001000#32 ∧
        ((pending 0x0022082B#32 (.word 256#32)).chan 0).countReload = .word 256#32 ∧ 256#32 ≠ 0#32) ∧
      (((pending 0x0022082B#32 (.word 0#32)).chan 0).ctrl.getLsbD 0 = true ∧
        ((pending 0x0022082B#32 (.word 0#32)).chan 0).countReload = .word 0#32) ∧
      (((pending 0x0022082B#32 .unwritten).chan 0).ctrl.getLsbD 0 = true ∧
        ((pending 0x0022082B#32 .unwritten).chan 0).countReload = .unwritten) := by decide

/-- Channel 0 moving words from `ra` to `wa`, `n` of them left. -/
def moving (ra wa n : Word) : State :=
  pair (session 1#32) { primary n true false with readAddr := .word ra, writeAddr := .word wa } (restart false false)

/-- What every instance below has of the common hypotheses. -/
def movable (ra wa n : Word) : Bool :=
  (moving ra wa n).ch.length == tp.nch && ((moving ra wa n).chan 0).busy && (moving ra wa n).req 0 &&
    (moving ra wa n).chan 0 == { primary n true false with readAddr := .word ra, writeAddr := .word wa }

/-- A transfer that goes on, one that is the last, and one each whose read or write faults or is refused. -/
theorem test_witness_TransferIsReadThenWriteThenCount :
    0 < tp.nch ∧
      (movable 0x50200020#32 0x20001000#32 2#32 ∧
        isNext (busRead32 (.dma 0) 0x50200020#32 (moving 0x50200020#32 0x20001000#32 2#32)) = true ∧
        isNext (busWrite32 (.dma 0) 0x20001000#32 0x01234567#32
          { moving 0x50200020#32 0x20001000#32 2#32 with fifo := [] }) = true ∧ 2#32 ≠ 0#32 ∧ 2#32 ≠ 1#32) ∧
      (movable 0x50200020#32 0x20001000#32 1#32 ∧
        isNext (busWrite32 (.dma 0) 0x20001000#32 0x01234567#32
          { moving 0x50200020#32 0x20001000#32 1#32 with fifo := [] }) = true) ∧
      (movable 0x20000000#32 0x20001000#32 2#32 ∧
        faultOf (busRead32 (.dma 0) 0x20000000#32 (moving 0x20000000#32 0x20001000#32 2#32)) = some .unwritten) ∧
      (movable 0x50000014#32 0x20001000#32 2#32 ∧
        refusalOf (busRead32 (.dma 0) 0x50000014#32 (moving 0x50000014#32 0x20001000#32 2#32))
          = some (.unmappedRegister 0x014#12)) ∧
      (movable 0x20000F00#32 0x50000000#32 2#32 ∧
        faultOf (busWrite32 (.dma 0) 0x50000000#32 0x20001000#32 (moving 0x20000F00#32 0x50000000#32 2#32))
          = some (.configWhileActive 0)) ∧
      (movable 0x20000F00#32 0x50200020#32 2#32 ∧
        refusalOf (busWrite32 (.dma 0) 0x50200020#32 0x20001000#32 (moving 0x20000F00#32 0x50200020#32 2#32))
          = some .fifoWrite) := by decide

theorem test_witness_FifoWordIsMovedToMemory :
    (session 2#32).params.Valid ∧ (session 2#32).ch.length = tp.nch ∧ 0 < tp.nch ∧
      ((session 2#32).chan 0).busy = true ∧ ctrlField ((session 2#32).chan 0).ctrl .treq = tp.sampleTreq.toNat ∧
      ((session 2#32).chan 0).readAddr = .word tp.fifoAddr ∧ (session 2#32).fifo = 0x01234567#32 :: [] ∧
      ((session 2#32).chan 0).writeAddr = .word 0x20001000#32 ∧ (0x20001000#32).toNat % 4 = 0 ∧
      inRam tp 0x20001000#32 = true ∧ inRam tp (0x20001000#32 + 3#32) = true ∧
      ((session 2#32).chan 0).countLive = .word 2#32 ∧ 2#32 ≠ 0#32 ∧ 2#32 ≠ 1#32 := ⟨tp_valid, by decide⟩

/-- Channel 0 in a single burst, chained to itself (vector X9). -/
def burst : State := pair (session 0#32) { primary 0#32 true false with ctrl := 0x0022002B#32 } (restart false false)

/-- Channel 0 completing into a busy Restart Channel (vector X8). -/
def colliding : State := pair (session 0#32) (primary 0#32 true false) (restart true false)

/-- A chain target that is the channel itself, one that is busy, and one that rests. -/
theorem test_witness_CompletionChainsAndInterrupts :
    (burst.ch.length = tp.nch ∧ 0 < tp.nch ∧ ctrlField (burst.chan 0).ctrl .chainTo = 0) ∧
      (colliding.ch.length = tp.nch ∧ 1 < tp.nch ∧ ctrlField (colliding.chan 0).ctrl .chainTo = 1 ∧ 1 ≠ 0 ∧
        (colliding.chan 1).busy = true) ∧
      ((session 0#32).ch.length = tp.nch ∧ ctrlField ((session 0#32).chan 0).ctrl .chainTo = 1 ∧
        ((session 0#32).chan 1).busy = false ∧ ((session 0#32).chan 1).pend = false) := by decide

/-- Phase (c) of the loop: the Restart Channel about to rewrite the destination (vector X5). -/
def rewriting : State := pair (session 0#32) (primary 0#32 false false) (restart true false)

theorem test_witness_RestartTransferRewritesThePrimaryDestination :
    rewriting.params.Valid ∧ rewriting.ch.length = rewriting.params.nch ∧ (rewriting.chan tp.rst).busy = true ∧
      (rewriting.chan tp.rst).pend = false ∧ (rewriting.chan tp.rst).ctrl = rstCtrl tp ∧
      (rewriting.chan tp.rst).readAddr = .word 0x20000F00#32 ∧
      (rewriting.chan tp.rst).writeAddr = .word (chanAddr tp tp.pri .writeAddr) ∧
      (rewriting.chan tp.rst).countLive = .word 1#32 ∧ (rewriting.chan tp.pri).busy = false ∧
      (rewriting.chan tp.pri).pend = false ∧ (0x20000F00#32).toNat % 4 = 0 ∧ inRam tp 0x20000F00#32 = true ∧
      inRam tp (0x20000F00#32 + 3#32) = true ∧ memReadWord rewriting.mem 0x20000F00#32 = some 0x20001000#32 :=
  ⟨tp_valid, by decide⟩

/-- Vector G12: channel 1 about to write its own destination register. -/
def ownWriter : State :=
  pair (session 1#32) (primary 1#32 false false) { restart true false with writeAddr := .word 0x50000044#32 }

theorem test_witness_WritingItsOwnRegisterAlwaysFaults :
    ownWriter.params.Valid ∧ ownWriter.ch.length = ownWriter.params.nch ∧ 1 < ownWriter.params.nch ∧
      (ownWriter.chan 1).busy = true ∧ ownWriter.req 1 = true ∧ (ownWriter.chan 1).readAddr = .word 0x20000F00#32 ∧
      (ownWriter.chan 1).writeAddr = .word 0x50000044#32 ∧
      (0x50000044#32).toNat = ownWriter.params.dmaBase.toNat + 1 * 0x40 + (chanRegCode .writeAddr).toNat ∧
      isNext (busRead32 (.dma 1) 0x20000F00#32 ownWriter) = true := ⟨tp_valid, by decide⟩

theorem test_witness_CompletionInterruptIsSticky :
    (∃ t, step (give (pair (session 1#32) { primary 1#32 true false with irq := true } (restart false false))
        (.command (.hwstep 0x10#8 0#32))) = .next t) ∧
      ((give (pair (session 1#32) { primary 1#32 true false with irq := true } (restart false false))
        (.command (.hwstep 0x10#8 0#32))).chan 0).irq = true := ⟨exists_next (by decide), by decide⟩

/-- A transfer to memory and one to the `WRITE_ADDR` register of another channel. -/
theorem test_witness_HardwareStepsKeepControlWords :
    ((session 1#32).ch.length = tp.nch ∧ hwStepOf (.xfer 0) ≠ none ∧
        (∀ (c : Nat) (wa : Word) (e : Nat), Instr.xfer 0 = .xfer c → ((session 1#32).chan c).writeAddr = .word wa →
          e < (session 1#32).params.nch →
          wa.toNat ≠ (session 1#32).params.dmaBase.toNat + e * 0x40 + 0x0C ∧
            wa.toNat ≠ (session 1#32).params.dmaBase.toNat + e * 0x40 + 0x10) ∧
        ∃ t, exec (.xfer 0) (session 1#32) = .next t) ∧
      ((moving 0x50200020#32 0x50000044#32 2#32).ch.length = tp.nch ∧
        (∀ (c : Nat) (wa : Word) (e : Nat), Instr.xfer 0 = .xfer c →
          ((moving 0x50200020#32 0x50000044#32 2#32).chan c).writeAddr = .word wa →
          e < (moving 0x50200020#32 0x50000044#32 2#32).params.nch →
          wa.toNat ≠ (moving 0x50200020#32 0x50000044#32 2#32).params.dmaBase.toNat + e * 0x40 + 0x0C ∧
            wa.toNat ≠ (moving 0x50200020#32 0x50000044#32 2#32).params.dmaBase.toNat + e * 0x40 + 0x10) ∧
        ∃ t, exec (.xfer 0) (moving 0x50200020#32 0x50000044#32 2#32) = .next t) := by
  have b1 : (session 1#32).params.dmaBase.toNat = 0x50000000 := by decide
  have b2 : (moving 0x50200020#32 0x50000044#32 2#32).params.dmaBase.toNat = 0x50000000 := by decide
  have w1 : ((session 1#32).chan 0).writeAddr = .word 0x20001000#32 := by decide
  have w2 : ((moving 0x50200020#32 0x50000044#32 2#32).chan 0).writeAddr = .word 0x50000044#32 := by decide
  have n1 : (0x20001000#32).toNat = 0x20001000 := by decide
  have n2 : (0x50000044#32).toNat = 0x50000044 := by decide
  refine ⟨⟨by decide, by decide, fun c wa e h hw _ => ?_, exists_next (by decide)⟩,
    by decide, fun c wa e h hw _ => ?_, exists_next (by decide)⟩
  · cases h
    rw [w1] at hw; cases hw
    rw [b1, n1]; omega
  · cases h
    rw [w2] at hw; cases hw
    rw [b2, n2]; omega

theorem test_witness_OnlyTheHostsTriggerMovesANotedBuffer :
    Instr.wellFormed (session 1#32).params (.xfer 0) = true ∧ (session 1#32).session = some ⟨0x20001000#32, 256#32⟩ ∧
      (∀ v, Instr.xfer 0 ≠ .wrCtrlTrig (session 1#32).params.pri v) ∧ ∃ t, exec (.xfer 0) (session 1#32) = .next t :=
  ⟨by decide, by decide, fun _ => Instr.noConfusion, exists_next (by decide)⟩

theorem test_witness_EveryStepKeepsTheSessionInvariant :
    SessionInv (give (session 1#32) (.command (.hwstep 0x10#8 0#32))) ∧
      ∃ t, step (give (session 1#32) (.command (.hwstep 0x10#8 0#32))) = .next t :=
  ⟨⟨fun _ => by decide, fun _ => by decide⟩, exists_next (by decide)⟩

/-- Rule R64: the single burst ends the session, and its note goes. -/
theorem test_session_ends :
    nextWith (step (give (pair (session 1#32) { primary 1#32 true false with ctrl := 0x0022002B#32 }
      (restart false false)) (.command (.hwstep 0x10#8 0#32))))
      (fun t => t.session == none && !t.sessionActive) := by decide

theorem test_witness_BlockInvariantHoldsAtReset : tp.Valid := tp_valid

/-- The invariant in a session with the Primary Channel at its last word, and a step from there. -/
theorem test_witness_EveryStepKeepsTheBlockInvariant :
    BlockInv (give (session 1#32) (.command (.hwstep 0x10#8 0#32))) ∧
      ∃ t, step (give (session 1#32) (.command (.hwstep 0x10#8 0#32))) = .next t := by
  refine ⟨⟨tp_valid, by decide, ?_, ?_, by decide, ?_, by decide, rfl, by decide, by decide, ?_⟩,
    exists_next (by decide)⟩
  · have h : ∀ c : Fin 12, c ≠ 0 → (session 1#32).chan c.val = restart false false ∨
        (session 1#32).chan c.val = Channel.reset := by decide
    intro c hc
    by_cases h0 : c = 0
    · subst h0
      exact ⟨by decide, by decide, by decide, by decide, by decide, fun _ => ⟨1#32, by decide, by decide⟩⟩
    · rcases h ⟨c, hc⟩ (fun e => h0 (congrArg Fin.val e)) with e | e <;>
        (change ChannelOk tp ((session 1#32).chan c); rw [e])
      · exact ⟨by decide, by decide, by decide, by decide, by decide, fun h => by cases h⟩
      · exact ⟨by decide, by decide, by decide, by decide, by decide, fun h => by cases h⟩
  · intro c _; simp [State.abortBit, give, session, base, State.resetWith]
  · intro w hw
    have : w = 0x01234567#32 := by simpa [give, session] using hw
    subst this
    show (0x01234567#32).extractLsb' 30 2 = 0#2
    decide
  · decide

/-- A session in each phase of the loop (rule R198), from the last transfer of the Primary Channel on. -/
def loopState : LoopPhase → State
  | .capturing => pair (session 1#32) { primary 1#32 true false with writeAddr := .word 0x200013FC#32 } (restart false false)
  | .chainToRestart => pair (session 0#32) { primary 0#32 false false with writeAddr := .word 0x20001400#32 }
      (restart false true)
  | .restarting => pair (session 0#32) { primary 0#32 false false with writeAddr := .word 0x20001400#32 }
      (restart true false)
  | .chainToPrimary => pair (session 0#32) (primary 0#32 false true) (restart false false)

theorem buffer_ok : BufferInRam tp 0x20001000#32 256#32 := by
  refine ⟨by decide, by decide, fun a h1 h2 => ?_⟩
  have e1 : (0x20001000#32).toNat = 0x20001000 := rfl
  have e2 : (256#32).toNat = 256 := rfl
  simp only [inRam, tp, Params.default, List.any_cons, List.any_nil, Bool.or_false, Bool.and_eq_true, decide_eq_true_eq]
  omega

theorem descriptor_ok : DescriptorInRam tp 0x20001000#32 256#32 0x20000F00#32 := by
  refine ⟨by decide, fun a h1 h2 => ?_, by decide⟩
  have e1 : (0x20000F00#32).toNat = 0x20000F00 := rfl
  simp only [inRam, tp, Params.default, List.any_cons, List.any_nil, Bool.or_false, Bool.and_eq_true, decide_eq_true_eq]
  omega

theorem others_out (ph : LoopPhase) : OthersOut (loopState ph) := by
  have h : ∀ c : Fin 12, c ≠ 0 → c ≠ 1 → (loopState ph).chan c.val = Channel.reset := by cases ph <;> decide
  intro c hc h0 h1
  have hp : (loopState ph).params = tp := by cases ph <;> rfl
  rw [hp] at hc h0 h1
  rw [h ⟨c, hc⟩ (fun e => h0 (congrArg Fin.val e)) (fun e => h1 (congrArg Fin.val e))]
  exact ⟨rfl, rfl, fun h => by cases h⟩

/-- Every phase of the loop has a state in it, and each takes the step that leaves the phase. -/
theorem test_witness_HardwareStepsKeepTheLoop (ph : LoopPhase) :
    LoopGoodIn ph (loopState ph) 0x20001000#32 256#32 0x20000F00#32 ∧
      Instr.wellFormed (loopState ph).params (.xfer 0) = true ∧ hwStepOf (.xfer 0) ≠ none := by
  refine ⟨?_, by cases ph <;> decide, by decide⟩
  cases ph
  · exact ⟨tp_valid, by decide, by decide, by decide, by decide, by decide, by decide, by decide, by decide, by decide,
      by decide, by decide, by decide, buffer_ok, by unfold CountPositive; decide, descriptor_ok, others_out .capturing,
      by decide, by decide, ⟨by decide, by decide⟩, 1#32, by decide, by decide, by decide, by decide⟩
  · exact ⟨tp_valid, by decide, by decide, by decide, by decide, by decide, by decide, by decide, by decide, by decide,
      by decide, by decide, by decide, buffer_ok, by unfold CountPositive; decide, descriptor_ok, others_out .chainToRestart,
      ⟨by decide, by decide⟩, by decide, by decide, by decide⟩
  · exact ⟨tp_valid, by decide, by decide, by decide, by decide, by decide, by decide, by decide, by decide, by decide,
      by decide, by decide, by decide, buffer_ok, by unfold CountPositive; decide, descriptor_ok, others_out .restarting,
      ⟨by decide, by decide⟩, by decide, by decide, by decide, by decide⟩
  · exact ⟨tp_valid, by decide, by decide, by decide, by decide, by decide, by decide, by decide, by decide, by decide,
      by decide, by decide, by decide, buffer_ok, by unfold CountPositive; decide, descriptor_ok, others_out .chainToPrimary,
      by decide, by decide, ⟨by decide, by decide⟩, by decide⟩

/-- The bytes next to the buffer on both sides, and a step that writes into it. -/
theorem test_witness_HardwareStepsWriteOnlyTheBuffer :
    LoopGoodIn .capturing (loopState .capturing) 0x20001000#32 256#32 0x20000F00#32 ∧
      (∃ t, exec (.xfer 0) (loopState .capturing) = .next t) ∧
      (0x20000FFF < (0x20001000#32).toNat ∧ (0x20001000#32).toNat + 4 * (256#32).toNat ≤ 0x20001400) :=
  ⟨(test_witness_HardwareStepsKeepTheLoop .capturing).1, exists_next (by decide), by decide⟩

/-- The reset state with the host about to configure a session. -/
def starting : State :=
  { base with host := ⟨sessionConfig tp 0x20001000#32 256#32 0x20000F00#32, [], none⟩ }

theorem test_witness_StartSessionReachesTheLoop :
    starting.params.Valid ∧ starting.ch.length = starting.params.nch ∧ starting.quiescent = true ∧ starting.fault = none ∧
      starting.refusal = none ∧ BufferInRam starting.params 0x20001000#32 256#32 ∧ CountPositive 256#32 ∧
      DescriptorInRam starting.params 0x20001000#32 256#32 0x20000F00#32 ∧ OthersOut starting ∧
      starting.host.prog = sessionConfig starting.params 0x20001000#32 256#32 0x20000F00#32 := by
  refine ⟨tp_valid, by decide, by decide, by decide, by decide, buffer_ok, by unfold CountPositive; decide,
    descriptor_ok, ?_, rfl⟩
  have h : ∀ c : Fin 12, starting.chan c.val = Channel.reset := by decide
  intro c hc _ _
  rw [h ⟨c, hc⟩]
  exact ⟨rfl, rfl, fun h => by cases h⟩

end Sys2Proof.Tests
end

section
/-! The statements of 00_scope.md. -/

namespace Sys2Proof.Scope

open Machine

/-- Settles O10 (rules R6, R42): the law `State.StaysWritten`, named for rule R21, follows every operation and every turn
through the step and records the parameters beside the written registers. -/
theorem noStepChangesTheParameters : Obligations.NoStepChangesTheParameters := by
  intro s t hstep
  have hkept : s.StaysWritten t := State.StaysWritten.step hstep
  exact hkept.params

end Sys2Proof.Scope
end

section
/-! SUPPORT. What the operations can do to the channel records and to the note of the session (rules R44, R125, R154, R158,
R182): the case analysis the statements of 10_state.md on control words and on the session note share. -/

namespace Sys2Proof.Machine

/-- An update of one record shows at that channel, unless the block does not have it, and at no other. -/
theorem chan_setChan_cases (s : State) (c : Nat) (k : Channel) (d : Nat) :
    (c = d ∧ (s.setChan c k).chan d = k) ∨ (s.setChan c k).chan d = s.chan d := by
  by_cases hc : c < s.ch.length
  · rw [chan_setChan s c k d hc]
    by_cases e : c = d
    · exact .inl ⟨e, if_pos e⟩
    · exact .inr (if_neg e)
  · rw [setChan_of_le s c k (by omega)]
    exact .inr rfl

/-- Of two updates of one record the second stands. -/
@[simp] theorem setChan_setChan (s : State) (c : Nat) (k k' : Channel) :
    (s.setChan c k).setChan c k' = s.setChan c k' := by
  simp [State.setChan, State.setCh]

/-- Only a channel the block has is pending. -/
theorem lt_length_of_pend {s : State} {c : Nat} (h : (s.chan c).pend = true) : c < s.ch.length := by
  by_contra hc
  rw [State.chan, List.getD_eq_default _ _ (by omega)] at h
  cases h

/-- A read of the FIFO port answers its head and removes it (rule R116). -/
theorem fifoRead_eq_next {s t : State} {v : Word} :
    fifoRead s = .next (v, t) ↔ ∃ rest, s.fifo = v :: rest ∧ t = s.setFifo rest := by
  unfold fifoRead
  split
  · rename_i h; simp [h]
  · rename_i x rest h
    simp only [Host.Outcome.next.injEq, Prod.mk.injEq, h, List.cons.injEq]
    constructor
    · rintro ⟨rfl, rfl⟩; exact ⟨rest, ⟨rfl, rfl⟩, rfl⟩
    · rintro ⟨_, ⟨rfl, rfl⟩, rfl⟩; exact ⟨rfl, rfl⟩

/-- Only an aligned address is written (rules R52, R57). -/
theorem busWrite32_aligned {m : Master} {a v : Word} {s t : State} (h : busWrite32 m a v s = .next t) :
    aligned a = true := by
  unfold busWrite32 at h
  split at h
  · cases h
  · rename_i ha; simpa using ha

/-- A bus read changes no channel record, no note and no parameter (rules R52, R135). -/
theorem busRead32_keeps {m : Master} {a v : Word} {s t : State} (h : busRead32 m a s = .next (v, t)) :
    t.ch = s.ch ∧ t.session = s.session ∧ t.params = s.params := by
  rcases busRead32_cases h with rfl | ⟨-, _, -, rfl⟩ | ⟨-, rfl, -⟩ <;> exact ⟨rfl, rfl, rfl⟩

/-- What holds of a state and is kept by the abort of each channel holds after the abort of several (rule R182). -/
theorem abortChannels_induction {P : State → Prop}
    (hP : ∀ s c k n, P s → abortedAs (s.chan c) k → P ((s.setChan c k).setDraws n)) (cs : List Nat) {s : State}
    (h : P s) : P (abortChannels cs s) := by
  induction cs generalizing s with
  | nil => exact h
  | cons c cs ih =>
    unfold abortChannels
    split
    · obtain ⟨k, n, hk, e⟩ := abortChannel_cases c s
      rw [e]
      exact ih (hP s c k n h hk)
    · exact ih h

/-- Between `s` and `t` no channel is started, no control word is stored and no session is noted. -/
structure State.StartsNothing (s t : State) : Prop where
  params : t.params = s.params
  session : t.session = s.session
  ctrl : ∀ d, (t.chan d).ctrl = (s.chan d).ctrl
  busy : ∀ d, (t.chan d).busy = true → (s.chan d).busy = true

namespace State.StartsNothing

theorem of_ch {s t : State} (hc : t.ch = s.ch) (hs : t.session = s.session) (hp : t.params = s.params) :
    s.StartsNothing t := by
  have hchan : ∀ d, t.chan d = s.chan d := fun d => by unfold State.chan; rw [hc]
  exact ⟨hp, hs, fun d => by rw [hchan], fun d => by rw [hchan]; exact id⟩

theorem refl (s : State) : s.StartsNothing s := of_ch rfl rfl rfl

theorem trans {s t u : State} (h : s.StartsNothing t) (g : t.StartsNothing u) : s.StartsNothing u :=
  ⟨g.params.trans h.params, g.session.trans h.session, fun d => (g.ctrl d).trans (h.ctrl d),
    fun d hb => h.busy d (g.busy d hb)⟩

theorem setChan (s : State) (c : Nat) (k : Channel) (hc : k.ctrl = (s.chan c).ctrl)
    (hb : k.busy = true → (s.chan c).busy = true) : s.StartsNothing (s.setChan c k) := by
  refine ⟨rfl, rfl, fun d => ?_, fun d => ?_⟩ <;> rcases chan_setChan_cases s c k d with ⟨rfl, e⟩ | e <;> rw [e]
  · exact hc
  · exact hb
  · exact id

theorem raiseIrq (c : Nat) (s : State) : s.StartsNothing (Machine.raiseIrq c s) := by
  rcases raiseIrq_cases c s with e | e <;> rw [e]
  · exact refl s
  · exact setChan s c _ rfl id

theorem chainRequest {c : Nat} {s t : State} (h : Machine.chainRequest c s = .next t) : s.StartsNothing t := by
  obtain ⟨-, -, rfl⟩ := chainRequest_eq_next.mp h
  exact setChan s c _ rfl id

theorem complete {c : Nat} {s t : State} (h : Machine.complete c s = .next t) : s.StartsNothing t := by
  have hidle : s.StartsNothing (s.setChan c { s.chan c with busy := false }) := setChan s c _ rfl nofun
  rcases complete_cases h with ⟨-, rfl⟩ | ⟨-, u, hu, rfl⟩
  · exact hidle.trans (raiseIrq _ _)
  · exact (hidle.trans (chainRequest hu)).trans (raiseIrq _ _)

theorem finishXfer {c : Nat} {w : Word} {s t : State} (h : Machine.finishXfer c w s = .next t) : s.StartsNothing t := by
  obtain ⟨n, u, -, hu, h⟩ := finishXfer_cases h
  have hcount : s.StartsNothing u := hu ▸ setChan s c _ rfl id
  rcases h with ⟨-, h⟩ | ⟨-, rfl⟩
  · exact hcount.trans (complete h)
  · exact hcount

theorem abortChannels (cs : List Nat) (s : State) : s.StartsNothing (Machine.abortChannels cs s) :=
  abortChannels_induction (P := s.StartsNothing) (fun u c k n hu hk => by
    refine (hu.trans (setChan u c k ?_ ?_)).trans (of_ch rfl rfl rfl)
    · rcases hk with ⟨-, _, _, _, rfl⟩ | ⟨-, rfl⟩ <;> rfl
    · rcases hk with ⟨-, _, _, _, rfl⟩ | ⟨hb, rfl⟩
      · exact nofun
      · exact id) cs (refl s)

theorem deliver {r : Res (Word × State)} {s t : State} (hr : ∀ v u, r = .next (v, u) → s.StartsNothing u)
    (h : Machine.deliver r = .next t) : s.StartsNothing t := by
  obtain ⟨v, u, e, rfl⟩ := deliver_eq_next.mp h
  exact (hr v u e).trans (of_ch rfl rfl rfl)

theorem chanRead {c : Nat} {r : ChanReg} {s t : State} (h : Machine.deliver (chanRead c r s) = .next t) :
    s.StartsNothing t :=
  deliver (fun _ _ e => (chanRead_eq_next.mp e).2.2 ▸ refl s) h

/-- A store to an address or to the count starts nothing (rules R126 to R128). -/
theorem chanWrite {m : Master} {c : Nat} {r : ChanReg} {v : Word} {s t : State} (hr : r ≠ .ctrl) (hr' : r ≠ .ctrlTrig)
    (h : Machine.chanWrite m c r v s = .next t) : s.StartsNothing t := by
  obtain ⟨-, -, -, -, hstore⟩ := chanWrite_eq_next.mp h
  rcases chanStore_cases hstore with ⟨-, rfl⟩ | ⟨-, rfl⟩ | ⟨-, rfl⟩ | ⟨e, -⟩ | ⟨e, -⟩
  · exact setChan s c _ rfl id
  · exact setChan s c _ rfl id
  · exact setChan s c _ rfl id
  · exact absurd e (by simp [hr, hr'])
  · exact absurd e hr'

/-- A bus write starts nothing, unless it is a write of a channel register. -/
theorem or_chanWrite_of_busWrite32 {m : Master} {a v : Word} {s t : State} (h : busWrite32 m a v s = .next t) :
    s.StartsNothing t ∨ ∃ c r, inDma s.params a = true ∧ regSel s.params (dmaOff s.params a) = some (.chan c r) ∧
      Machine.chanWrite m c r v s = .next t := by
  rcases busWrite32_cases h with rfl | hw | ⟨-, -, rfl⟩
  · exact .inl (of_ch rfl rfl rfl)
  · exact .inr hw
  · exact .inl (of_ch rfl rfl rfl)

end State.StartsNothing

/-- A trigger changes no control word (rule R152). -/
theorem trigger_keeps_ctrl {m : Master} {c : Nat} {s t : State} (h : trigger m c s = .next t) (d : Nat) :
    (t.chan d).ctrl = (s.chan d).ctrl := by
  obtain ⟨_, buf, n, -, -, -, -, rfl⟩ := trigger_eq_next.mp h
  rw [noteSession_chan]
  rcases chan_setChan_cases s c { s.chan c with countLive := .word n, busy := true } d with ⟨rfl, e⟩ | e <;> rw [e]

/-- The ways an operation that leads from `s` to `t` can act on channels and on the note: none starts a channel or stores a
control word but the write of a channel register, by the host or by a transfer, and `START`. -/
inductive ChannelEffect (s t : State) : Instr → Prop where
  | nothing {i : Instr} (h : s.StartsNothing t) : ChannelEffect s t i
  | hostWrite {c : Nat} {r : ChanReg} {v : Word} (h : chanWrite .host c r v s = .next t) :
      ChannelEffect s t (writeInstr c v r)
  /-- The host's access at a bus address, which is no operation the block has where the address reaches a register. -/
  | hostBusWrite {c : Nat} {r : ChanReg} {a v : Word} (ha : routedAsMemory s.params a = false)
      (h : chanWrite .host c r v s = .next t) : ChannelEffect s t (.wrMem a v)
  | transferWrite {c d : Nat} {r : ChanReg} {wa v : Word} {u x : State} (hwa : (s.chan c).writeAddr = .word wa)
      (hd : inDma s.params wa = true) (hr : regSel s.params (dmaOff s.params wa) = some (.chan d r))
      (hu : s.StartsNothing u) (h : chanWrite (.dma c) d r v u = .next x) (hx : x.StartsNothing t) :
      ChannelEffect s t (.xfer c)
  | chainStart {c : Nat} {u : State} (hu : s.StartsNothing u) (h : trigger (.dma c) c u = .next t) :
      ChannelEffect s t (.start c)

theorem execXfer_effect {c : Nat} {s t : State} (h : execXfer c s = .next t) : ChannelEffect s t (.xfer c) := by
  unfold execXfer at h
  split at h
  · obtain ⟨ra, v, u, wa, x, -, hread, hwa, hwrite, hfin⟩ := xferWord_cases h
    obtain ⟨hch, hsession, hparams⟩ := busRead32_keeps hread
    have hu : s.StartsNothing u := .of_ch hch hsession hparams
    have hx : x.StartsNothing t := .finishXfer hfin
    rcases State.StartsNothing.or_chanWrite_of_busWrite32 hwrite with hw | ⟨d, r, hd, hr, hw⟩
    · exact .nothing ((hu.trans hw).trans hx)
    · rw [hparams] at hd hr
      have hwa' : (s.chan c).writeAddr = .word wa := by rw [← hwa]; unfold State.chan; rw [hch]
      exact .transferWrite hwa' hd hr hu hw hx
  · cases h; exact .nothing (.refl s)

theorem execStart_effect {c : Nat} {s t : State} (h : execStart c s = .next t) : ChannelEffect s t (.start c) := by
  have htaken : s.StartsNothing (s.setChan c { s.chan c with pend := false }) := .setChan s c _ rfl id
  unfold execStart at h
  split at h
  · dsimp only at h
    split at h
    · exact .chainStart htaken h
    · cases h; exact .nothing htaken
  · cases h; exact .nothing (.refl s)

theorem execWrMem_effect {a v : Word} {s t : State} (h : execWrMem a v s = .next t) : ChannelEffect s t (.wrMem a v) := by
  have ha := busWrite32_aligned h
  rcases State.StartsNothing.or_chanWrite_of_busWrite32 h with hw | ⟨c, r, hd, -, hw⟩
  · exact .nothing hw
  · exact .hostBusWrite (by simp [routedAsMemory, ha, hd]) hw

theorem execAbortDone_startsNothing {s t : State} (h : execAbortDone s = .next t) : s.StartsNothing t := by
  unfold execAbortDone at h
  split at h
  · cases h; exact (State.StartsNothing.abortChannels _ s).trans (.of_ch rfl rfl rfl)
  · cases h; exact .refl s

/-- What `SAMPLE_IN` can leave: the state as it was, the sample's word pushed where there is room, or the sample shifted in
(rules R109, R110). -/
theorem execSampleIn_cases {x : Sample} {s t : State} (h : execSampleIn x s = .next t) :
    t = s ∨
    (Config.pushThreshold ≤ s.sampler.isrCount + Config.busWidth ∧ s.fifo.length < s.params.fifoDepth ∧
      t = (fifoPush (shiftIn s.params.inShiftDir s.sampler.isr x) s).setSampler
        { s.sampler with phase := .low, isr := 0#32, isrCount := 0 }) ∨
    (s.sampler.isrCount + Config.busWidth < Config.pushThreshold ∧
      t = s.setSampler { s.sampler with
        phase := .low, isr := shiftIn s.params.inShiftDir s.sampler.isr x
        isrCount := s.sampler.isrCount + Config.busWidth }) := by
  unfold execSampleIn at h
  split at h
  · rename_i hen
    dsimp only at h
    split at h
    · rename_i hdue
      cases h
      simp only [State.sampleInEnabled, hdue, Bool.and_eq_true, decide_eq_true_eq, Bool.not_true, Bool.false_or] at hen
      simp only [State.pushDue, decide_eq_true_eq] at hdue
      exact .inr (.inl ⟨hdue, hen.2, rfl⟩)
    · rename_i hdue
      cases h
      simp only [State.pushDue, decide_eq_true_eq, Nat.not_le] at hdue
      exact .inr (.inr ⟨hdue, rfl⟩)
  · cases h; exact .inl rfl

/-- What `WAVE_STEP` can leave: the state as it was, or the next level driven and the index advanced in the pattern (rule R121).
-/
theorem execWaveStep_cases {s t : State} (h : execWaveStep s = .next t) :
    t = s ∨ ∃ b, s.params.wavePattern[s.wave.idx]? = some b ∧
      t = s.setWave { s.wave with pin := .bit b, idx := (s.wave.idx + 1) % s.params.wavePattern.length } := by
  unfold execWaveStep at h
  split at h
  · split at h
    · rename_i b hb; cases h; exact .inr ⟨b, hb, rfl⟩
    · cases h; exact .inl rfl
  · cases h; exact .inl rfl

/-- Every operation acts on channels and on the note in one of those ways. -/
theorem exec_effect {i : Instr} {s t : State} (h : exec i s = .next t) : ChannelEffect s t i := by
  cases i with
  | wrReadAddr c v => exact .hostWrite (r := .readAddr) h
  | wrWriteAddr c v => exact .hostWrite (r := .writeAddr) h
  | wrTransCount c v => exact .hostWrite (r := .transCount) h
  | wrCtrlTrig c v => exact .hostWrite (r := .ctrlTrig) h
  | wrCtrl c v => exact .hostWrite (r := .ctrl) h
  | rdReadAddr c => exact .nothing (.chanRead h)
  | rdWriteAddr c => exact .nothing (.chanRead h)
  | rdTransCount c => exact .nothing (.chanRead h)
  | rdCtrlTrig c => exact .nothing (.chanRead h)
  | rdCtrl c => exact .nothing (.chanRead h)
  | wrAbort v => cases h; exact .nothing (.of_ch rfl rfl rfl)
  | rdAbort => cases h; exact .nothing (.of_ch rfl rfl rfl)
  | rdFifo =>
    refine .nothing (.deliver (r := fifoRead s) (fun v u hu => ?_) h)
    obtain ⟨rest, -, rfl⟩ := fifoRead_eq_next.mp hu
    exact .of_ch rfl rfl rfl
  | wrFifo v => cases h
  | rdMem a =>
    refine .nothing (.deliver (r := busRead32 .host a s) (fun v u hu => ?_) h)
    obtain ⟨hch, hsession, hparams⟩ := busRead32_keeps hu
    exact .of_ch hch hsession hparams
  | wrMem a v => exact execWrMem_effect h
  | samplerStart => simp only [exec, execSamplerStart] at h; split at h <;> cases h <;> exact .nothing (.of_ch rfl rfl rfl)
  | samplerStop => cases h; exact .nothing (.of_ch rfl rfl rfl)
  | waveStart => simp only [exec, execWaveStart] at h; split at h <;> cases h <;> exact .nothing (.of_ch rfl rfl rfl)
  | waveStop => cases h; exact .nothing (.of_ch rfl rfl rfl)
  | xfer c => exact execXfer_effect h
  | start c => exact execStart_effect h
  | abortDone => exact .nothing (execAbortDone_startsNothing h)
  | sampleHigh => simp only [exec, execSampleHigh] at h; split at h <;> cases h <;> exact .nothing (.of_ch rfl rfl rfl)
  | sampleIn x => rcases execSampleIn_cases h with rfl | ⟨-, -, rfl⟩ | ⟨-, rfl⟩ <;> exact .nothing (.of_ch rfl rfl rfl)
  | sampleLow => simp only [exec, execSampleLow] at h; split at h <;> cases h <;> exact .nothing (.of_ch rfl rfl rfl)
  | waveStep => rcases execWaveStep_cases h with rfl | ⟨b, -, rfl⟩ <;> exact .nothing (.of_ch rfl rfl rfl)
  | enc => simp only [exec, execEnc] at h; split at h <;> cases h; exact .nothing (.of_ch rfl rfl rfl)

end Sys2Proof.Machine
end

section
/-! SUPPORT. The note of a session (rules R44, R64; log 15): which writes move it, and that a busy Primary Channel has one. -/

namespace Sys2Proof.Machine

open Safety

/-- The note stays exactly while the session is active. -/
theorem closeSession_eq (s : State) :
    s.closeSession = { s with session := if s.sessionActive = true then s.session else none } := by
  unfold State.closeSession
  split <;> rfl

/-- The trigger of another channel than the Primary Channel notes no session. -/
theorem noteSession_of_ne (s : State) (m : Master) {c : Nat} (buf n : Word) (hc : c ≠ s.params.pri) :
    s.noteSession m c buf n = s := by
  unfold State.noteSession
  exact if_neg fun h => hc h.1

/-- After a trigger of the Primary Channel a session is noted. -/
theorem noteSession_pri (s : State) (m : Master) (buf n : Word) : (s.noteSession m s.params.pri buf n).session ≠ none := by
  unfold State.noteSession
  split
  · exact nofun
  · rename_i h
    exact fun hnone => h ⟨rfl, .inr hnone⟩

/-- A trigger moves a noted session only if the host triggers the Primary Channel (rule R44). -/
theorem trigger_keeps_session {m : Master} {c : Nat} {s t : State} {x : Session} (h : trigger m c s = .next t)
    (hx : s.session = some x) (hm : m = .host → c ≠ s.params.pri) : t.session = some x := by
  obtain ⟨_, buf, n, -, -, -, -, rfl⟩ := trigger_eq_next.mp h
  cases m with
  | host => rw [noteSession_of_ne (s.setChan c _) .host buf n (hm rfl)]; exact hx
  | dma d => rw [noteSession_keeps (s.setChan c _) c d buf n x hx]; exact hx

/-- A register write moves a noted session only if it is the host's triggering write of the Primary Channel (rule R44). -/
theorem chanWrite_keeps_session {m : Master} {c : Nat} {r : ChanReg} {v : Word} {s t : State} {x : Session}
    (h : chanWrite m c r v s = .next t) (hx : s.session = some x)
    (hm : m = .host → r = .ctrlTrig → c ≠ s.params.pri) : t.session = some x := by
  obtain ⟨-, -, -, -, hstore⟩ := chanWrite_eq_next.mp h
  rcases chanStore_cases hstore with ⟨-, rfl⟩ | ⟨-, rfl⟩ | ⟨-, rfl⟩ | ⟨-, -, rfl⟩ | ⟨hr, -, -, ht⟩
  · exact hx
  · exact hx
  · exact hx
  · exact hx
  · exact trigger_keeps_session ht hx fun e => hm e hr

/-- The second half of `SessionInv`, which each operation keeps by itself: while the Primary Channel is busy a session is
noted (rule R64). -/
def State.PrimaryNoted (s : State) : Prop := (s.chan s.params.pri).busy = true → s.session ≠ none

namespace State.PrimaryNoted

theorem of_startsNothing {s t : State} (h : s.PrimaryNoted) (hst : s.StartsNothing t) : t.PrimaryNoted := fun hb => by
  rw [hst.params] at hb
  rw [hst.session]
  exact h (hst.busy _ hb)

theorem setCtrl {s : State} (h : s.PrimaryNoted) (c : Nat) (v : Word) :
    (s.setChan c { s.chan c with ctrl := v }).PrimaryNoted := by
  intro hb
  rcases chan_setChan_cases s c { s.chan c with ctrl := v } s.params.pri with ⟨hc, e⟩ | e <;>
    rw [setChan_params, e] at hb
  · exact h (hc ▸ hb)
  · exact h hb

theorem of_trigger {m : Master} {c : Nat} {s t : State} (h : s.PrimaryNoted) (ht : trigger m c s = .next t) :
    t.PrimaryNoted := by
  obtain ⟨_, buf, n, -, -, -, -, rfl⟩ := trigger_eq_next.mp ht
  by_cases hc : c = s.params.pri
  · subst hc
    exact fun _ => noteSession_pri (s.setChan _ _) m buf n
  · rw [noteSession_of_ne (s.setChan c _) m buf n hc]
    intro hb
    rw [setChan_params, chan_setChan_ne _ _ _ hc] at hb
    exact h hb

theorem of_chanWrite {m : Master} {c : Nat} {r : ChanReg} {v : Word} {s t : State} (h : s.PrimaryNoted)
    (hw : chanWrite m c r v s = .next t) : t.PrimaryNoted := by
  obtain ⟨-, -, -, -, hstore⟩ := chanWrite_eq_next.mp hw
  rcases chanStore_cases hstore with ⟨-, rfl⟩ | ⟨-, rfl⟩ | ⟨-, rfl⟩ | ⟨-, -, rfl⟩ | ⟨-, -, -, ht⟩
  · exact h.of_startsNothing (.setChan s c _ rfl id)
  · exact h.of_startsNothing (.setChan s c _ rfl id)
  · exact h.of_startsNothing (.setChan s c _ rfl id)
  · exact h.setCtrl c v
  · exact (h.setCtrl c v).of_trigger ht

theorem of_exec {i : Instr} {s t : State} (h : s.PrimaryNoted) (he : exec i s = .next t) : t.PrimaryNoted := by
  cases exec_effect he with
  | nothing hn => exact h.of_startsNothing hn
  | hostWrite hw => exact h.of_chanWrite hw
  | hostBusWrite _ hw => exact h.of_chanWrite hw
  | transferWrite _ _ _ hu hw hx => exact ((h.of_startsNothing hu).of_chanWrite hw).of_startsNothing hx
  | chainStart hu ht => exact (h.of_startsNothing hu).of_trigger ht

/-- A session over is forgotten and an active one kept, so at the end of a turn the whole invariant of the note holds. -/
theorem sessionInv_closeSession {s : State} (h : s.PrimaryNoted) : SessionInv s.closeSession where
  noted_active hn := by rw [closeSession_sessionActive]; exact closeSession_active s hn
  busy_noted hb := by
    rw [closeSession_chan, closeSession_params] at hb
    have hactive : s.sessionActive = true := by simp [State.sessionActive, hb]
    rw [closeSession_of_active s hactive]
    exact h hb

end State.PrimaryNoted

end Sys2Proof.Machine
end

section
/-! SUPPORT. The invariant of the block under each shared operation (rules R26, R30, R32, R33, R35, R36, R97, R109, R114, R152,
R153, R156): what an update of one part of the state has to keep, then the operations by their updates. -/

namespace Sys2Proof.Safety

open Machine

/-! Channel records. -/

/-- A channel that is not busy needs only an admitted control word. -/
theorem ChannelOk.of_not_busy {p : Params} {k : Channel} (ha : ctrlRefusal p k.ctrl = none) (hb : k.busy = false) :
    ChannelOk p k where
  admitted := ha
  pend_not_busy _ := hb
  busy_enabled h := by rw [hb] at h; cases h
  busy_readAddr h := by rw [hb] at h; cases h
  busy_writeAddr h := by rw [hb] at h; cases h
  busy_count h := by rw [hb] at h; cases h

/-- The record that stands for a channel the block does not have (log 19). -/
theorem ChannelOk.reset (p : Params) : ChannelOk p Channel.reset := .of_not_busy rfl rfl

/-- The record of an aborted channel (rules R182, R188). -/
theorem ChannelOk.of_abortedAs {p : Params} {k k' : Channel} (h : ChannelOk p k) (hk : abortedAs k k') :
    ChannelOk p k' := by
  rcases hk with ⟨-, _, _, _, rfl⟩ | ⟨hb, rfl⟩
  · exact .of_not_busy h.admitted rfl
  · exact .of_not_busy h.admitted hb

/-- The record after a transfer that was not the last (rule R154). -/
theorem ChannelOk.advance {p : Params} {k : Channel} (h : ChannelOk p k) (i j : Nat) {n : Word} (hn : n ≠ 0#32) :
    ChannelOk p { k with
      readAddr := advanceAddr i k.readAddr, writeAddr := advanceAddr j k.writeAddr, countLive := .word n } where
  admitted := h.admitted
  pend_not_busy := h.pend_not_busy
  busy_enabled := h.busy_enabled
  busy_readAddr hb := State.StaysWritten.advanceAddr (h.busy_readAddr hb)
  busy_writeAddr hb := State.StaysWritten.advanceAddr (h.busy_writeAddr hb)
  busy_count _ := ⟨n, rfl, hn⟩

/-! The sampler's words. -/

/-- With `LEFT` the filled bits are the lowest (rule R112). -/
theorem unshiftedClear_left_iff {w : Word} {n : Nat} :
    unshiftedClear .left w n ↔ ∀ j, w.getLsbD (n + j) = false := by
  show w >>> n = 0#32 ↔ _
  refine ⟨fun h j => ?_, fun h => BitVec.eq_of_getLsbD_eq fun j _ => ?_⟩
  · rw [← BitVec.getLsbD_ushiftRight, h, BitVec.getLsbD_zero]
  · rw [BitVec.getLsbD_ushiftRight, h, BitVec.getLsbD_zero]

/-- With `RIGHT` the filled bits are the highest (rule R113). -/
theorem unshiftedClear_right_iff {w : Word} {n : Nat} :
    unshiftedClear .right w n ↔ ∀ j, n + j < 32 → w.getLsbD j = false := by
  show w <<< n = 0#32 ↔ _
  refine ⟨fun h j hj => ?_, fun h => BitVec.eq_of_getLsbD_eq fun j hj => ?_⟩
  · have hz : (w <<< n).getLsbD (n + j) = false := by rw [h, BitVec.getLsbD_zero]
    have hle : ¬n + j < n := by omega
    simpa only [BitVec.getLsbD_shiftLeft, hj, hle, Nat.add_sub_cancel_left, decide_true, decide_false, Bool.not_false,
      Bool.true_and] using hz
  · rw [BitVec.getLsbD_shiftLeft, BitVec.getLsbD_zero]
    by_cases hlt : j < n
    · simp [hlt]
    · rw [h (j - n) (by omega), Bool.and_false]

/-- An empty shift register (rules R106, R109). -/
theorem unshiftedClear_zero (d : ShiftDir) : unshiftedClear d 0#32 0 := by cases d <;> rfl

/-- Shifting a sample in leaves ten bits fewer unfilled (rules R109, R112, R113). -/
theorem unshiftedClear_shiftIn {d : ShiftDir} {isr : Word} {n : Nat} (x : Sample) (h : unshiftedClear d isr n) :
    unshiftedClear d (shiftIn d isr x) (n + Config.busWidth) := by
  cases d with
  | left =>
    refine unshiftedClear_left_iff.mpr fun j => ?_
    have hisr : isr.getLsbD (n + 10 + j - 10) = false := by
      rw [show n + 10 + j - 10 = n + j from by omega]; exact unshiftedClear_left_iff.mp h j
    have hx : x.getLsbD (n + 10 + j) = false := BitVec.getLsbD_of_ge x _ (by omega)
    simp only [shiftIn, Config.busWidth, BitVec.getLsbD_or, BitVec.getLsbD_shiftLeft, BitVec.getLsbD_setWidth, hisr, hx,
      Bool.and_false, Bool.or_false]
  | right =>
    refine unshiftedClear_right_iff.mpr fun j hj => ?_
    simp only [Config.busWidth] at hj
    have hisr : isr.getLsbD (10 + j) = false := unshiftedClear_right_iff.mp h _ (by omega)
    have hx : j < 32 - 10 := by omega
    simp [shiftIn, Config.busWidth, hisr, hx]

/-- A shift register filled to the threshold has the unfilled bits of a pushed word clear (rules R112, R113, R213). -/
theorem unfilledClear_of_threshold {d : ShiftDir} {w : Word} (h : unshiftedClear d w Config.pushThreshold) :
    unfilledClear d w := by
  cases d with
  | left =>
    refine BitVec.eq_of_getLsbD_eq fun j _ => ?_
    have hbit : w.getLsbD (30 + j) = false := unshiftedClear_left_iff.mp h j
    rw [BitVec.getLsbD_extractLsb', hbit, Bool.and_false, BitVec.getLsbD_zero]
  | right =>
    refine BitVec.eq_of_getLsbD_eq fun j hj => ?_
    have hbit : w.getLsbD (0 + j) = false :=
      unshiftedClear_right_iff.mp h _ (by simp only [Config.pushThreshold]; omega)
    rw [BitVec.getLsbD_extractLsb', hbit, Bool.and_false, BitVec.getLsbD_zero]

/-! Updates of one part of the state. -/

namespace BlockInv

variable {s t : State}

/-- The invariant is about seven parts of the state. -/
theorem of_parts (h : BlockInv s) (hparams : t.params = s.params) (hch : t.ch = s.ch)
    (habort : t.abortPending = s.abortPending) (hfifo : t.fifo = s.fifo) (hsampler : t.sampler = s.sampler)
    (hwave : t.wave = s.wave) (hmem : t.mem = s.mem) : BlockInv t := by
  cases s; cases t
  dsimp only at hparams hch habort hfifo hsampler hwave hmem
  subst hparams hch habort hfifo hsampler hwave hmem
  exact { h with }

/-- Every record is as `ChannelOk` says, the one that stands for channels the block does not have too. -/
theorem chan (h : BlockInv s) (c : Nat) : ChannelOk s.params (s.chan c) := by
  by_cases hc : c < s.params.nch
  · exact h.channel_ok c hc
  · have hreset : s.chan c = Channel.reset := by
      have hlen := h.channels
      simp [State.chan, List.getD, List.getElem?_eq_none (show s.ch.length ≤ c by omega)]
    rw [hreset]
    exact .reset s.params

theorem setChan (h : BlockInv s) (c : Nat) {k : Channel} (hk : ChannelOk s.params k) : BlockInv (s.setChan c k) :=
  { h with
    channels := (setChan_ch_length s c k).trans h.channels
    channel_ok := fun d _ => by
      rcases chan_setChan_cases s c k d with ⟨-, e⟩ | e <;> rw [e]
      · exact hk
      · exact h.chan d }

theorem setFifo (h : BlockInv s) {x : List Word} (hdepth : x.length ≤ s.params.fifoDepth)
    (hpacked : ∀ w ∈ x, unfilledClear s.params.inShiftDir w) : BlockInv (s.setFifo x) :=
  { h with fifo_depth := hdepth, fifo_packed := hpacked }

theorem setSampler (h : BlockInv s) {x : Sampler}
    (hcount : x.isrCount % Config.busWidth = 0 ∧ x.isrCount < Config.pushThreshold)
    (hpacked : unshiftedClear s.params.inShiftDir x.isr x.isrCount) : BlockInv (s.setSampler x) :=
  { h with isr_count := hcount, isr_packed := hpacked }

theorem setWave (h : BlockInv s) {x : Wave} (hidx : x.idx < s.params.wavePattern.length) : BlockInv (s.setWave x) :=
  { h with wave_idx := hidx }

theorem setAbortPending (h : BlockInv s) {x : Word} (hmask : ∀ c, s.params.nch ≤ c → x.getLsbD c = false) :
    BlockInv (s.setAbortPending x) :=
  { h with abort_mask := hmask }

/-- An aligned word lies in the address space, so its four bytes do (rules R50, R57). -/
theorem writeMem (h : BlockInv s) {a : Word} (v : Word) (ha : aligned a = true) :
    BlockInv (s.setMem (memWriteWord s.mem a v)) :=
  { h with
    mem_wf := memWriteWord_wf a v h.mem_wf
    mem_space := fun x hx => by
      rcases mem_memWriteWord hx with hx | ⟨-, hlt⟩
      · exact h.mem_space x hx
      · have haligned := (aligned_iff a).mp ha
        have hword := a.isLt
        omega }

/-- The pattern is not empty, so it has an index after any (rules R6, R35). -/
theorem wavePattern_length_pos (h : BlockInv s) : 0 < s.params.wavePattern.length :=
  List.length_pos_iff.mpr h.params_valid.wavePattern_ne

theorem closeSession (h : BlockInv s) : BlockInv s.closeSession := by
  apply h.of_parts <;> simp

/-! The shared operations. -/

/-- A trigger of an enabled channel that is not pending (rules R130, R152, R159). -/
theorem of_trigger {m : Master} {c : Nat} (h : BlockInv s) (hp : (s.chan c).pend = false)
    (hen : ctrlField (s.chan c).ctrl .en = 1) (ht : trigger m c s = .next t) : BlockInv t := by
  obtain ⟨ra, buf, n, hra, hwa, -, hn, rfl⟩ := trigger_eq_next.mp ht
  have hstarted : ChannelOk s.params { s.chan c with countLive := .word n, busy := true } :=
    { admitted := (h.chan c).admitted
      pend_not_busy := fun hpend => by rw [hp] at hpend; cases hpend
      busy_enabled := fun _ => hen
      busy_readAddr := fun _ => by rw [hra]; nofun
      busy_writeAddr := fun _ => by rw [hwa]; nofun
      busy_count := fun _ => ⟨n, rfl, hn⟩ }
  apply (h.setChan c hstarted).of_parts <;> simp

theorem of_chanWrite {m : Master} {c : Nat} {r : ChanReg} {v : Word} (h : BlockInv s)
    (hw : chanWrite m c r v s = .next t) : BlockInv t := by
  obtain ⟨hc, hb, hp, -, hstore⟩ := chanWrite_eq_next.mp hw
  have hadmitted := (h.chan c).admitted
  rcases chanStore_cases hstore with ⟨-, rfl⟩ | ⟨-, rfl⟩ | ⟨-, rfl⟩ | ⟨-, hv, rfl⟩ | ⟨-, hv, hen, ht⟩
  · exact h.setChan c (.of_not_busy hadmitted hb)
  · exact h.setChan c (.of_not_busy hadmitted hb)
  · exact h.setChan c (.of_not_busy hadmitted hb)
  · exact h.setChan c (.of_not_busy hv hb)
  · have hself := chan_setChan_self s c { s.chan c with ctrl := v } (h.channels ▸ hc)
    have hstored : BlockInv (s.setChan c { s.chan c with ctrl := v }) := h.setChan c (.of_not_busy hv hb)
    exact hstored.of_trigger (by rw [hself]; exact hp) (by rw [hself]; exact hen) ht

theorem popFifo {v : Word} {rest : List Word} (h : BlockInv s) (hf : s.fifo = v :: rest) : BlockInv (s.setFifo rest) := by
  have hdepth := h.fifo_depth
  rw [hf, List.length_cons] at hdepth
  exact h.setFifo (by omega) fun w hw => h.fifo_packed w (by rw [hf]; exact List.mem_cons_of_mem v hw)

theorem of_busRead32 {m : Master} {a v : Word} (h : BlockInv s) (hr : busRead32 m a s = .next (v, t)) : BlockInv t := by
  rcases busRead32_cases hr with rfl | ⟨-, rest, hf, rfl⟩ | ⟨-, rfl, -⟩
  · exact h
  · exact h.popFifo hf
  · exact { h with }

/-- A write of the abort register adds bits of existing channels only (rule R180). -/
theorem of_abortWrite (h : BlockInv s) (v : Word) :
    BlockInv (s.setAbortPending (s.abortPending ||| (v &&& chanMask s.params))) :=
  h.setAbortPending fun c hc => by
    have hpending : s.abortPending.getLsbD c = false := h.abort_mask c hc
    have hmask : (chanMask s.params).getLsbD c = false := by
      simp [chanMask, BitVec.getLsbD_ofNat, Nat.testBit_two_pow_sub_one, hc]
    simp [hpending, hmask]

theorem of_busWrite32 {m : Master} {a v : Word} (h : BlockInv s) (hw : busWrite32 m a v s = .next t) : BlockInv t := by
  rcases busWrite32_cases hw with rfl | ⟨c, r, -, -, hw⟩ | ⟨-, ha, rfl⟩
  · exact h.of_abortWrite v
  · exact h.of_chanWrite hw
  · exact h.writeMem v ha

theorem raiseIrq (h : BlockInv s) (c : Nat) : BlockInv (Machine.raiseIrq c s) := by
  rcases raiseIrq_cases c s with e | e <;> rw [e]
  · exact h
  · exact h.setChan c { h.chan c with }

theorem of_chainRequest {c : Nat} (h : BlockInv s) (hr : chainRequest c s = .next t) : BlockInv t := by
  obtain ⟨hb, -, rfl⟩ := chainRequest_eq_next.mp hr
  exact h.setChan c (.of_not_busy (h.chan c).admitted hb)

/-- A completion, from a state that has the invariant once the completing channel is no longer busy: with no words left it has
not before (rule R155). -/
theorem of_complete {c : Nat} (h : BlockInv (s.setChan c { s.chan c with busy := false }))
    (hcomplete : complete c s = .next t) : BlockInv t := by
  rcases complete_cases hcomplete with ⟨-, rfl⟩ | ⟨-, u, hu, rfl⟩
  · exact h.raiseIrq c
  · exact (h.of_chainRequest hu).raiseIrq c

theorem of_finishXfer {c : Nat} {w : Word} (h : BlockInv s) (hfin : finishXfer c w s = .next t) : BlockInv t := by
  obtain ⟨n, u, -, rfl, ⟨-, hcomplete⟩ | ⟨hn, rfl⟩⟩ := finishXfer_cases hfin
  · refine of_complete ?_ hcomplete
    rw [setChan_setChan]
    refine h.setChan c (.of_not_busy ?_ rfl)
    rcases chan_setChan_cases s c { s.chan c with
      readAddr := advanceAddr (ctrlField w .incrRead) (s.chan c).readAddr
      writeAddr := advanceAddr (ctrlField w .incrWrite) (s.chan c).writeAddr
      countLive := .word (n - 1#32) } c with ⟨-, e⟩ | e <;> rw [e] <;> exact (h.chan c).admitted
  · exact h.setChan c ((h.chan c).advance _ _ hn)

theorem abortChannels (h : BlockInv s) (cs : List Nat) : BlockInv (Machine.abortChannels cs s) :=
  abortChannels_induction
    (fun _ c _ _ hu hk => { hu.setChan c ((hu.chan c).of_abortedAs hk) with }) cs h

/-- A read by the host ends with the value in the host's hands. -/
theorem of_deliver {r : Res (Word × State)} (hr : ∀ v u, r = .next (v, u) → BlockInv u) (hd : deliver r = .next t) :
    BlockInv t := by
  obtain ⟨v, u, e, rfl⟩ := deliver_eq_next.mp hd
  exact { hr v u e with }

theorem of_chanRead {c : Nat} {r : ChanReg} (h : BlockInv s) (hd : deliver (chanRead c r s) = .next t) : BlockInv t :=
  of_deliver (fun _ _ e => (chanRead_eq_next.mp e).2.2 ▸ h) hd

/-! The steps of the hardware agents. -/

theorem of_execXfer {c : Nat} (h : BlockInv s) (hx : execXfer c s = .next t) : BlockInv t := by
  unfold execXfer at hx
  split at hx
  · obtain ⟨ra, v, u, wa, x, -, hread, -, hwrite, hfin⟩ := xferWord_cases hx
    exact ((h.of_busRead32 hread).of_busWrite32 hwrite).of_finishXfer hfin
  · cases hx; exact h

theorem of_execStart {c : Nat} (h : BlockInv s) (hx : execStart c s = .next t) : BlockInv t := by
  unfold execStart at hx
  split at hx
  · rename_i henabled
    simp only [State.startEnabled, Bool.and_eq_true, Bool.not_eq_true'] at henabled
    obtain ⟨hp, hb⟩ := henabled
    have htaken : BlockInv (s.setChan c { s.chan c with pend := false }) :=
      h.setChan c (.of_not_busy (h.chan c).admitted hb)
    dsimp only at hx
    split at hx
    · rename_i hen
      have hc : c < s.ch.length := lt_length_of_pend hp
      have hself := chan_setChan_self s c { s.chan c with pend := false } hc
      exact htaken.of_trigger (by rw [hself]) (by rw [hself]; exact hen) hx
    · cases hx; exact htaken
  · cases hx; exact h

/-- No abort stays pending after the aborter's step (rule R182). -/
theorem of_execAbortDone (h : BlockInv s) (hx : execAbortDone s = .next t) : BlockInv t := by
  unfold execAbortDone at hx
  split at hx
  · cases hx; exact (h.abortChannels _).setAbortPending fun _ _ => BitVec.getLsbD_zero
  · cases hx; exact h

/-- The sampler's count is a multiple of 10 below 30, so a push comes with the third sample, when thirty bits are filled
(rules R109, R112 to R114). -/
theorem of_execSampleIn {x : Sample} (h : BlockInv s) (hx : execSampleIn x s = .next t) : BlockInv t := by
  obtain ⟨hmod, hlt⟩ := h.isr_count
  have hshifted := unshiftedClear_shiftIn x h.isr_packed
  simp only [Config.busWidth, Config.pushThreshold] at hmod hlt hshifted
  rcases execSampleIn_cases hx with rfl | ⟨hdue, hroom, rfl⟩ | ⟨hdue, rfl⟩
  · exact h
  · simp only [Config.busWidth, Config.pushThreshold] at hdue
    rw [show s.sampler.isrCount + 10 = 30 from by omega] at hshifted
    have hpacked := unfilledClear_of_threshold hshifted
    have hpushed : BlockInv (fifoPush (shiftIn s.params.inShiftDir s.sampler.isr x) s) := by
      refine h.setFifo (by simpa using hroom) fun w hw => ?_
      rcases List.mem_append.mp hw with hw | hw
      · exact h.fifo_packed w hw
      · rw [List.mem_singleton.mp hw]; exact hpacked
    exact hpushed.setSampler ⟨rfl, Nat.zero_lt_succ _⟩ (unshiftedClear_zero _)
  · simp only [Config.busWidth, Config.pushThreshold] at hdue
    exact h.setSampler (by simp only [Config.busWidth, Config.pushThreshold]; omega) hshifted

theorem of_execWaveStep (h : BlockInv s) (hx : execWaveStep s = .next t) : BlockInv t := by
  rcases execWaveStep_cases hx with rfl | ⟨b, -, rfl⟩
  · exact h
  · exact h.setWave (Nat.mod_lt _ h.wavePattern_length_pos)

/-- Every operation keeps the invariant of the block. -/
theorem of_exec {i : Instr} (h : BlockInv s) (hx : exec i s = .next t) : BlockInv t := by
  cases i with
  | wrReadAddr c v => exact h.of_chanWrite hx
  | wrWriteAddr c v => exact h.of_chanWrite hx
  | wrTransCount c v => exact h.of_chanWrite hx
  | wrCtrlTrig c v => exact h.of_chanWrite hx
  | wrCtrl c v => exact h.of_chanWrite hx
  | rdReadAddr c => exact h.of_chanRead hx
  | rdWriteAddr c => exact h.of_chanRead hx
  | rdTransCount c => exact h.of_chanRead hx
  | rdCtrlTrig c => exact h.of_chanRead hx
  | rdCtrl c => exact h.of_chanRead hx
  | wrAbort v => cases hx; exact h.of_abortWrite v
  | rdAbort => cases hx; exact { h with }
  | rdFifo =>
    refine of_deliver (r := fifoRead s) (fun v u hu => ?_) hx
    obtain ⟨rest, hf, rfl⟩ := fifoRead_eq_next.mp hu
    exact h.popFifo hf
  | wrFifo v => cases hx
  | rdMem a => exact of_deliver (fun _ _ hu => h.of_busRead32 hu) hx
  | wrMem a v => exact h.of_busWrite32 hx
  | samplerStart =>
    simp only [exec, execSamplerStart] at hx
    split at hx <;> cases hx
    · exact h
    · exact h.setSampler (by decide) (unshiftedClear_zero _)
  | samplerStop => cases hx; exact h.setSampler h.isr_count h.isr_packed
  | waveStart =>
    simp only [exec, execWaveStart] at hx
    split at hx <;> cases hx
    · exact h
    · exact h.setWave h.wavePattern_length_pos
  | waveStop => cases hx; exact h.setWave h.wave_idx
  | xfer c => exact h.of_execXfer hx
  | start c => exact h.of_execStart hx
  | abortDone => exact h.of_execAbortDone hx
  | sampleHigh =>
    simp only [exec, execSampleHigh] at hx
    split at hx <;> cases hx
    · exact { h with }
    · exact h
  | sampleIn x => exact h.of_execSampleIn hx
  | sampleLow =>
    simp only [exec, execSampleLow] at hx
    split at hx <;> cases hx
    · exact { h with }
    · exact h
  | waveStep => exact h.of_execWaveStep hx
  | enc =>
    simp only [exec, execEnc] at hx
    split at hx <;> cases hx
    exact { h with }

end BlockInv

end Sys2Proof.Safety
end

section
/-! The statements of 10_state.md. -/

namespace Sys2Proof.BlockState

open Machine Safety

/-- Settles O54 (rules R26, R30, R32, R33, R35, R36, R97, R109, R114, R152, R153, R156): each operation keeps the invariant, and
what a step changes beside an operation (the agenda, the host's own part, a mark, the note) is no part of it. -/
theorem everyStepKeepsTheBlockInvariant : Obligations.EveryStepKeepsTheBlockInvariant := by
  intro s t hinv hstep
  rcases step_exec_cases hstep with rfl | ⟨r, rfl⟩ | ⟨r, rfl⟩ | ⟨rest, ⟨x, rfl⟩ | ⟨i, u, x, hexec, rfl⟩⟩
  · exact hinv
  · exact { hinv with }
  · exact { hinv with }
  · have hhost : BlockInv ((s.setAgenda rest).setHost x) := { hinv with }
    exact hhost.closeSession
  · have hturn : BlockInv (s.setAgenda rest) := { hinv with }
    have hhost : BlockInv (u.setHost x) := { hturn.of_exec hexec with }
    exact hhost.closeSession

/-- Settles O60 (rules R44, R64, R208): each operation keeps a busy Primary Channel's session noted, and the end of the turn
forgets the note of a session that is over. -/
theorem everyStepKeepsTheSessionInvariant : Obligations.EveryStepKeepsTheSessionInvariant := by
  intro s t hinv hstep
  have hnoted : s.PrimaryNoted := hinv.busy_noted
  rcases step_exec_cases hstep with rfl | ⟨r, rfl⟩ | ⟨r, rfl⟩ | ⟨rest, ⟨x, rfl⟩ | ⟨i, u, x, hexec, rfl⟩⟩
  · exact hinv
  · exact ⟨hinv.noted_active, hinv.busy_noted⟩
  · exact ⟨hinv.noted_active, hinv.busy_noted⟩
  · have hhost : ((s.setAgenda rest).setHost x).PrimaryNoted := hnoted
    exact hhost.sessionInv_closeSession
  · have hturn : (s.setAgenda rest).PrimaryNoted := hnoted
    have hexecuted : u.PrimaryNoted := hturn.of_exec hexec
    have hhost : (u.setHost x).PrimaryNoted := hexecuted
    exact hhost.sessionInv_closeSession

/-- A host write of a channel register is no step of a hardware agent (rules R45, R82). -/
theorem hwStepOf_writeInstr (c : Nat) (v : Word) (r : ChanReg) : hwStepOf (writeInstr c v r) = none := by
  cases r <;> rfl

/-- Settles O52 (rules R26, R155, R188): of the ways a hardware step can act on channels only a transfer's register write stores
a control word, and its address is then that of a `CTRL` or `CTRL_TRIG` register. -/
theorem hardwareStepsKeepControlWords : Obligations.HardwareStepsKeepControlWords := by
  intro i s t d _ hhw hdest hexec
  cases exec_effect hexec with
  | nothing hn => exact hn.ctrl d
  | hostWrite => exact absurd (hwStepOf_writeInstr _ _ _) hhw
  | hostBusWrite => exact absurd rfl hhw
  | @transferWrite c e r wa v u x hwa hd hr hu hw hx =>
    obtain ⟨he, haddr⟩ := regSel_address hd hr
    obtain ⟨hnotTrig, hnotCtrl⟩ := hdest c wa e rfl hwa he
    have hctrl : r ≠ .ctrl := by rintro rfl; exact hnotCtrl haddr
    have htrig : r ≠ .ctrlTrig := by rintro rfl; exact hnotTrig haddr
    exact ((hu.trans (.chanWrite hctrl htrig hw)).trans hx).ctrl d
  | @chainStart c u hu ht =>
    rw [← hu.ctrl d]
    exact trigger_keeps_ctrl ht d

/-- Settles O59 (rule R44): the host's triggering write of the Primary Channel is the one register write that moves a noted
session, and a well-formed memory access of the host reaches no register. -/
theorem onlyTheHostsTriggerMovesANotedBuffer : Obligations.OnlyTheHostsTriggerMovesANotedBuffer := by
  intro i s t x hwf hx hnot hexec
  cases exec_effect hexec with
  | nothing hn => rw [hn.session, hx]
  | @hostWrite c r v hw =>
    refine chanWrite_keeps_session hw hx fun _ hr hc => ?_
    subst hr hc
    exact hnot v rfl
  | hostBusWrite ha =>
    have hmem : routedAsMemory s.params _ = true := hwf
    rw [ha] at hmem
    cases hmem
  | transferWrite _ _ _ hu hw ht =>
    rw [ht.session]
    exact chanWrite_keeps_session hw (hu.session.trans hx) nofun
  | chainStart hu ht => exact trigger_keeps_session ht (hu.session.trans hx) nofun

/-- Settles O5 (rules R45, R62, R216, R217): the head of the agenda is taken, its word is the operation, and the outcome is
settled. -/
theorem stepRunsTheDecodedOperation : Obligations.StepRunsTheDecodedOperation := by
  intro s c rest i hf hr ha hdec _
  have hstep : step s = settle s (exec i { s with agenda := rest }) := by
    rw [step_turn hf hr ha, runTurn_command (s := s.setAgenda rest) hdec]; rfl
  refine ⟨fun t ht => ?_, fun r ht => ?_, fun r ht => ?_⟩ <;> rw [hstep, ht]
  · show Host.Outcome.next t.closeSession = _
    rw [closeSession_eq]
  · rfl
  · rfl

end Sys2Proof.BlockState
end

section
/-! SUPPORT. Ordinary memory and the bus: the bytes of a word (rules R54 to R56), and what an access answers in each region
that is no register (rules R52, R53, R57, R64, R138). -/

namespace Sys2Proof.Machine

/-! The bytes of a word. -/

/-- Byte `k` of a word just written reads back (rule R55). -/
theorem memByte_memWriteWord_inside (m : List Host.Cell) (a v : Word) {k : Nat} (hk : k < 4) :
    memByte (memWriteWord m a v) (a.toNat + k) = some (byteOf v k) := by
  unfold memWriteWord
  match k, hk with
  | 0, _ =>
    rw [memByte_memSetByte_ne _ _ (by omega), memByte_memSetByte_ne _ _ (by omega),
      memByte_memSetByte_ne _ _ (by omega), Nat.add_zero, memByte_memSetByte_self]
  | 1, _ =>
    rw [memByte_memSetByte_ne _ _ (by omega), memByte_memSetByte_ne _ _ (by omega), memByte_memSetByte_self]
  | 2, _ => rw [memByte_memSetByte_ne _ _ (by omega), memByte_memSetByte_self]
  | 3, _ => rw [memByte_memSetByte_self]

/-- A word whose four bytes are written is read (rule R54). -/
theorem memReadWord_of_written {m : List Host.Cell} {a : Word} {b0 b1 b2 b3 : Byte} (h0 : memByte m a.toNat = some b0)
    (h1 : memByte m (a.toNat + 1) = some b1) (h2 : memByte m (a.toNat + 2) = some b2)
    (h3 : memByte m (a.toNat + 3) = some b3) : memReadWord m a = some (wordOf b0 b1 b2 b3) := by
  simp [memReadWord, h0, h1, h2, h3]

/-- A word with an UNWRITTEN byte is not (rule R54). -/
theorem memReadWord_of_unwritten {m : List Host.Cell} {a : Word} {k : Nat} (hk : k < 4)
    (h : memByte m (a.toNat + k) = none) : memReadWord m a = none := by
  unfold memReadWord
  split
  · rename_i h0 h1 h2 h3
    match k, hk with
    | 0, _ => exact absurd (h.symm.trans h0) nofun
    | 1, _ => exact absurd (h.symm.trans h1) nofun
    | 2, _ => exact absurd (h.symm.trans h2) nofun
    | 3, _ => exact absurd (h.symm.trans h3) nofun
  · rfl

/-- A word just written reads back (rules R54, R55). -/
theorem memReadWord_memWriteWord (m : List Host.Cell) (a v : Word) : memReadWord (memWriteWord m a v) a = some v := by
  have written : ∀ k, k < 4 → memByte (memWriteWord m a v) (a.toNat + k) = some (byteOf v k) :=
    fun _ => memByte_memWriteWord_inside m a v
  rw [memReadWord_of_written (written 0 (by decide)) (written 1 (by decide)) (written 2 (by decide))
    (written 3 (by decide)), wordOf_byteOf]

/-- A byte appended below `x` is `x` shifted by 8 with the byte in its low bits. -/
theorem setWidth_append_byte {n : Nat} (x : BitVec n) (b : Byte) :
    (x ++ b).setWidth 32 = x.setWidth 32 <<< 8 ||| b.setWidth 32 := by
  apply BitVec.eq_of_getLsbD_eq
  intro i hi
  simp only [BitVec.getLsbD_setWidth, BitVec.getLsbD_append, BitVec.getLsbD_or, BitVec.getLsbD_shiftLeft]
  by_cases hlow : i < 8
  · simp [hlow, hi]
  · have hb : b.getLsbD i = false := BitVec.getLsbD_of_ge b i (by omega)
    simp [hlow, hi, hb, show i - 8 < 32 by omega]

/-- The word of four bytes with the shifts of rule R54 written out. -/
theorem wordOf_eq_or (b0 b1 b2 b3 : Byte) :
    wordOf b0 b1 b2 b3 =
      b0.setWidth 32 ||| b1.setWidth 32 <<< 8 ||| b2.setWidth 32 <<< 16 ||| b3.setWidth 32 <<< 24 := by
  have shifted : wordOf b0 b1 b2 b3 =
      ((b3.setWidth 32 <<< 8 ||| b2.setWidth 32) <<< 8 ||| b1.setWidth 32) <<< 8 ||| b0.setWidth 32 := by
    rw [← setWidth_append_byte, ← setWidth_append_byte, ← setWidth_append_byte, BitVec.setWidth_eq, wordOf]
  have twice (x : Word) : x <<< 8 <<< 8 = x <<< 16 := (BitVec.shiftLeft_add x 8 8).symm
  have thrice (x : Word) : x <<< 8 <<< 16 = x <<< 24 := (BitVec.shiftLeft_add x 8 16).symm
  rw [shifted, BitVec.shiftLeft_or_distrib, BitVec.shiftLeft_or_distrib, BitVec.shiftLeft_or_distrib, twice, twice,
    thrice]
  have reverse (w x y z : Word) : w ||| x ||| y ||| z = z ||| y ||| x ||| w := by ac_rfl
  exact reverse _ _ _ _

/-! Accesses at an address that reaches no register. -/

section
variable {s : State} {a : Word}

/-- A misaligned read faults before anything else (rules R52, R57). -/
theorem busRead32_misaligned (m : Master) (s : State) (ha : a.toNat % 4 ≠ 0) :
    busRead32 m a s = .fault (.misaligned a) :=
  if_pos (by simpa [aligned] using ha)

/-- A misaligned write faults before anything else (rules R52, R57). -/
theorem busWrite32_misaligned (m : Master) (v : Word) (s : State) (ha : a.toNat % 4 ≠ 0) :
    busWrite32 m a v s = .fault (.misaligned a) :=
  if_pos (by simpa [aligned] using ha)

/-- Outside the DMA block (rule R51). -/
theorem inDma_eq_false {p : Params} (h : a.toNat < p.dmaBase.toNat ∨ p.dmaBase.toNat + 0x1000 ≤ a.toNat) :
    inDma p a = false := by
  rw [Bool.eq_false_iff]
  intro hin
  simp only [inDma, Bool.and_eq_true, decide_eq_true_eq] at hin
  simp only [Config.dmaSize] at hin
  omega

/-- A word with its first or its last byte outside `RAM` is no ordinary memory (rule R52). -/
theorem ramWord_eq_false {p : Params} (h : inRam p a = false ∨ inRam p (a + 3#32) = false) : ramWord p a = false :=
  Bool.and_eq_false_iff.mpr h

/-- A read in no region faults (rule R53). -/
theorem busRead32_unmapped (m : Master) (ha : a.toNat % 4 = 0) (hdma : inDma s.params a = false)
    (hfifo : a ≠ s.params.fifoAddr) (hram : ramWord s.params a = false) : busRead32 m a s = .fault (.busError a) := by
  simp [busRead32, (aligned_iff a).mpr ha, hdma, hfifo, hram]

/-- A write in no region faults (rule R53). -/
theorem busWrite32_unmapped (m : Master) (v : Word) (ha : a.toNat % 4 = 0) (hdma : inDma s.params a = false)
    (hfifo : a ≠ s.params.fifoAddr) (hram : ramWord s.params a = false) : busWrite32 m a v s = .fault (.busError a) := by
  simp [busWrite32, (aligned_iff a).mpr ha, hdma, hfifo, hram]

/-- An address that faults for every master faults in the host's `RD MEM` and `WR MEM`, which are bus accesses (rules R137,
R138). -/
theorem accesses_fault {v : Word} {f : Fault} (hread : ∀ m, busRead32 m a s = .fault f)
    (hwrite : ∀ m, busWrite32 m a v s = .fault f) (m : Master) :
    busRead32 m a s = .fault f ∧ busWrite32 m a v s = .fault f ∧
      exec (.rdMem a) s = .fault f ∧ exec (.wrMem a v) s = .fault f :=
  ⟨hread m, hwrite m, congrArg deliver (hread .host), hwrite .host⟩

/-- A read of an aligned word of `RAM` is a read of ordinary memory (rule R52). -/
theorem busRead32_ram (m : Master) (hp : s.params.Valid) (ha : a.toNat % 4 = 0) (hlo : inRam s.params a = true)
    (hhi : inRam s.params (a + 3#32) = true) : busRead32 m a s = memRead m a s := by
  obtain ⟨hdma, hfifo⟩ := inRam_route hp hlo
  simp [busRead32, (aligned_iff a).mpr ha, hdma, hfifo, ramWord, hlo, hhi]

/-- A channel reads memory, session or not (rules R54, R139). -/
theorem memRead_dma_of_some {v : Word} (c : Nat) (h : memReadWord s.mem a = some v) :
    memRead (.dma c) a s = .next (v, s) := by
  simp [memRead, h]

/-- A channel's read of an UNWRITTEN byte faults (rules R21, R54). -/
theorem memRead_dma_of_none (c : Nat) (h : memReadWord s.mem a = none) : memRead (.dma c) a s = .fault .unwritten := by
  simp [memRead, h]

/-- An address of the buffer is one the session covers (rule R44). -/
theorem covers_of_toNat {buf n : Word} (hlo : buf.toNat ≤ a.toNat) (hhi : a.toNat < buf.toNat + 4 * n.toNat) :
    Session.covers ⟨buf, n⟩ a = true := by
  rw [Session.covers, decide_eq_true_iff, BitVec.toNat_sub_of_le (by simpa [BitVec.le_def] using hlo)]
  show a.toNat - buf.toNat < 4 * n.toNat
  omega

/-- An address the noted session covers is in its buffer while the session is active (rules R44, R64; log 15). -/
theorem bufferInSession_of_covers {x : Session} (hactive : s.sessionActive = true) (hsession : s.session = some x)
    (hcovers : x.covers a = true) : s.bufferInSession a = true := by
  simp [State.bufferInSession, hactive, hsession, hcovers]

/-- The host reads a draw in the buffer of an active session (rule R64; log 13, log 15). -/
theorem memRead_host_of_bufferInSession (h : s.bufferInSession a = true) : memRead .host a s = .next (drawWord s) :=
  if_pos ⟨rfl, h⟩

end

/-! Transfers that fault (rules R154, R220). -/

/-- A transfer faults with its read. -/
theorem execXfer_of_read_fault {s : State} {c : Nat} {ra : Word} {f : Fault} (hen : s.xferEnabled c = true)
    (hra : (s.chan c).readAddr = .word ra) (hread : busRead32 (.dma c) ra s = .fault f) : execXfer c s = .fault f := by
  simp [execXfer, hen, xferWord, hra, hread]

/-- A transfer whose read succeeds faults with its write; the read leaves the channel's write address as it was (rule R135).
-/
theorem execXfer_of_write_fault {s u : State} {c : Nat} {ra v wa : Word} {f : Fault} (hen : s.xferEnabled c = true)
    (hra : (s.chan c).readAddr = .word ra) (hread : busRead32 (.dma c) ra s = .next (v, u))
    (hwa : (s.chan c).writeAddr = .word wa) (hwrite : busWrite32 (.dma c) wa v u = .fault f) :
    execXfer c s = .fault f := by
  obtain ⟨hch, -, -⟩ := busRead32_keeps hread
  have hwa' : (u.chan c).writeAddr = .word wa := by rw [State.chan, hch]; exact hwa
  simp [execXfer, hen, xferWord, hra, hread, hwa', hwrite]

end Sys2Proof.Machine
end

section
/-! SUPPORT. The operations the decoder answers exist (rules R52, R75 to R78, R81, R82). -/

namespace Sys2Proof

open Machine

section
variable {p : Params} {i : Instr}

/-- Of the two directions of one access, whichever the word names exists if both do. -/
theorem wellFormed_ite {i j : Instr} (write : Bool) (hi : i.wellFormed p = true) (hj : j.wellFormed p = true) :
    (if write then i else j).wellFormed p = true := by
  cases write
  · exact hj
  · exact hi

/-- A host access that rule R52 routes to no register and not to the FIFO port exists, as a read and as a write. -/
theorem wellFormed_memAccess {a : Word} (write : Bool) (v : Word) (h : routedAsMemory p a = true) :
    (if write then Instr.wrMem a v else Instr.rdMem a).wellFormed p = true :=
  wellFormed_ite write h h

/-- A read of an existing channel's register exists (rule R76). -/
theorem wellFormed_readInstr {c : Nat} (hc : c < p.nch) (r : ChanReg) : (readInstr c r).wellFormed p = true := by
  cases r <;> exact decide_eq_true hc

/-- A write of an existing channel's register exists (rule R76). -/
theorem wellFormed_writeInstr {c : Nat} (hc : c < p.nch) (v : Word) (r : ChanReg) :
    (writeInstr c v r).wellFormed p = true := by
  cases r <;> exact decide_eq_true hc

/-- An offset selects a register of an existing channel only (rules R76, R78). -/
theorem regSel_chan_lt {off : BitVec 12} {c : Nat} {r : ChanReg} (h : regSel p off = some (.chan c r)) : c < p.nch := by
  unfold regSel at h
  split at h
  · cases h
  · split at h
    · rename_i hc
      obtain ⟨_, _, e⟩ := Option.map_eq_some_iff.mp h
      cases e
      exact hc
    · cases h

/-- As the block starts at a multiple of 4, an offset that is none is at a misaligned address (rules R6, R57). -/
theorem aligned_dmaBase_add {off : BitVec 12} (hp : p.Valid) (h : off.toNat % 4 ≠ 0) :
    aligned (p.dmaBase + off.setWidth 32) = false := by
  have hbase := hp.dmaBase_aligned
  have hoff := off.isLt
  rw [Bool.eq_false_iff, ne_eq, aligned_iff, BitVec.toNat_add, BitVec.toNat_setWidth]
  simp only [Config.dmaSize] at hbase
  omega

/-- What the decoder answers for an offset of the block exists (rules R75 to R78). -/
theorem decodeDmaOff_wellFormed {write : Bool} {off : BitVec 12} {v : Word} (hp : p.Valid)
    (h : decodeDmaOff p write off v = .ok i) : i.wellFormed p = true := by
  unfold decodeDmaOff at h
  split at h
  · rename_i hoff
    cases h
    exact wellFormed_memAccess write v (by simp [routedAsMemory, aligned_dmaBase_add hp hoff])
  · split at h
    · cases h
      exact wellFormed_ite write rfl rfl
    · rename_i c r hsel
      cases h
      have hc : c < p.nch := regSel_chan_lt hsel
      exact wellFormed_ite write (wellFormed_writeInstr hc v r) (wellFormed_readInstr hc r)
    · cases h

/-- What it answers for a bus address exists (rule R52). -/
theorem decodeAddr_wellFormed {write : Bool} {a v : Word} (hp : p.Valid) (h : decodeAddr p write a v = .ok i) :
    i.wellFormed p = true := by
  unfold decodeAddr at h
  split at h
  · rename_i hmis
    cases h
    exact wellFormed_memAccess write v (by simp [routedAsMemory, hmis])
  · split at h
    · exact decodeDmaOff_wellFormed hp h
    · rename_i hdma
      split at h
      · cases h
        exact wellFormed_ite write rfl rfl
      · rename_i hfifo
        cases h
        exact wellFormed_memAccess write v (by simp [routedAsMemory, hdma, hfifo])

/-- Every host action exists (rule R81). -/
theorem decodeHostAct_wellFormed {code : BitVec 4} (h : decodeHostAct code = .ok i) : i.wellFormed p = true := by
  unfold decodeHostAct at h
  repeat' split at h
  all_goals cases h <;> rfl

/-- A channel's step is decoded for an existing channel only (rules R45, R82). -/
theorem decodeChannel_wellFormed {operand : Word} {f : Nat → Instr}
    (hf : ∀ c, c < p.nch → (f c).wellFormed p = true) (h : decodeChannel p operand f = .ok i) : i.wellFormed p = true := by
  unfold decodeChannel at h
  split at h
  · rename_i hc
    cases h
    exact hf _ hc
  · cases h

/-- What the decoder answers for a hardware step's label exists (rule R82). -/
theorem decodeHwStep_wellFormed {label : BitVec 8} {operand : Word} (h : decodeHwStep p label operand = .ok i) :
    i.wellFormed p = true := by
  unfold decodeHwStep at h
  split at h
  · exact decodeChannel_wellFormed (f := .xfer) (fun _ hc => decide_eq_true hc) h
  · split at h
    · exact decodeChannel_wellFormed (f := .start) (fun _ hc => decide_eq_true hc) h
    · repeat' split at h
      all_goals cases h <;> rfl

end

end Sys2Proof
end

section
/-! The statements of 20_memory.md. -/

namespace Sys2Proof.BusAndMemory

open Machine

/-- Settles O2 (rules R52, R75 to R78, R82): one lemma per format; every `ENC` exists. -/
theorem decodedOperationsExist : Obligations.DecodedOperationsExist := by
  intro p c i hp hdec
  cases c with
  | busop op v => exact decodeDmaOff_wellFormed hp hdec
  | busaddr op v => exact decodeAddr_wellFormed hp hdec
  | hostact code => exact decodeHostAct_wellFormed hdec
  | hwstep label operand => exact decodeHwStep_wellFormed hdec
  | encoder w above =>
    simp only [decode] at hdec
    split at hdec
    · cases hdec; rfl
    · cases hdec

/-- Settles O11 (rule R55): a byte is kept by the writes of the other three. -/
theorem memWriteSetsFourBytes : Obligations.MemWriteSetsFourBytes := fun m a v _ =>
  ⟨fun _ hk => memByte_memWriteWord_inside m a v hk, fun _ hb => memByte_memWriteWord_outside m a v hb,
    memReadWord_memWriteWord m a v⟩

/-- Settles O17 (rules R44, R64, R138): the read is routed to the buffer of an active session, and the draw is counted by
the state alone, so it is the same word for every memory. -/
theorem hostReadOfTheBufferInASessionIsADraw : Obligations.HostReadOfTheBufferInASessionIsADraw := by
  intro s a buf n hp ha hlo hhi hactive hsession hbuf hend
  refine ⟨Config.any32 s.draws, fun m => ?_⟩
  have hact : s.sessionActive = true := by
    simpa only [State.sessionActive, Bool.or_eq_true, or_assoc] using hactive
  have hbuffer : (s.setMem m).bufferInSession a = true :=
    bufferInSession_of_covers hact hsession (covers_of_toNat hbuf hend)
  have hread : busRead32 .host a (s.setMem m) = .next (drawWord (s.setMem m)) := by
    rw [busRead32_ram (s := s.setMem m) .host hp ha hlo hhi, memRead_host_of_bufferInSession hbuffer]
  exact deliver_eq_next.mpr ⟨_, _, hread, rfl⟩

/-- Settles O12 (rule R54): a word of `RAM` is routed to memory, and a channel's read of memory is no draw. -/
theorem memReadIsLittleEndian : Obligations.MemReadIsLittleEndian := by
  intro s c a hp ha hlo hhi
  rw [busRead32_ram (.dma c) hp ha hlo hhi]
  refine ⟨fun b0 b1 b2 b3 h0 h1 h2 h3 => ?_, fun k hk h => ?_⟩
  · rw [memRead_dma_of_some c (memReadWord_of_written h0 h1 h2 h3), wordOf_eq_or]
  · exact memRead_dma_of_none c (memReadWord_of_unwritten hk h)

/-- Settles O13 (rules R52, R53, R57): the bus settles alignment first and answers `BusError` past its last region. -/
theorem misalignedAndUnmappedAccessesFault : Obligations.MisalignedAndUnmappedAccessesFault := by
  intro s m a v
  constructor
  · intro ha
    exact accesses_fault (busRead32_misaligned · s ha) (busWrite32_misaligned · v s ha) m
  · intro ha houtside hfifo hnoRam
    have hdma : inDma s.params a = false := inDma_eq_false houtside
    have hram : ramWord s.params a = false := ramWord_eq_false hnoRam
    exact accesses_fault (busRead32_unmapped · ha hdma hfifo hram) (busWrite32_unmapped · v ha hdma hfifo hram) m

/-- Settles O14 (rules R57, R154, R220): the read comes before the write. -/
theorem misalignedTransferFaults : Obligations.MisalignedTransferFaults := by
  intro s c ra hbusy hreq hra
  have hen : s.xferEnabled c = true := Bool.and_eq_true_iff.mpr ⟨hbusy, hreq⟩
  exact ⟨fun ha => execXfer_of_read_fault hen hra (busRead32_misaligned (.dma c) s ha),
    fun v wa u hread hwa ha => execXfer_of_write_fault hen hra hread hwa (busWrite32_misaligned (.dma c) v u ha)⟩

end Sys2Proof.BusAndMemory
end

section
/-! SUPPORT. Accesses to the DMA block by offset (rules R52, R74 to R78, R139): which offsets select no register, and what
the bus, the decoder and the host's operations do at an offset. -/

namespace Sys2Proof.Machine

/-! Offsets that select no register. -/

/-- A register field that is the code of no register names none (rule R78). -/
theorem chanRegOf_eq_none {reg : BitVec 6} (h : ∀ r, reg ≠ chanRegCode r) : chanRegOf reg = none :=
  (if_neg (h .readAddr)).trans <| (if_neg (h .writeAddr)).trans <| (if_neg (h .transCount)).trans <|
    (if_neg (h .ctrlTrig)).trans (if_neg (h .ctrl))

/-- An offset other than the abort register's selects nothing if its channel field names no channel or its register field
no register (rule R78). -/
theorem regSel_eq_none {p : Params} {off : BitVec 12} (habort : off ≠ Config.abortOff)
    (h : p.nch ≤ offChan off ∨ chanRegOf (offReg off) = none) : regSel p off = none := by
  unfold regSel
  rw [if_neg habort]
  obtain hchan | hreg := h
  · rw [if_neg (Nat.not_lt.mpr hchan)]
  · rw [hreg, Option.map_none, ite_self]

/-- The same on the number of the offset, with the five register codes written out (rules R76 to R78). -/
theorem regSel_ofNat_eq_none {p : Params} {off : Nat} (hoff : off < 0x1000) (habort : off ≠ 0x444)
    (h : p.nch ≤ off / 64 ∨
      (off % 64 ≠ 0x00 ∧ off % 64 ≠ 0x04 ∧ off % 64 ≠ 0x08 ∧ off % 64 ≠ 0x0C ∧ off % 64 ≠ 0x10)) :
    regSel p (BitVec.ofNat 12 off) = none := by
  have hnum : (BitVec.ofNat 12 off).toNat = off := Nat.mod_eq_of_lt hoff
  obtain ⟨hchan, hreg⟩ := off_fields (BitVec.ofNat 12 off)
  rw [hnum] at hchan hreg
  have hne : BitVec.ofNat 12 off ≠ Config.abortOff := fun e => habort (hnum.symm.trans (congrArg BitVec.toNat e))
  obtain hnch | ⟨h0, h4, h8, hC, h10⟩ := h
  · exact regSel_eq_none hne (.inl (hchan ▸ hnch))
  · refine regSel_eq_none hne (.inr (chanRegOf_eq_none fun r e => ?_))
    rw [e] at hreg
    cases r with
    | readAddr => exact h0 hreg.symm
    | writeAddr => exact h4 hreg.symm
    | transCount => exact h8 hreg.symm
    | ctrlTrig => exact hC hreg.symm
    | ctrl => exact h10 hreg.symm

/-! Register accesses by what the offset selects. -/

section
variable {s : State}

/-- A read of an offset that selects no register is refused (rule R78). -/
theorem regRead_of_none {off : BitVec 12} (h : regSel s.params off = none) :
    regRead off s = .refused (.unmappedRegister off) := by
  simp only [regRead, h]

/-- A write of an offset that selects no register is refused (rule R78). -/
theorem regWrite_of_none {off : BitVec 12} (m : Master) (v : Word) (h : regSel s.params off = none) :
    regWrite m off v s = .refused (.unmappedRegister off) := by
  simp only [regWrite, h]

/-- A read at an existing channel's register offset reads that register (rule R76). -/
theorem regRead_chanOff {c : Nat} (hp : s.params.Valid) (r : ChanReg) (hc : c < s.params.nch) :
    regRead (chanOff c r) s = chanRead c r s := by
  simp only [regRead, regSel_chanOff hp r hc]

/-- A write at an existing channel's register offset writes that register (rule R76). -/
theorem regWrite_chanOff {c : Nat} (m : Master) (hp : s.params.Valid) (r : ChanReg) (hc : c < s.params.nch) (v : Word) :
    regWrite m (chanOff c r) v s = chanWrite m c r v s := by
  simp only [regWrite, regSel_chanOff hp r hc]

end

/-! The bus inside the block. -/

/-- As the block starts at a multiple of 4, an address in it is aligned if its offset is (rules R6, R57). -/
theorem aligned_of_offset {p : Params} {a : Word} {off : Nat} (hp : p.Valid) (ha : a.toNat = p.dmaBase.toNat + off)
    (h4 : off % 4 = 0) : aligned a = true := by
  have hbase := hp.dmaBase_aligned
  simp only [Config.dmaSize] at hbase
  rw [aligned_iff]
  omega

section
variable {s : State} {a : Word} {off : Nat}

/-- An aligned read in the block is a read of the register at its offset (rules R52, R75). -/
theorem busRead32_of_offset (m : Master) (hp : s.params.Valid) (ha : a.toNat = s.params.dmaBase.toNat + off)
    (hoff : off < 0x1000) (h4 : off % 4 = 0) : busRead32 m a s = regRead (BitVec.ofNat 12 off) s := by
  obtain ⟨hdma, hin⟩ := dmaOff_of_toNat hp ha hoff
  simp [busRead32, aligned_of_offset hp ha h4, hin, hdma]

/-- An aligned write in the block is a write of the register at its offset (rules R52, R75). -/
theorem busWrite32_of_offset (m : Master) (v : Word) (hp : s.params.Valid) (ha : a.toNat = s.params.dmaBase.toNat + off)
    (hoff : off < 0x1000) (h4 : off % 4 = 0) : busWrite32 m a v s = regWrite m (BitVec.ofNat 12 off) v s := by
  obtain ⟨hdma, hin⟩ := dmaOff_of_toNat hp ha hoff
  simp [busWrite32, aligned_of_offset hp ha h4, hin, hdma]

/-- The offset of an existing channel's register lies in the block and is aligned (rules R6, R51, R76). -/
theorem chanReg_offset {p : Params} {c : Nat} (hp : p.Valid) (r : ChanReg) (hc : c < p.nch) :
    c * 0x40 + (chanRegCode r).toNat < 0x1000 ∧ (c * 0x40 + (chanRegCode r).toNat) % 4 = 0 := by
  have hnch := hp.nch_le
  obtain ⟨hcode, hcode4, -⟩ := chanRegCode_spec r
  omega

/-- A read at the address of an existing channel's register reads it, for every master (rules R75, R76, R139). -/
theorem busRead32_chanReg {c : Nat} {r : ChanReg} (m : Master) (hp : s.params.Valid) (hc : c < s.params.nch)
    (ha : a.toNat = s.params.dmaBase.toNat + (c * 0x40 + (chanRegCode r).toNat)) : busRead32 m a s = chanRead c r s := by
  obtain ⟨hoff, h4⟩ := chanReg_offset hp r hc
  exact (busRead32_of_offset m hp ha hoff h4).trans (regRead_chanOff hp r hc)

/-- A write at the address of an existing channel's register writes it, for every master (rules R75, R76, R139). -/
theorem busWrite32_chanReg {c : Nat} {r : ChanReg} (m : Master) (v : Word) (hp : s.params.Valid) (hc : c < s.params.nch)
    (ha : a.toNat = s.params.dmaBase.toNat + (c * 0x40 + (chanRegCode r).toNat)) :
    busWrite32 m a v s = chanWrite m c r v s := by
  obtain ⟨hoff, h4⟩ := chanReg_offset hp r hc
  exact (busWrite32_of_offset m v hp ha hoff h4).trans (regWrite_chanOff m hp r hc v)

end

/-! The host's register operations (rules R126 to R134). -/

/-- The host's write operation of a register is the host's write of it. -/
theorem exec_writeInstr (c : Nat) (v : Word) (r : ChanReg) (s : State) :
    exec (writeInstr c v r) s = chanWrite .host c r v s := by
  cases r <;> rfl

/-- The host's read operation of a register is the host's read of it, with the value returned (log 12). -/
theorem exec_readInstr (c : Nat) (r : ChanReg) (s : State) : exec (readInstr c r) s = deliver (chanRead c r s) := by
  cases r <;> rfl

end Sys2Proof.Machine
end

section
/-! SUPPORT. What the decoder answers for the words of each format (rules R70, R74 to R82). -/

namespace Sys2Proof

open Machine

/-! Format BUSOP. -/

section
variable {p : Params}

/-- A BUSOP word is decoded by its direction and its offset (rule R74). -/
theorem decode_busopWord (p : Params) (write : Bool) (off : BitVec 12) (v : Word) :
    decode p (.busop (busopWord write off) v) = decodeDmaOff p write off v := by
  obtain ⟨hwrite, hoff⟩ := busopWord_parts write off
  rw [decode, hwrite, hoff]

/-- A BUSOP word as a number: the offset, with `0x1000` added in a write (rule R74). -/
theorem ofNat_eq_busopWord (write : Bool) {off : Nat} (hoff : off < 0x1000) :
    BitVec.ofNat 13 (write.toNat * 0x1000 + off) = busopWord write (BitVec.ofNat 12 off) := by
  have hbit := write.toNat_lt
  apply BitVec.eq_of_toNat_eq
  rw [Laws.busopWord_toNat, BitVec.toNat_ofNat, BitVec.toNat_ofNat]
  omega

/-- The word of an aligned offset that selects no register is refused (rule R78). -/
theorem decodeDmaOff_of_none (write : Bool) {off : BitVec 12} (v : Word) (h4 : off.toNat % 4 = 0)
    (h : regSel p off = none) : decodeDmaOff p write off v = .error (.unmappedRegister off) := by
  rw [decodeDmaOff, if_neg (not_not.mpr h4), h]

/-- The word of a register of an existing channel is the operation on that register (rules R75, R76). -/
theorem decodeDmaOff_chanOff {c : Nat} (hp : p.Valid) (write : Bool) (r : ChanReg) (v : Word) (hc : c < p.nch) :
    decodeDmaOff p write (chanOff c r) v = .ok (if write then writeInstr c v r else readInstr c r) := by
  have hnum : (chanOff c r).toNat = c * 64 + (chanRegCode r).toNat :=
    chanOff_toNat r (Nat.lt_of_lt_of_le hc hp.nch_le)
  obtain ⟨-, hcode, -⟩ := chanRegCode_spec r
  rw [decodeDmaOff, if_neg (by omega), regSel_chanOff hp r hc]

/-- The word of the abort register is the operation on it (rule R77). -/
theorem decodeDmaOff_abortOff (p : Params) (write : Bool) (v : Word) :
    decodeDmaOff p write Config.abortOff v = .ok (if write then .wrAbort v else .rdAbort) := rfl

/-- The host's write of an existing channel's register decodes from its word (rules R74 to R76). -/
theorem decode_encode_writeInstr {c : Nat} (hp : p.Valid) (v : Word) (r : ChanReg) (hc : c < p.nch) :
    decode p (encode p (writeInstr c v r)) = .ok (writeInstr c v r) := by
  have hword : encode p (writeInstr c v r) = .busop (busopWord true (chanOff c r)) v := by cases r <;> rfl
  rw [hword, decode_busopWord, decodeDmaOff_chanOff hp true r v hc, if_pos rfl]

/-- The host's read of an existing channel's register decodes from its word (rules R74 to R76). -/
theorem decode_encode_readInstr {c : Nat} (hp : p.Valid) (r : ChanReg) (hc : c < p.nch) :
    decode p (encode p (readInstr c r)) = .ok (readInstr c r) := by
  have hword : encode p (readInstr c r) = .busop (busopWord false (chanOff c r)) 0#32 := by cases r <;> rfl
  rw [hword, decode_busopWord, decodeDmaOff_chanOff hp false r 0#32 hc, if_neg Bool.false_ne_true]

/-! Format BUSADDR. -/

/-- A BUSADDR word is decoded by its direction and its address (rule R80). -/
theorem decode_busaddrWord (p : Params) (write : Bool) (a v : Word) :
    decode p (.busaddr (busaddrWord write a) v) = decodeAddr p write a v := by
  obtain ⟨hwrite, haddr⟩ := busaddrWord_parts write a
  rw [decode, hwrite, haddr]

/-- The FIFO port's address is the operation on the port (rules R52, R79). -/
theorem decodeAddr_fifoAddr (hp : p.Valid) (write : Bool) (v : Word) :
    decodeAddr p write p.fifoAddr v = .ok (if write then .wrFifo v else .rdFifo) := by
  obtain ⟨haligned, hdma⟩ := fifoAddr_route hp
  simp [decodeAddr, haligned, hdma]

/-- An address that reaches no register and not the FIFO port is a memory operation (rule R52; log 17). -/
theorem decodeAddr_of_routedAsMemory (write : Bool) {a : Word} (v : Word) (h : routedAsMemory p a = true) :
    decodeAddr p write a v = .ok (if write then .wrMem a v else .rdMem a) := by
  unfold decodeAddr
  by_cases haligned : aligned a = true
  · have houtside : inDma p a = false ∧ a ≠ p.fifoAddr := by simpa [routedAsMemory, haligned] using h
    obtain ⟨hdma, hfifo⟩ := houtside
    simp [haligned, hdma, hfifo]
  · simp [haligned]

/-! Format HWSTEP. -/

/-- The number of an existing channel survives beside the label (rules R6, R82). -/
theorem decodeChannel_ofNat {c : Nat} (hp : p.Valid) (f : Nat → Instr) (hc : c < p.nch) :
    decodeChannel p (BitVec.ofNat 32 c) f = .ok (f c) := by
  have hnch := hp.nch_le
  have hnum : (BitVec.ofNat 32 c).toNat = c := Nat.mod_eq_of_lt (by omega)
  rw [decodeChannel, hnum, if_pos hc]

/-- A sample survives beside the label (rules R43, R82). -/
theorem decodeHwStep_sampleIn (p : Params) (x : Sample) :
    decodeHwStep p 0x14#8 (x.setWidth 32) = .ok (.sampleIn x) := by
  have hnum : (x.setWidth 32).toNat = x.toNat := BitVec.toNat_setWidth_of_le (by decide)
  have hrange : (x.setWidth 32).toNat < 2 ^ Config.busWidth := by rw [hnum]; exact x.isLt
  have hback : (x.setWidth 32).setWidth 10 = x := by
    rw [BitVec.setWidth_setWidth_of_le x (by decide), BitVec.setWidth_eq]
  calc decodeHwStep p 0x14#8 (x.setWidth 32)
      = .ok (.sampleIn ((x.setWidth 32).setWidth 10)) := if_pos hrange
    _ = .ok (.sampleIn x) := by rw [hback]

end

/-! Format ENCODER. -/

section
variable {f : EncInputs}

/-- The packed word of legal inputs has no reserved bit set (rules R70, R91). -/
theorem ctrlReservedClear_encPack (h : encLegal f = true) : ctrlReservedClear (encPack f) = true := by
  rw [ctrlReservedClear_iff, encPack_toNat h]
  simp only [encLegal, Bool.and_eq_true, decide_eq_true_eq] at h
  omega

/-- The packed word of legal inputs has each input in its field (rules R70, R91, R96). -/
theorem ctrlField_encPack (h : encLegal f = true) :
    ctrlField (encPack f) .en = f.en ∧ ctrlField (encPack f) .highPriority = f.hp ∧
      ctrlField (encPack f) .dataSize = f.size ∧ ctrlField (encPack f) .incrRead = f.ir ∧
      ctrlField (encPack f) .incrWrite = f.iw ∧ ctrlField (encPack f) .ringSize = f.ring ∧
      ctrlField (encPack f) .ringSel = f.rs ∧ ctrlField (encPack f) .chainTo = f.chain ∧
      ctrlField (encPack f) .treq = f.treq ∧ ctrlField (encPack f) .irqQuiet = f.q := by
  obtain ⟨hen, hhp, hsize, hir, hiw, hring, hrs, hchain, htreq, hq⟩ := ctrlField_toNat (encPack f)
  rw [hen, hhp, hsize, hir, hiw, hring, hrs, hchain, htreq, hq, encPack_toNat h]
  simp only [encLegal, Bool.and_eq_true, decide_eq_true_eq] at h
  refine ⟨?_, ?_, ?_, ?_, ?_, ?_, ?_, ?_, ?_, ?_⟩ <;> omega

/-- The part of each input in its field and the part above it make up the input (rule R71; log 16). -/
theorem encInputsOf_encPack (f : EncInputs) : encInputsOf (encPack f.low) f.high = f := by
  obtain ⟨hen, hhp, hsize, hir, hiw, hring, hrs, hchain, htreq, hq⟩ := ctrlField_encPack (encLegal_low f)
  rw [encInputsOf, hen, hhp, hsize, hir, hiw, hring, hrs, hchain, htreq, hq]
  simp only [EncInputs.low, EncInputs.high, Nat.mod_add_div]

/-- Every `ENC` decodes from its word and what travels beside it (rules R70, R91; log 16). -/
theorem decode_encoder_encPack (p : Params) (f : EncInputs) :
    decode p (.encoder (encPack f.low) f.high) = .ok (encInstr f) := by
  rw [decode, if_pos (ctrlReservedClear_encPack (encLegal_low f)), encInputsOf_encPack]

end

end Sys2Proof
end

section
/-! The statements of 30_encoding.md. -/

namespace Sys2Proof.Encoding

open Machine

/-- Settles O1 (rules R70, R74 to R82): one lemma per kind of word; the host actions and the steps without an operand are
their codes. -/
theorem decodeOfEncodeIsTheOperation : Obligations.DecodeOfEncodeIsTheOperation := by
  intro p i hp hwf
  cases i with
  | wrReadAddr c v => exact decode_encode_writeInstr hp v .readAddr (of_decide_eq_true hwf)
  | wrWriteAddr c v => exact decode_encode_writeInstr hp v .writeAddr (of_decide_eq_true hwf)
  | wrTransCount c v => exact decode_encode_writeInstr hp v .transCount (of_decide_eq_true hwf)
  | wrCtrlTrig c v => exact decode_encode_writeInstr hp v .ctrlTrig (of_decide_eq_true hwf)
  | wrCtrl c v => exact decode_encode_writeInstr hp v .ctrl (of_decide_eq_true hwf)
  | rdReadAddr c => exact decode_encode_readInstr hp .readAddr (of_decide_eq_true hwf)
  | rdWriteAddr c => exact decode_encode_readInstr hp .writeAddr (of_decide_eq_true hwf)
  | rdTransCount c => exact decode_encode_readInstr hp .transCount (of_decide_eq_true hwf)
  | rdCtrlTrig c => exact decode_encode_readInstr hp .ctrlTrig (of_decide_eq_true hwf)
  | rdCtrl c => exact decode_encode_readInstr hp .ctrl (of_decide_eq_true hwf)
  | wrAbort v => exact (decode_busopWord p true _ v).trans (decodeDmaOff_abortOff p true v)
  | rdAbort => exact (decode_busopWord p false _ 0#32).trans (decodeDmaOff_abortOff p false 0#32)
  | rdFifo => exact (decode_busaddrWord p false _ 0#32).trans (decodeAddr_fifoAddr hp false 0#32)
  | wrFifo v => exact (decode_busaddrWord p true _ v).trans (decodeAddr_fifoAddr hp true v)
  | rdMem a => exact (decode_busaddrWord p false a 0#32).trans (decodeAddr_of_routedAsMemory false 0#32 hwf)
  | wrMem a v => exact (decode_busaddrWord p true a v).trans (decodeAddr_of_routedAsMemory true v hwf)
  | xfer c => exact decodeChannel_ofNat hp .xfer (of_decide_eq_true hwf)
  | start c => exact decodeChannel_ofNat hp .start (of_decide_eq_true hwf)
  | sampleIn x => exact decodeHwStep_sampleIn p x
  | enc q treq chain rs ring iw ir size high en =>
    exact decode_encoder_encPack p ⟨q, treq, chain, rs, ring, iw, ir, size, high, en⟩
  | samplerStart | samplerStop | waveStart | waveStop | abortDone | sampleHigh | sampleLow | waveStep => rfl

/-- Settles O4 (rule R78): the bus and the decoder split the address in the same way, and its offset selects nothing. -/
theorem unmappedOffsetsAreRefused : Obligations.UnmappedOffsetsAreRefused := by
  intro s m a v off hp ha hoff h4 habort hfields
  have hsel : regSel s.params (BitVec.ofNat 12 off) = none := regSel_ofNat_eq_none hoff habort hfields
  have hdecode (write : Bool) : decode s.params (.busop (BitVec.ofNat 13 (write.toNat * 0x1000 + off)) v) =
      .error (.unmappedRegister (BitVec.ofNat 12 off)) := by
    rw [ofNat_eq_busopWord write hoff, decode_busopWord]
    exact decodeDmaOff_of_none write v (by rwa [BitVec.toNat_ofNat, Nat.mod_eq_of_lt hoff]) hsel
  refine ⟨?_, ?_, ?_, ?_⟩
  · rw [busRead32_of_offset m hp ha hoff h4, regRead_of_none hsel]
  · rw [busWrite32_of_offset m v hp ha hoff h4, regWrite_of_none m v hsel]
  · simpa using hdecode false
  · simpa using hdecode true

/-- Settles O18 (rules R52, R75, R76, R139): the address is routed to the register's offset, which selects the register for
every master, and the host's operations are the host's accesses of that register. -/
theorem channelRegistersAreAtTheirAddresses : Obligations.ChannelRegistersAreAtTheirAddresses := by
  intro s m c r a v hp hc ha
  rw [Nat.add_assoc] at ha
  have hwrite (m : Master) : busWrite32 m a v s = chanWrite m c r v s := busWrite32_chanReg m v hp hc ha
  have hread (m : Master) : busRead32 m a s = chanRead c r s := busRead32_chanReg m hp hc ha
  exact ⟨hwrite m, hread m, by rw [hwrite, exec_writeInstr], by rw [hread, exec_readInstr]⟩

end Sys2Proof.Encoding
end

section
/-! SUPPORT. The control word (rules R70, R91, R92, R95 to R97): its one-bit fields as bits, the inputs a packed word gives
back, and what `ENC` answers. -/

namespace Sys2Proof.Machine

/-- A part of one bit is that bit. -/
theorem extractLsb'_one_toNat (w : Word) (k : Nat) : (w.extractLsb' k 1).toNat = (w.getLsbD k).toNat := by
  rw [BitVec.extractLsb'_toNat, Nat.shiftRight_eq_div_pow, BitVec.getLsbD, Nat.toNat_testBit, Nat.pow_one]

/-- `EN` is bit 0 (rules R70, R96). -/
theorem ctrlField_en (w : Word) : ctrlField w .en = (w.getLsbD 0).toNat := extractLsb'_one_toNat w 0

/-- `RING_SIZE` is bit 9 (rules R70, R96). -/
theorem ctrlField_ringSize (w : Word) : ctrlField w .ringSize = (w.getLsbD 9).toNat := extractLsb'_one_toNat w 9

/-- `RING_SEL` is bit 10 (rules R70, R96). -/
theorem ctrlField_ringSel (w : Word) : ctrlField w .ringSel = (w.getLsbD 10).toNat := extractLsb'_one_toNat w 10

section
variable {f : EncInputs}

/-- The ranges of the ten inputs (rule R92). -/
theorem encLegal_iff : encLegal f = true ↔
    f.q ≤ 1 ∧ f.treq ≤ 63 ∧ f.chain ≤ 15 ∧ f.rs ≤ 1 ∧ f.ring ≤ 1 ∧ f.iw ≤ 1 ∧ f.ir ≤ 1 ∧ f.size ≤ 3 ∧ f.hp ≤ 1 ∧
      f.en ≤ 1 := by
  simp only [encLegal, Bool.and_eq_true, decide_eq_true_eq, and_assoc]

/-- The packed word of legal inputs is the sum of the fields at their offsets (rule R91). -/
theorem encPack_eq_ofNat_sum (h : encLegal f = true) :
    encPack f = BitVec.ofNat 32 (f.q * 2 ^ 21 + f.treq * 2 ^ 15 + f.chain * 2 ^ 11 + f.rs * 2 ^ 10 + f.ring * 2 ^ 9
      + f.iw * 2 ^ 5 + f.ir * 2 ^ 4 + f.size * 2 ^ 2 + f.hp * 2 + f.en) := by
  rw [← encPack_toNat h, BitVec.ofNat_toNat, BitVec.setWidth_eq]

/-- The packed word of legal inputs, with nothing above its fields, stands for those inputs (rule R95). -/
theorem encInputsOf_encPack_of_legal (h : encLegal f = true) :
    encInputsOf (encPack f) ⟨0, 0, 0, 0, 0, 0, 0, 0, 0, 0⟩ = f := by
  obtain ⟨hen, hhp, hsize, hir, hiw, hring, hrs, hchain, htreq, hq⟩ := ctrlField_encPack h
  rw [encInputsOf, hen, hhp, hsize, hir, hiw, hring, hrs, hchain, htreq, hq]
  rfl

end

section
variable {q treq chain rs ring iw ir size hp en : Nat}

/-- `ENC` of legal inputs gives the host their packed word (rules R91, R93; log 12). -/
theorem exec_enc_of_legal (s : State) (h : encLegal ⟨q, treq, chain, rs, ring, iw, ir, size, hp, en⟩ = true) :
    exec (.enc q treq chain rs ring iw ir size hp en) s =
      .next (s.setHostValue (some (encPack ⟨q, treq, chain, rs, ring, iw, ir, size, hp, en⟩))) := by
  rw [exec, execEnc, encodeCtrl, if_pos h]

/-- `ENC` of any other inputs is refused (rule R92). -/
theorem exec_enc_of_not_legal (s : State) (h : ¬encLegal ⟨q, treq, chain, rs, ring, iw, ir, size, hp, en⟩ = true) :
    exec (.enc q treq chain rs ring iw ir size hp en) s = .refused .encoderRange := by
  rw [exec, execEnc, encodeCtrl, if_neg h]

end

end Sys2Proof.Machine
end

section
/-! The statements of 40_control_word_encoder.md. -/

namespace Sys2Proof.ControlWord

open Machine

/-- Settles O22 (rules R96, R97): the first two checks are on the same bits, and `EN` decides whether the other three are
made at all. -/
theorem admissionChecksInOrder : Obligations.AdmissionChecksInOrder := by
  intro p w
  have hreserved : (!ctrlReservedClear w) = true ↔ w.toNat / 2 ^ 22 ≠ 0 ∨ w.toNat / 2 ^ 6 % 8 ≠ 0 := by
    rw [Bool.not_eq_true', ← Bool.not_eq_true, ctrlReservedClear_iff, not_and_or]
  have hring : ctrlField w .ringSel ≠ 0 ∨ ctrlField w .ringSize ≠ 0 ↔ w.getLsbD 10 = true ∨ w.getLsbD 9 = true := by
    simp only [ctrlField_ringSel, ctrlField_ringSize, ne_eq, Bool.toNat_eq_zero, Bool.not_eq_false]
  obtain ⟨-, -, hsize, -, -, -, -, hchain, htreq, -⟩ := ctrlField_toNat w
  simp only [ctrlRefusal, hreserved, hring, ctrlField_en, hsize, hchain, htreq]
  cases w.getLsbD 0 with
  | false => simp
  | true => simp [Config.unpacedTreq]

/-- Settles O27 (rules R91, R92, R95, R96): the fields of the packed word are the inputs, so the word stands for no
others. -/
theorem fieldsOfAnEncodedWordAreTheInputs : Obligations.FieldsOfAnEncodedWordAreTheInputs := by
  refine ⟨fun f hf => ?_, fun f g hf hg heq => ?_⟩
  · obtain ⟨hen, hhp, hsize, hir, hiw, hring, hrs, hchain, htreq, hq⟩ := ctrlField_encPack hf
    exact ⟨hq, htreq, hchain, hrs, hring, hiw, hir, hsize, hhp, hen⟩
  · calc f = encInputsOf (encPack f) ⟨0, 0, 0, 0, 0, 0, 0, 0, 0, 0⟩ := (encInputsOf_encPack_of_legal hf).symm
      _ = encInputsOf (encPack g) ⟨0, 0, 0, 0, 0, 0, 0, 0, 0, 0⟩ := by rw [heq]
      _ = g := encInputsOf_encPack_of_legal hg

/-- Settles O28 (rules R90 to R93): the ranges are `encLegal`, and without overlap the packing is a sum. -/
theorem encoderPacksEachFieldAtItsOffset : Obligations.EncoderPacksEachFieldAtItsOffset := by
  intro s q treq chain rs ring iw ir size hp en
  refine ⟨fun hranges => ?_, fun hranges => ?_⟩
  · have hlegal := encLegal_iff (f := ⟨q, treq, chain, rs, ring, iw, ir, size, hp, en⟩).mpr hranges
    rw [exec_enc_of_legal s hlegal, encPack_eq_ofNat_sum hlegal]
    rfl
  · exact exec_enc_of_not_legal s fun hlegal => hranges (encLegal_iff.mp hlegal)

/-- Settles O3 (rules R74 to R77, R80 to R82, R91): nine closed words, each run through the decoder. -/
theorem specWordsDecodeAsPrinted : Obligations.SpecWordsDecodeAsPrinted :=
  ⟨rfl, rfl, rfl, rfl, rfl, rfl, rfl, rfl, rfl⟩

end Sys2Proof.ControlWord
end

section
/-! SUPPORT. The steps of the sampler and of the waveform generator (rules R106 to R111, R119 to R121): when each is enabled,
what an enabled one leaves, that a disabled one holds, and what it can see of the state (rules R122, R123). -/

namespace Sys2Proof.Machine

section
variable {s : State}

/-! Enabling. -/

/-- A push is due with the third sample (rule R109). -/
theorem pushDue_iff : s.pushDue = true ↔ 30 ≤ s.sampler.isrCount + 10 := decide_eq_true_iff

theorem sampleHighEnabled_iff : s.sampleHighEnabled = true ↔ s.sampler.running = true ∧ s.sampler.phase = .high := by
  simp [State.sampleHighEnabled]

theorem sampleInEnabled_iff :
    s.sampleInEnabled = true ↔ s.sampler.running = true ∧ s.sampler.phase = .sample ∧
      (30 ≤ s.sampler.isrCount + 10 → s.fifo.length < s.params.fifoDepth) := by
  simp only [State.sampleInEnabled, Bool.and_eq_true, Bool.or_eq_true, Bool.not_eq_true', beq_iff_eq, decide_eq_true_eq,
    and_assoc, ← pushDue_iff, ← Bool.not_eq_true, imp_iff_not_or]

theorem sampleLowEnabled_iff : s.sampleLowEnabled = true ↔ s.sampler.running = true ∧ s.sampler.phase = .low := by
  simp [State.sampleLowEnabled]

/-- An empty FIFO raises no request for the channel it paces (rule R151). -/
theorem req_of_fifo_nil {c : Nat} (htreq : ctrlField (s.chan c).ctrl .treq = s.params.sampleTreq.toNat)
    (hfifo : s.fifo = []) : s.req c = false := by
  rw [State.req, transferReq, if_pos htreq, hfifo, List.isEmpty_nil, Bool.not_true]

/-- A hardware step that is not enabled holds (log 9). -/
theorem exec_of_disabled {i : Instr} {h : Safety.HwStep} (hi : Safety.hwStepOf i = some h) (hen : h.enabled s = false) :
    exec i s = .next s := by
  have hdisabled : ¬h.enabled s = true := Bool.eq_false_iff.mp hen
  cases i with
  | xfer c => cases hi; exact if_neg hdisabled
  | start c => cases hi; exact if_neg hdisabled
  | abortDone => cases hi; exact if_neg hdisabled
  | sampleHigh => cases hi; exact if_neg hdisabled
  | sampleIn x => cases hi; exact if_neg hdisabled
  | sampleLow => cases hi; exact if_neg hdisabled
  | waveStep => cases hi; exact if_neg hdisabled
  | _ => cases hi

/-! The enabled steps. -/

/-- Rule R108. -/
theorem exec_sampleHigh_of_enabled (hen : s.sampleHighEnabled = true) :
    exec .sampleHigh s = .next ((s.setRef (.bit true)).setSampler { s.sampler with phase := .sample }) := if_pos hen

/-- Rule R111. -/
theorem exec_sampleLow_of_enabled (hen : s.sampleLowEnabled = true) :
    exec .sampleLow s = .next ((s.setRef (.bit false)).setSampler { s.sampler with phase := .high }) := if_pos hen

/-- Below the threshold the sample is shifted in (rule R109). -/
theorem exec_sampleIn_of_not_pushDue (x : Sample) (hen : s.sampleInEnabled = true) (hdue : ¬s.pushDue = true) :
    exec (.sampleIn x) s = .next (s.setSampler { s.sampler with
      phase := .low, isr := shiftIn s.params.inShiftDir s.sampler.isr x, isrCount := s.sampler.isrCount + 10 }) :=
  (if_pos hen).trans (if_neg hdue)

/-- At the threshold the word is pushed (rule R109). -/
theorem exec_sampleIn_of_pushDue (x : Sample) (hen : s.sampleInEnabled = true) (hdue : s.pushDue = true) :
    exec (.sampleIn x) s = .next ((fifoPush (shiftIn s.params.inShiftDir s.sampler.isr x) s).setSampler
      { s.sampler with phase := .low, isr := 0#32, isrCount := 0 }) :=
  (if_pos hen).trans (if_pos hdue)

/-- A running generator drives the level at its index and goes on in the pattern (rule R121). -/
theorem exec_waveStep_of_bit {b : Bool} (hrunning : s.wave.running = true)
    (hbit : s.params.wavePattern[s.wave.idx]? = some b) :
    exec .waveStep s = .next (s.setWave { s.wave with
      pin := .bit b, idx := (s.wave.idx + 1) % s.params.wavePattern.length }) := by
  refine (if_pos hrunning).trans ?_
  simp only [hbit]

/-- Outside the pattern it holds (log 19). -/
theorem exec_waveStep_of_no_bit (hrunning : s.wave.running = true) (hbit : s.params.wavePattern[s.wave.idx]? = none) :
    exec .waveStep s = .next s := by
  refine (if_pos hrunning).trans ?_
  simp only [hbit]

/-! The host's starts. -/

/-- Rule R106. -/
theorem exec_samplerStart_of_stopped (hstopped : s.sampler.running = false) :
    exec .samplerStart s = .next (s.setSampler ⟨true, .high, 0#32, 0⟩) := if_neg (Bool.eq_false_iff.mp hstopped)

theorem exec_samplerStart_of_running (hrunning : s.sampler.running = true) : exec .samplerStart s = .next s :=
  if_pos hrunning

/-- Rule R119. -/
theorem exec_waveStart_of_stopped (hstopped : s.wave.running = false) :
    exec .waveStart s = .next (s.setWave { s.wave with running := true, idx := 0 }) :=
  if_neg (Bool.eq_false_iff.mp hstopped)

theorem exec_waveStart_of_running (hrunning : s.wave.running = true) : exec .waveStart s = .next s := if_pos hrunning

/-! The FIFO port. -/

/-- A read of the FIFO port is a `FifoRead`, for every master (rules R52, R116). -/
theorem busRead32_fifoAddr (m : Master) (hp : s.params.Valid) : busRead32 m s.params.fifoAddr s = fifoRead s := by
  obtain ⟨haligned, hdma⟩ := fifoAddr_route hp
  simp [busRead32, haligned, hdma]

/-- An empty FIFO faults (rule R116). -/
theorem fifoRead_of_nil (h : s.fifo = []) : fifoRead s = .fault .fifoUnderflow := by
  simp only [fifoRead, h]

end

/-! The shift register. -/

/-- The shift register after a sample with `LEFT` (rule R112). -/
theorem shiftIn_left (isr : Word) (x : Sample) : shiftIn .left isr x = isr <<< 10 ||| x.setWidth 32 := rfl

/-- The shift register after a sample with `RIGHT` (rule R113). -/
theorem shiftIn_right (isr : Word) (x : Sample) : shiftIn .right isr x = isr >>> 10 ||| x.setWidth 32 <<< 22 := rfl

/-- A sample placed at bit `n + k`, all of it inside the word, moves down by `n` without loss. -/
theorem sample_shiftLeft_ushiftRight (x : Sample) {n k : Nat} (hk : n + k ≤ 22) :
    (x.setWidth 32 <<< (n + k)) >>> n = x.setWidth 32 <<< k := by
  refine BitVec.eq_of_getLsbD_eq fun j hj => ?_
  simp only [BitVec.getLsbD_ushiftRight, BitVec.getLsbD_shiftLeft, BitVec.getLsbD_setWidth]
  by_cases hin : n + j < 32
  · have hlow : n + j < n + k ↔ j < k := by omega
    simp [hin, hj, hlow, Nat.add_sub_add_left]
  · have habove : x.getLsbD (j - k) = false := BitVec.getLsbD_of_ge x _ (by omega)
    simp [hin, habove]

/-! What the steps can see. -/

/-- `u` with what the sampler's steps can see of `s` in its place (rule R123). -/
def State.withSamplingOf (u s : State) : State :=
  { u with sampler := s.sampler, ref := s.ref, fifo := s.fifo, params := s.params }

/-- `u` with what the waveform generator can see of `s` in its place (rule R122). -/
def State.withWaveOf (u s : State) : State := { u with wave := s.wave, params := s.params }

section
variable {u s t : State}

theorem withSamplingOf_eq_self (hsampler : u.sampler = s.sampler) (href : u.ref = s.ref) (hfifo : u.fifo = s.fifo)
    (hparams : u.params = s.params) : u.withSamplingOf s = u := by
  rw [State.withSamplingOf, ← hsampler, ← href, ← hfifo, ← hparams]

theorem withWaveOf_eq_self (hwave : u.wave = s.wave) (hparams : u.params = s.params) : u.withWaveOf s = u := by
  rw [State.withWaveOf, ← hwave, ← hparams]

/-- The sampler's steps change only `sampler` and `ref`, and append to `fifo` (rule R123). -/
theorem samplerStep_frame {i : Instr} (hi : i = .sampleHigh ∨ i = .sampleLow ∨ ∃ x, i = .sampleIn x)
    (hx : exec i s = .next t) : ∃ l, t = { s with sampler := t.sampler, ref := t.ref, fifo := s.fifo ++ l } := by
  have nothingPushed : s.fifo = s.fifo ++ [] := (List.append_nil _).symm
  obtain rfl | rfl | ⟨x, rfl⟩ := hi
  · simp only [exec, execSampleHigh] at hx
    split at hx <;> cases hx
    · exact ⟨[], by rw [← nothingPushed]; rfl⟩
    · exact ⟨[], by rw [← nothingPushed]⟩
  · simp only [exec, execSampleLow] at hx
    split at hx <;> cases hx
    · exact ⟨[], by rw [← nothingPushed]; rfl⟩
    · exact ⟨[], by rw [← nothingPushed]⟩
  · obtain rfl | ⟨-, -, rfl⟩ | ⟨-, rfl⟩ := execSampleIn_cases hx
    · exact ⟨[], by rw [← nothingPushed]⟩
    · exact ⟨[shiftIn s.params.inShiftDir s.sampler.isr x], rfl⟩
    · exact ⟨[], by rw [← nothingPushed]; rfl⟩

/-- The sampler's steps see only `sampler`, `ref`, `fifo` and the parameters: in any state with those of `s` they do the same
to them (rule R123). -/
theorem samplerStep_withSamplingOf (u s : State) {i : Instr}
    (hi : i = .sampleHigh ∨ i = .sampleLow ∨ ∃ x, i = .sampleIn x) :
    exec i (u.withSamplingOf s) = andThen (exec i s) fun t => .next (u.withSamplingOf t) := by
  obtain ⟨h, hstep, hsame⟩ : ∃ h, Safety.hwStepOf i = some h ∧ h.enabled (u.withSamplingOf s) = h.enabled s := by
    obtain rfl | rfl | ⟨x, rfl⟩ := hi <;> exact ⟨_, rfl, rfl⟩
  cases hen : h.enabled s with
  | false =>
    rw [exec_of_disabled hstep hen]
    exact exec_of_disabled hstep (hsame.trans hen)
  | true =>
    obtain rfl | rfl | ⟨x, rfl⟩ := hi <;> cases hstep
    · rw [exec_sampleHigh_of_enabled hen]
      exact exec_sampleHigh_of_enabled (s := u.withSamplingOf s) hen
    · rw [exec_sampleLow_of_enabled hen]
      exact exec_sampleLow_of_enabled (s := u.withSamplingOf s) hen
    · by_cases hdue : s.pushDue = true
      · rw [exec_sampleIn_of_pushDue x hen hdue]
        exact exec_sampleIn_of_pushDue (s := u.withSamplingOf s) x hen hdue
      · rw [exec_sampleIn_of_not_pushDue x hen hdue]
        exact exec_sampleIn_of_not_pushDue (s := u.withSamplingOf s) x hen hdue

/-- The waveform generator's operations change only `wave` (rule R122). -/
theorem waveOp_frame {i : Instr} (hi : i = .waveStart ∨ i = .waveStop ∨ i = .waveStep) (hx : exec i s = .next t) :
    t = { s with wave := t.wave } := by
  obtain rfl | rfl | rfl := hi
  · simp only [exec, execWaveStart] at hx
    split at hx <;> cases hx <;> rfl
  · cases hx; rfl
  · obtain rfl | ⟨b, -, rfl⟩ := execWaveStep_cases hx <;> rfl

/-- The waveform generator's operations see only `wave` and the parameters (rule R122). -/
theorem waveOp_withWaveOf (u s : State) {i : Instr} (hi : i = .waveStart ∨ i = .waveStop ∨ i = .waveStep) :
    exec i (u.withWaveOf s) = andThen (exec i s) fun t => .next (u.withWaveOf t) := by
  obtain rfl | rfl | rfl := hi
  · cases hrunning : s.wave.running with
    | false =>
      rw [exec_waveStart_of_stopped hrunning]
      exact exec_waveStart_of_stopped (s := u.withWaveOf s) hrunning
    | true =>
      rw [exec_waveStart_of_running hrunning]
      exact exec_waveStart_of_running (s := u.withWaveOf s) hrunning
  · rfl
  · cases hrunning : s.wave.running with
    | false =>
      rw [exec_of_disabled (i := .waveStep) rfl hrunning]
      exact exec_of_disabled (s := u.withWaveOf s) (i := .waveStep) rfl hrunning
    | true =>
      cases hbit : s.params.wavePattern[s.wave.idx]? with
      | none =>
        rw [exec_waveStep_of_no_bit hrunning hbit]
        exact exec_waveStep_of_no_bit (s := u.withWaveOf s) hrunning hbit
      | some b =>
        rw [exec_waveStep_of_bit hrunning hbit]
        exact exec_waveStep_of_bit (s := u.withWaveOf s) hrunning hbit

end

end Sys2Proof.Machine
end

section
/-! The statements of 41_sampling_and_waveform.md. -/

namespace Sys2Proof.SamplingAndWaveform

open Machine

/-- Settles O39 (rule R123): `u` is `u` with what the steps can see of `s` in its place, and they keep the parameters. -/
theorem samplerTouchesOnlyItsOwnState : Obligations.SamplerTouchesOnlyItsOwnState := by
  intro i s u t hi hsampler href hfifo hparams hx
  obtain ⟨l, hframe⟩ := samplerStep_frame hi hx
  refine ⟨⟨l, hframe⟩, ?_⟩
  have hkept : t.params = u.params := (congrArg State.params hframe).trans hparams.symm
  have hu := samplerStep_withSamplingOf u s hi
  rw [hx, andThen_next, withSamplingOf_eq_self hsampler href hfifo hparams, State.withSamplingOf, hkept] at hu
  exact hu

/-- Settles O34 (rules R106, R107). -/
theorem samplerStartsAndStops : Obligations.SamplerStartsAndStops := fun _ =>
  ⟨exec_samplerStart_of_stopped, exec_samplerStart_of_running, rfl⟩

/-- Settles O35 (rules R108, R111). -/
theorem sampleHighAndLowDriveTheReference : Obligations.SampleHighAndLowDriveTheReference := fun _ hrunning =>
  ⟨fun hphase => exec_sampleHigh_of_enabled (sampleHighEnabled_iff.mpr ⟨hrunning, hphase⟩),
    fun hphase => exec_sampleLow_of_enabled (sampleLowEnabled_iff.mpr ⟨hrunning, hphase⟩)⟩

/-- Settles O36 (rule R109): the two equations for the shift register are `shiftIn` in each direction. -/
theorem sampleInShiftsAndPushes : Obligations.SampleInShiftsAndPushes := by
  intro s x isr hrunning hphase hleft hright
  have hisr : isr = shiftIn s.params.inShiftDir s.sampler.isr x := by
    cases hdir : s.params.inShiftDir with
    | left => exact hleft hdir
    | right => exact hright hdir
  subst hisr
  refine ⟨fun hbelow => ?_, fun hdue hroom => ?_⟩
  · have hnotDue : ¬30 ≤ s.sampler.isrCount + 10 := Nat.not_le.mpr hbelow
    have hen := sampleInEnabled_iff.mpr ⟨hrunning, hphase, fun hdue => absurd hdue hnotDue⟩
    exact exec_sampleIn_of_not_pushDue x hen (pushDue_iff.not.mpr hnotDue)
  · have hen := sampleInEnabled_iff.mpr ⟨hrunning, hphase, fun _ => hroom⟩
    exact exec_sampleIn_of_pushDue x hen (pushDue_iff.mpr hdue)

/-- Settles O37 (rules R109, R112, R113): each sample is moved once or twice by ten bits, and none leaves the word. -/
theorem threeSamplesPackIntoOneWord : Obligations.ThreeSamplesPackIntoOneWord := by
  intro x y z
  constructor
  · have htwice : x.setWidth 32 <<< 10 <<< 10 = x.setWidth 32 <<< 20 := (BitVec.shiftLeft_add _ 10 10).symm
    rw [shiftIn_left, shiftIn_left, shiftIn_left, BitVec.zero_shiftLeft, BitVec.zero_or, BitVec.shiftLeft_or_distrib,
      htwice]
  · have honce (w : Sample) : w.setWidth 32 <<< 22 >>> 10 = w.setWidth 32 <<< 12 :=
      sample_shiftLeft_ushiftRight w (n := 10) (k := 12) (by decide)
    have htwice : x.setWidth 32 <<< 12 >>> 10 = x.setWidth 32 <<< 2 :=
      sample_shiftLeft_ushiftRight x (n := 10) (k := 2) (by decide)
    rw [shiftIn_right, shiftIn_right, shiftIn_right, BitVec.zero_ushiftRight, BitVec.zero_or, honce,
      BitVec.ushiftRight_or_distrib, honce, htwice]
    have reverse (a b c : Word) : a ||| b ||| c = c ||| b ||| a := by ac_rfl
    exact reverse _ _ _

/-- Settles O38 (rules R105, R110, R121, R153, R158, R182; log 9): each condition disables its step. -/
theorem disabledStepsHold : Obligations.DisabledStepsHold := by
  intro s
  refine ⟨fun c h => ?xfer, fun c h => ?start, fun h => ?abortDone, fun h => ?sampleHigh, fun x h => ?sampleIn,
    fun h => ?sampleLow, fun h => exec_of_disabled rfl h⟩
  case xfer =>
    refine exec_of_disabled rfl (Bool.and_eq_false_iff.mpr ?_)
    exact h.imp id fun ⟨htreq, hfifo⟩ => req_of_fifo_nil htreq hfifo
  case start => exact exec_of_disabled rfl (Bool.and_eq_false_iff.mpr (h.imp id (congrArg not)))
  case abortDone => exact exec_of_disabled rfl (bne_eq_false_iff_eq.mpr h)
  all_goals refine exec_of_disabled rfl (Bool.eq_false_iff.mpr fun hen => ?_)
  case sampleHigh =>
    obtain ⟨hrunning, hphase⟩ := sampleHighEnabled_iff.mp hen
    exact h.elim (absurd hrunning ∘ Bool.eq_false_iff.mp) (· hphase)
  case sampleIn =>
    obtain ⟨hrunning, hphase, hroom⟩ := sampleInEnabled_iff.mp hen
    obtain hstopped | hother | ⟨hdue, hfull⟩ := h
    · exact Bool.eq_false_iff.mp hstopped hrunning
    · exact hother hphase
    · exact Nat.not_le.mpr (hroom (Nat.add_le_add_right hdue 10)) hfull
  case sampleLow =>
    obtain ⟨hrunning, hphase⟩ := sampleLowEnabled_iff.mp hen
    exact h.elim (absurd hrunning ∘ Bool.eq_false_iff.mp) (· hphase)

/-- Settles O40 (rules R52, R116; log 12): the port is routed to the FIFO, and the host's read of it is the same read. -/
theorem fifoReadPopsTheHead : Obligations.FifoReadPopsTheHead := by
  intro s m hp
  rw [busRead32_fifoAddr m hp]
  refine ⟨fun hempty => ?_, fun v rest hfifo => ?_⟩
  · have hread := fifoRead_of_nil hempty
    exact ⟨hread, congrArg deliver hread⟩
  · have hread : fifoRead s = .next (v, s.setFifo rest) := fifoRead_eq_next.mpr ⟨rest, hfifo, rfl⟩
    exact ⟨hread, congrArg deliver hread⟩

/-- Settles O42 (rules R119 to R121). -/
theorem waveformCyclesThroughThePattern : Obligations.WaveformCyclesThroughThePattern := fun _ =>
  ⟨exec_waveStart_of_stopped, exec_waveStart_of_running, rfl,
    fun hidx hrunning => exec_waveStep_of_bit hrunning (List.getElem?_eq_getElem hidx)⟩

/-- Settles O43 (rule R122), as O39. -/
theorem waveformTouchesOnlyItsOwnState : Obligations.WaveformTouchesOnlyItsOwnState := by
  intro i s u t hi hwave hparams hx
  have hframe := waveOp_frame hi hx
  refine ⟨hframe, ?_⟩
  have hkept : t.params = u.params := (congrArg State.params hframe).trans hparams.symm
  have hu := waveOp_withWaveOf u s hi
  rw [hx, andThen_next, withWaveOf_eq_self hwave hparams, State.withWaveOf, hkept] at hu
  exact hu

end Sys2Proof.SamplingAndWaveform
end

section
/-! SUPPORT. The registers of a channel (rules R97, R125 to R135, R152): what an access answers in each case, by the guard, the
admission of the control word and the state of the registers the access needs. -/

namespace Sys2Proof.Machine

section
variable {s : State} {c : Nat}

/-! The write guard (rule R125). -/

/-- A write to an active channel faults, for every master. -/
theorem chanWrite_of_active (m : Master) (r : ChanReg) (v : Word) (hc : c < s.params.nch)
    (h : (s.chan c).busy = true ∨ (s.chan c).pend = true) : chanWrite m c r v s = .fault (.configWhileActive c) := by
  rw [chanWrite, if_pos hc, writeGuard, if_pos h, andThen_fault]

/-- The host's write to a resting channel whose abort is pending faults. -/
theorem chanWrite_host_of_aborting (r : ChanReg) (v : Word) (hc : c < s.params.nch) (hb : (s.chan c).busy = false)
    (hp : (s.chan c).pend = false) (ha : s.abortBit c = true) :
    chanWrite .host c r v s = .fault (.configDuringAbort c) := by
  have hresting : ¬((s.chan c).busy = true ∨ (s.chan c).pend = true) := by simp [hb, hp]
  rw [chanWrite, if_pos hc, writeGuard, if_neg hresting, if_pos ⟨rfl, ha⟩, andThen_fault]

/-- A write the guard lets pass is the register's store. -/
theorem chanWrite_of_passed {m : Master} (r : ChanReg) (v : Word) (hc : c < s.params.nch) (hb : (s.chan c).busy = false)
    (hp : (s.chan c).pend = false) (ha : m = .host → s.abortBit c = false) :
    chanWrite m c r v s = chanStore m c r v s := by
  have hguard : writeGuard m c s = .next s := writeGuard_eq_next.mpr ⟨rfl, hb, hp, ha⟩
  rw [chanWrite, if_pos hc, hguard, andThen_next]

/-- The host's write operation on a resting channel without a pending abort is the register's store. -/
theorem exec_writeInstr_of_passed (r : ChanReg) (v : Word) (hc : c < s.params.nch) (hb : (s.chan c).busy = false)
    (hp : (s.chan c).pend = false) (ha : s.abortBit c = false) : exec (writeInstr c v r) s = chanStore .host c r v s := by
  rw [exec_writeInstr, chanWrite_of_passed r v hc hb hp fun _ => ha]

/-! The control word (rules R97, R129, R130). -/

/-- A word that is not admitted is refused with its first failing check. -/
theorem storeCtrl_of_refused {v : Word} {r : Refusal} (h : ctrlRefusal s.params v = some r) :
    storeCtrl c v s = .refused r := by
  rw [storeCtrl, h]

/-- An admitted word is stored. -/
theorem storeCtrl_of_admitted {v : Word} (h : ctrlRefusal s.params v = none) :
    storeCtrl c v s = .next (s.setChan c { s.chan c with ctrl := v }) :=
  storeCtrl_eq_next.mpr ⟨h, rfl⟩

/-- A triggering write of a word that is not admitted is refused too, before it triggers. -/
theorem chanStore_ctrlTrig_of_refused (m : Master) {v : Word} {r : Refusal} (h : ctrlRefusal s.params v = some r) :
    chanStore m c .ctrlTrig v s = .refused r := by
  rw [chanStore, storeCtrl_of_refused h, andThen_refused]

/-- A triggering write of an admitted word with `EN = 0` stores it and triggers nothing. -/
theorem chanStore_ctrlTrig_of_disabled (m : Master) {v : Word} (h : ctrlRefusal s.params v = none)
    (hen : v.getLsbD 0 = false) :
    chanStore m c .ctrlTrig v s = .next (s.setChan c { s.chan c with ctrl := v }) := by
  have hfield : ¬ctrlField v .en = 1 := by rw [ctrlField_en, hen]; decide
  rw [chanStore, storeCtrl_of_admitted h, andThen_next, if_neg hfield]

/-- A triggering write of an admitted word with `EN = 1` triggers the channel that holds it. -/
theorem chanStore_ctrlTrig_of_enabled (m : Master) {v : Word} (h : ctrlRefusal s.params v = none)
    (hen : v.getLsbD 0 = true) :
    chanStore m c .ctrlTrig v s = trigger m c (s.setChan c { s.chan c with ctrl := v }) := by
  have hfield : ctrlField v .en = 1 := by rw [ctrlField_en, hen]; rfl
  rw [chanStore, storeCtrl_of_admitted h, andThen_next, if_pos hfield]

/-! The trigger (rule R152). -/

/-- A trigger with a count of 0 faults. -/
theorem trigger_of_zero (m : Master) {ra wa : Word} (hra : (s.chan c).readAddr = .word ra)
    (hwa : (s.chan c).writeAddr = .word wa) (hn : (s.chan c).countReload = .word 0#32) :
    trigger m c s = .fault (.zeroCount c) := by
  simp [trigger, hra, hwa, hn]

/-- A trigger that needs an UNWRITTEN register faults. -/
theorem trigger_of_unwritten (m : Master) (h : (s.chan c).readAddr = .unwritten ∨ (s.chan c).writeAddr = .unwritten ∨
    (s.chan c).countReload = .unwritten) : trigger m c s = .fault .unwritten := by
  unfold trigger
  split
  · rename_i hra hwa hn
    simp [hra, hwa, hn] at h
  · rfl

/-- The host's trigger notes a session exactly for the Primary Channel (rule R44; log 15). -/
theorem noteSession_host_eq (s : State) (c : Nat) (buf n : Word) :
    s.noteSession .host c buf n = s.setSession (if c = s.params.pri then some ⟨buf, n⟩ else s.session) := by
  unfold State.noteSession
  by_cases hc : c = s.params.pri
  · rw [if_pos ⟨hc, .inl rfl⟩, if_pos hc]
  · rw [if_neg fun h => hc h.1, if_neg hc]
    rfl

/-- The host's trigger of a configured channel starts it with its count reloaded. -/
theorem trigger_host_of_words {ra buf n : Word} (hra : (s.chan c).readAddr = .word ra)
    (hwa : (s.chan c).writeAddr = .word buf) (hn : (s.chan c).countReload = .word n) (hpos : n ≠ 0#32) :
    trigger .host c s = .next ((s.setChan c { s.chan c with countLive := .word n, busy := true }).setSession
      (if c = s.params.pri then some ⟨buf, n⟩ else s.session)) :=
  trigger_eq_next.mpr ⟨ra, buf, n, hra, hwa, hn, hpos, (noteSession_host_eq _ c buf n).symm⟩

/-- The host's triggering write of an admitted word with `EN = 1` to a configured channel stores it and starts the channel with
its count reloaded (rules R130, R152). -/
theorem chanStore_ctrlTrig_host_of_words {v ra buf n : Word} (hc : c < s.ch.length) (h : ctrlRefusal s.params v = none)
    (hen : v.getLsbD 0 = true) (hra : (s.chan c).readAddr = .word ra) (hwa : (s.chan c).writeAddr = .word buf)
    (hn : (s.chan c).countReload = .word n) (hpos : n ≠ 0#32) :
    chanStore .host c .ctrlTrig v s =
      .next ((s.setChan c { s.chan c with ctrl := v, countLive := .word n, busy := true }).setSession
        (if c = s.params.pri then some ⟨buf, n⟩ else s.session)) := by
  have hself := chan_setChan_self s c { s.chan c with ctrl := v } hc
  rw [chanStore_ctrlTrig_of_enabled .host h hen,
    trigger_host_of_words (by rw [hself]; exact hra) (by rw [hself]; exact hwa) (by rw [hself]; exact hn) hpos, hself,
    setChan_setChan]
  rfl

/-! Register reads (rules R131 to R135). -/

/-- A read of a register that loads a value answers it and leaves the state. -/
theorem chanRead_of_load {r : ChanReg} {v : Word} (hc : c < s.params.nch) (h : chanLoad c r s = .next v) :
    chanRead c r s = .next (v, s) :=
  chanRead_eq_next.mpr ⟨hc, h, rfl⟩

/-- A read of a register that faults faults. -/
theorem chanRead_of_load_fault {r : ChanReg} {f : Fault} (hc : c < s.params.nch) (h : chanLoad c r s = .fault f) :
    chanRead c r s = .fault f := by
  rw [chanRead, if_pos hc, h, andThen_fault]

/-- The host's read operation of a register that loads a value ends with the value in the host's hands (log 12). -/
theorem exec_readInstr_of_load {r : ChanReg} {v : Word} (hc : c < s.params.nch) (h : chanLoad c r s = .next v) :
    exec (readInstr c r) s = .next (s.setHostValue (some v)) := by
  rw [exec_readInstr]
  exact deliver_eq_next.mpr ⟨v, s, chanRead_of_load hc h, rfl⟩

/-- An address or count register loads what it holds, and an UNWRITTEN one faults (rules R21, R131 to R133). -/
theorem chanRead_of_needWord {r : ChanReg} {x : RegVal} (hc : c < s.params.nch) (hload : chanLoad c r s = needWord x)
    (v : Word) :
    (x = .word v → chanRead c r s = .next (v, s)) ∧ (x = .unwritten → chanRead c r s = .fault .unwritten) :=
  ⟨fun hx => chanRead_of_load hc (hload.trans (needWord_eq_next.mpr hx)),
    fun hx => chanRead_of_load_fault hc (by rw [hload, hx, needWord_unwritten])⟩

/-! The host's accesses of memory, and writes outside the block (rules R52, R54, R64, R136 to R138). -/

variable {a : Word}

/-- A write of an aligned word of `RAM` is a write of ordinary memory, for every master (rules R52, R137, R139). -/
theorem busWrite32_ram (m : Master) (v : Word) (hp : s.params.Valid) (ha : a.toNat % 4 = 0)
    (hlo : inRam s.params a = true) (hhi : inRam s.params (a + 3#32) = true) :
    busWrite32 m a v s = .next (s.setMem (memWriteWord s.mem a v)) := by
  obtain ⟨hdma, hfifo⟩ := inRam_route hp hlo
  simp [busWrite32, (aligned_iff a).mpr ha, hdma, hfifo, ramWord, hlo, hhi, memWrite]

/-- A write of the FIFO port is refused, for every master (rules R52, R136). -/
theorem busWrite32_fifoAddr (m : Master) (v : Word) (hp : s.params.Valid) :
    busWrite32 m s.params.fifoAddr v s = .refused .fifoWrite := by
  obtain ⟨haligned, hdma⟩ := fifoAddr_route hp
  simp [busWrite32, haligned, hdma, fifoWrite]

/-- With no session active, or outside the noted buffer, no address is in a buffer being filled (rules R44, R64; log 15). -/
theorem bufferInSession_eq_false (h : s.sessionActive = false ∨
    ∀ buf n : Word, s.session = some ⟨buf, n⟩ → 4 * n.toNat ≤ (a - buf).toNat) : s.bufferInSession a = false := by
  obtain hover | houtside := h
  · rw [State.bufferInSession, hover, Bool.false_and]
  · cases hsession : s.session with
    | none => simp [State.bufferInSession, hsession]
    | some x =>
      have hcovers : x.covers a = false := decide_eq_false (Nat.not_lt.mpr (houtside x.buf x.n hsession))
      simp [State.bufferInSession, hsession, hcovers]

/-- Outside the buffer of a session the host reads memory as it is (rules R54, R138). -/
theorem memRead_host_of_not_bufferInSession (h : s.bufferInSession a = false) (d : Nat) :
    memRead .host a s = memRead (.dma d) a s := by
  simp [memRead, h]

end

end Sys2Proof.Machine
end

section
/-! The statements of 42_register_access.md on one access. -/

namespace Sys2Proof.RegisterAccess

open Machine

/-- Settles O19 (rule R125): the guard's three outcomes; the host's operation is the host's write. -/
theorem writeGuardFaultsBeforeAnyStore : Obligations.WriteGuardFaultsBeforeAnyStore := by
  intro s m c r v hc
  refine ⟨fun hactive => ?_, fun hb hp ha => ?_, chanWrite_of_passed r v hc⟩
  · rw [exec_writeInstr]
    exact ⟨chanWrite_of_active m r v hc hactive, chanWrite_of_active .host r v hc hactive⟩
  · rw [exec_writeInstr]
    have haborting := chanWrite_host_of_aborting r v hc hb hp ha
    exact ⟨haborting, haborting⟩

/-- Settles O20 (rules R126 to R128): past the guard the store looks at no bit of the word. -/
theorem addressAndCountWritesStoreAnyWord : Obligations.AddressAndCountWritesStoreAnyWord := by
  intro s m c v hc
  refine ⟨fun hactive r => chanWrite_of_active m r v hc hactive, fun hb hp hm ha r => ?_, fun hb hp ha => ?_⟩
  · subst hm
    exact chanWrite_host_of_aborting r v hc hb hp ha
  · exact ⟨chanWrite_of_passed .readAddr v hc hb hp ha, chanWrite_of_passed .writeAddr v hc hb hp ha,
      chanWrite_of_passed .transCount v hc hb hp ha⟩

/-- Settles O24 (rules R97, R130, R152): the guard passes, the word is stored if admitted, and with `EN = 1` the trigger finds
the channel with its new control word and its registers as they were. -/
theorem hostTriggeringWriteStartsTheChannel : Obligations.HostTriggeringWriteStartsTheChannel := by
  intro s c v hc hlen hb hp ha
  have hstore : exec (.wrCtrlTrig c v) s = chanStore .host c .ctrlTrig v s :=
    exec_writeInstr_of_passed .ctrlTrig v hc hb hp ha
  have hself := chan_setChan_self s c { s.chan c with ctrl := v } (hlen ▸ hc)
  rw [hstore]
  refine ⟨fun r hr => chanStore_ctrlTrig_of_refused .host hr, fun hadmitted => ⟨fun hen => ?_, fun hen => ?_⟩⟩
  · exact chanStore_ctrlTrig_of_disabled .host hadmitted hen
  · refine ⟨fun ra wa n hra hwa hn => ⟨fun hpos => ?_, fun hzero => ?_⟩, fun hunwritten => ?_⟩
    · exact chanStore_ctrlTrig_host_of_words (hlen ▸ hc) hadmitted hen hra hwa hn hpos
    · subst hzero
      rw [chanStore_ctrlTrig_of_enabled .host hadmitted hen]
      exact trigger_of_zero .host (by rw [hself]; exact hra) (by rw [hself]; exact hwa) (by rw [hself]; exact hn)
    · rw [chanStore_ctrlTrig_of_enabled .host hadmitted hen]
      exact trigger_of_unwritten .host (by rw [hself]; exact hunwritten)

/-- Settles O25 (rules R131 to R134): the address is routed to the register, whose read needs a word in an address or the live
count and takes the control word as it stands. -/
theorem registerReadsReturnTheCurrentValue : Obligations.RegisterReadsReturnTheCurrentValue := by
  intro s m c a r hp hc ha
  rw [Nat.add_assoc] at ha
  rw [busRead32_chanReg m hp hc ha]
  refine ⟨?_, ?_, ?_, ?_⟩
  · rintro rfl
    exact chanRead_of_needWord hc rfl
  · rintro rfl
    exact chanRead_of_needWord hc rfl
  · rintro rfl
    exact chanRead_of_needWord hc rfl
  · rintro (rfl | rfl)
    · exact chanRead_of_load hc rfl
    · exact chanRead_of_load hc rfl

/-- Settles O50 (rule R141): the read leaves the channel busy, and the write that follows is to a register of a busy channel. -/
theorem writingItsOwnRegisterAlwaysFaults : Obligations.WritingItsOwnRegisterAlwaysFaults := by
  intro s c r ra wa v u hp _ hc hb hreq hra hwa haddr hread
  obtain ⟨hch, -, hparams⟩ := busRead32_keeps hread
  rw [Nat.add_assoc, ← hparams] at haddr
  rw [← hparams] at hp hc
  have hbusy : (u.chan c).busy = true := by rw [State.chan, hch]; exact hb
  have hwrite : busWrite32 (.dma c) wa v u = .fault (.configWhileActive c) := by
    rw [busWrite32_chanReg (.dma c) v hp hc haddr, chanWrite_of_active (.dma c) r v hc (.inl hbusy)]
  exact execXfer_of_write_fault (Bool.and_eq_true_iff.mpr ⟨hb, hreq⟩) hra hread hwa hwrite

/-- Settles O15 (rules R52, R55, R137): a word of `RAM` is routed to memory, for every master. -/
theorem memoryWriteStoresTheWord : Obligations.MemoryWriteStoresTheWord := by
  intro s m a v hp ha hlo hhi
  exact ⟨busWrite32_ram .host v hp ha hlo hhi, busWrite32_ram m v hp ha hlo hhi,
    fun _ hb => memByte_memWriteWord_outside s.mem a v hb⟩

/-- Settles O16 (rules R54, R64, R138): outside a buffer being filled the host reads memory as a channel does. -/
theorem hostMemoryReadReturnsTheWord : Obligations.HostMemoryReadReturnsTheWord := by
  intro s a hp ha hlo hhi hsession
  have hread : busRead32 .host a s = memRead (.dma 0) a s := by
    rw [busRead32_ram .host hp ha hlo hhi, memRead_host_of_not_bufferInSession (bufferInSession_eq_false hsession) 0]
  refine ⟨fun v hv => ?_, fun k hk hnone => ?_⟩
  · exact deliver_eq_next.mpr ⟨v, s, hread.trans (memRead_dma_of_some 0 hv), rfl⟩
  · exact congrArg deliver (hread.trans (memRead_dma_of_none 0 (memReadWord_of_unwritten hk hnone)))

/-- Settles O21 (rules R126 to R128): the guard passes, and each store changes one register. -/
theorem hostAddressAndCountWritesComplete : Obligations.HostAddressAndCountWritesComplete := by
  intro s c v hc hb hp ha
  have hstore (r : ChanReg) : exec (writeInstr c v r) s = chanStore .host c r v s :=
    exec_writeInstr_of_passed r v hc hb hp ha
  exact ⟨hstore .readAddr, hstore .writeAddr, hstore .transCount⟩

/-- Settles O23 (rules R97, R129): the guard passes, and the admission checks decide. -/
theorem hostControlWriteStoresWithoutTrigger : Obligations.HostControlWriteStoresWithoutTrigger := by
  intro s c v hc hb hp ha
  have hstore : exec (.wrCtrl c v) s = storeCtrl c v s := exec_writeInstr_of_passed .ctrl v hc hb hp ha
  rw [hstore]
  exact ⟨storeCtrl_of_admitted, fun _ hr => storeCtrl_of_refused hr⟩

/-- Settles O26 (rules R131 to R135; log 12). -/
theorem hostRegisterReadsComplete : Obligations.HostRegisterReadsComplete := by
  intro s c hc
  have hread (r : ChanReg) (v : Word) (hload : chanLoad c r s = .next v) :
      exec (readInstr c r) s = .next (s.setHostValue (some v)) := exec_readInstr_of_load hc hload
  exact ⟨fun v hv => hread .readAddr v (needWord_eq_next.mpr hv), fun v hv => hread .writeAddr v (needWord_eq_next.mpr hv),
    fun v hv => hread .transCount v (needWord_eq_next.mpr hv), hread .ctrlTrig _ rfl, hread .ctrl _ rfl⟩

/-- Settles O41 (rules R52, R136): the port is routed to the FIFO, which takes no write. -/
theorem fifoPortWriteIsRefused : Obligations.FifoPortWriteIsRefused :=
  fun _ m v hp => ⟨rfl, busWrite32_fifoAddr m v hp⟩

end Sys2Proof.RegisterAccess
end

section
/-! SUPPORT. The session's configuration as a run of the host program (rules R85, R103, R104, R190, R191, R193, R196, R211):
what a turn with a write leaves, a list of register writes of one channel, and the state in which the ten writes end. -/

namespace Sys2Proof.Machine

/-! A quiescent block (rule R190). -/

/-- In a quiescent block no channel is busy or pending and no abort is pending. -/
theorem quiescent_resting {s : State} (h : s.quiescent = true) : s.abortPending = 0#32 ∧ ∀ c, (s.chan c).resting := by
  simp only [State.quiescent, Bool.and_eq_true, List.all_eq_true, Bool.not_eq_true', beq_iff_eq] at h
  obtain ⟨hrest, habort⟩ := h
  refine ⟨habort, fun c => ?_⟩
  by_cases hc : c < s.ch.length
  · have hmem : s.chan c ∈ s.ch := by
      rw [State.chan, List.getD_eq_getElem _ _ hc]
      exact List.getElem_mem hc
    exact hrest _ hmem
  · rw [State.chan, List.getD_eq_default _ _ (Nat.le_of_not_lt hc)]
    exact ⟨rfl, rfl⟩

/-! The control words of the loop (rules R103, R104). -/

/-- The inputs of `PRI_CTRL` are legal. -/
theorem encLegal_priCtrlInputs {p : Params} (hp : p.Valid) : encLegal (priCtrlInputs p) = true := by
  have hrst := hp.rst_lt
  have hnch := hp.nch_le
  have htreq := p.sampleTreq.isLt
  simp only [encLegal_iff, priCtrlInputs]
  omega

/-- The inputs of `RST_CTRL` are legal. -/
theorem encLegal_rstCtrlInputs {p : Params} (hp : p.Valid) : encLegal (rstCtrlInputs p) = true := by
  have hpri := hp.pri_lt
  have hnch := hp.nch_le
  have htreq := Config.unpacedTreq.isLt
  simp only [encLegal_iff, rstCtrlInputs]
  omega

/-- A packed word is admitted if it uses no ring, moves words, asks for a request the block has and chains to an existing
channel (rule R97). -/
theorem ctrlRefusal_encPack {p : Params} {f : EncInputs} (h : encLegal f = true) (hrs : f.rs = 0) (hring : f.ring = 0)
    (hsize : f.size = 2) (htreq : f.treq = p.sampleTreq.toNat ∨ f.treq = Config.unpacedTreq.toNat)
    (hchain : f.chain < p.nch) : ctrlRefusal p (encPack f) = none := by
  obtain ⟨-, -, hsize', -, -, hring', hrs', hchain', htreq', -⟩ := ctrlField_encPack h
  have hpaced : ¬(f.treq ≠ p.sampleTreq.toNat ∧ f.treq ≠ Config.unpacedTreq.toNat) := by tauto
  simp only [ctrlRefusal, ctrlReservedClear_encPack h, hsize', hring', hrs', hchain', htreq', hrs, hring, hsize,
    if_neg hpaced, if_neg (Nat.not_le.mpr hchain)]
  simp

/-- `PRI_CTRL` is admitted. -/
theorem ctrlRefusal_priCtrl {p : Params} (hp : p.Valid) : ctrlRefusal p (priCtrl p) = none :=
  ctrlRefusal_encPack (encLegal_priCtrlInputs hp) rfl rfl rfl (.inl rfl) hp.rst_lt

/-- `RST_CTRL` is admitted. -/
theorem ctrlRefusal_rstCtrl {p : Params} (hp : p.Valid) : ctrlRefusal p (rstCtrl p) = none :=
  ctrlRefusal_encPack (encLegal_rstCtrlInputs hp) rfl rfl rfl (.inr rfl) hp.pri_lt

/-- `PRI_CTRL` has `EN = 1`. -/
theorem priCtrl_enabled {p : Params} (hp : p.Valid) : (priCtrl p).getLsbD 0 = true := by
  obtain ⟨hen, -⟩ := ctrlField_encPack (encLegal_priCtrlInputs hp)
  rw [ctrlField_en] at hen
  exact Bool.toNat_eq_one.mp hen

/-! Turns of the host program (rules R85, R191). -/

/-- The value of `ENC` of legal inputs in a host program is their packed word (rules R85, R91). -/
theorem evalExpr_enc (p : Params) (h : HostAgent) {f : EncInputs} (hf : encLegal f = true) :
    evalExpr p h (.enc f) = .next (encPack f) := by
  rw [evalExpr, encodeCtrl, if_pos hf]

/-- A turn with a write whose value and operation complete leaves what the operation leaves, one form further. -/
theorem hostTurn_wr {s u : State} {r : HostReg} {e : HostExpr} {v : Word} {i : Instr} {rest : List HostForm}
    (hprog : s.host.prog = .wr r e :: rest) (hvalue : evalExpr s.params s.host e = .next v)
    (hform : writeForm s.params s.host r v = .next i) (hexec : exec i s = .next u) :
    hostTurn s = .next (u.hostGoto rest) := by
  simp [hostTurn, hprog, runForm, hvalue, hform, hexec]

/-- One turn of the host. -/
theorem hostTurns_one {s u : State} (h : hostTurn s = .next u) : hostTurns 1 s = .next u := by
  simp [hostTurns, h]

/-- Turns that complete are followed by the others. -/
theorem hostTurns_add {j : Nat} {s u : State} (k : Nat) (h : hostTurns j s = .next u) :
    hostTurns (j + k) s = hostTurns k u := by
  induction j generalizing s with
  | zero =>
    cases h
    rw [Nat.zero_add]
  | succ j ih =>
    obtain ⟨t, ht, hrest⟩ := andThen_eq_next.mp h
    rw [Nat.succ_add, hostTurns, ht, andThen_next, ih hrest]

/-! Register writes of one channel that trigger nothing. -/

/-- Writing back the record a channel has changes nothing. -/
theorem setChan_chan_self {s : State} {c : Nat} (hc : c < s.ch.length) : s.setChan c (s.chan c) = s := by
  rw [State.setChan, State.chan, List.getD_eq_getElem _ _ hc, List.set_getElem_self]
  rfl

/-- A write of a channel register in a host program: the register, the expression written and the word it is worth. -/
structure RegWrite where
  reg : ChanReg
  expr : HostExpr
  value : Word

/-- The form of the host program that makes the write on channel `c`. -/
def RegWrite.form (c : Nat) (w : RegWrite) : HostForm := .wr (.chan c w.reg) w.expr

/-- The record after the write, where it triggers nothing. -/
def Channel.stored (k : Channel) (w : RegWrite) : Channel :=
  match w.reg with
  | .readAddr => { k with readAddr := .word w.value }
  | .writeAddr => { k with writeAddr := .word w.value }
  | .transCount => { k with countReload := .word w.value }
  | .ctrlTrig => { k with ctrl := w.value }
  | .ctrl => { k with ctrl := w.value }

/-- The expression is worth the value whatever the host's temporaries hold, and past the guard the write stores it and triggers
nothing. -/
structure RegWrite.Plain (p : Params) (w : RegWrite) : Prop where
  evaluates : ∀ h, evalExpr p h w.expr = .next w.value
  not_trigger : w.reg ≠ .ctrlTrig
  admitted : w.reg = .ctrl → ctrlRefusal p w.value = none

/-- A write changes neither whether the channel is busy nor whether it is pending. -/
theorem Channel.stored_resting {k : Channel} (w : RegWrite) (h : k.resting) : (k.stored w).resting := by
  obtain ⟨hb, hp⟩ := h
  unfold Channel.stored
  split <;> exact ⟨hb, hp⟩

/-- Such a write stores its word in its register (rules R126 to R129). -/
theorem chanStore_of_plain {s : State} (m : Master) (c : Nat) {w : RegWrite} (hw : w.Plain s.params) :
    chanStore m c w.reg w.value s = .next (s.setChan c ((s.chan c).stored w)) := by
  obtain ⟨reg, expr, value⟩ := w
  cases reg with
  | readAddr => rfl
  | writeAddr => rfl
  | transCount => rfl
  | ctrlTrig => exact absurd rfl hw.not_trigger
  | ctrl => exact storeCtrl_of_admitted (hw.admitted rfl)

/-- The host's turn with such a write to a resting channel stores it and goes on. -/
theorem hostTurn_regWrite {s : State} {c : Nat} {w : RegWrite} {rest : List HostForm}
    (hprog : s.host.prog = w.form c :: rest) (hw : w.Plain s.params) (hc : c < s.params.nch)
    (hrest : (s.chan c).resting) (ha : s.abortBit c = false) :
    hostTurn s = .next ((s.setChan c ((s.chan c).stored w)).hostGoto rest) := by
  obtain ⟨hb, hp⟩ := hrest
  have hpassed := exec_writeInstr_of_passed w.reg w.value hc hb hp ha
  exact hostTurn_wr hprog (hw.evaluates _) rfl (hpassed.trans (chanStore_of_plain .host c hw))

/-- The host's turns over a list of such writes leave the channel's record with all of them stored, in order, and nothing else
changed but the program. -/
theorem hostTurns_regWrites {s : State} {c : Nat} (ws : List RegWrite) (rest : List HostForm)
    (hws : ∀ w ∈ ws, w.Plain s.params) (hc : c < s.params.nch) (hcl : c < s.ch.length) (hrest : (s.chan c).resting)
    (ha : s.abortBit c = false) :
    hostTurns ws.length (s.hostGoto (ws.map (RegWrite.form c) ++ rest)) =
      .next ((s.setChan c (ws.foldl Channel.stored (s.chan c))).hostGoto rest) := by
  induction ws generalizing s with
  | nil =>
    rw [List.foldl_nil, setChan_chan_self hcl]
    rfl
  | cons w ws ih =>
    obtain ⟨hw, hws⟩ := List.forall_mem_cons.mp hws
    have hself := chan_setChan_self s c ((s.chan c).stored w) hcl
    have hturn : hostTurn (s.hostGoto ((w :: ws).map (RegWrite.form c) ++ rest)) =
        .next ((s.setChan c ((s.chan c).stored w)).hostGoto (ws.map (RegWrite.form c) ++ rest)) :=
      hostTurn_regWrite (s := s.hostGoto _) rfl hw hc hrest ha
    have hlater := ih (s := s.setChan c ((s.chan c).stored w)) hws hc (by rw [setChan_ch_length]; exact hcl)
      (by rw [hself]; exact Channel.stored_resting w hrest) ha
    rw [hself, setChan_setChan] at hlater
    rw [List.length_cons, hostTurns, hturn, andThen_next, hlater, List.foldl_cons]

/-! The ten writes of the session's configuration (rule R211). -/

/-- The Primary Channel's four writes (rules R103, R211). -/
def primaryWrites (p : Params) (buf n : Word) : List RegWrite :=
  [⟨.readAddr, .param .fifoAddr, p.fifoAddr⟩, ⟨.writeAddr, .num buf, buf⟩, ⟨.transCount, .num n, n⟩,
    ⟨.ctrl, .enc (priCtrlInputs p), priCtrl p⟩]

/-- The Restart Channel's four writes (rules R104, R196). -/
def restartWrites (p : Params) (desc : Word) : List RegWrite :=
  [⟨.readAddr, .num desc, desc⟩, ⟨.writeAddr, .num (chanAddr p p.pri .writeAddr), chanAddr p p.pri .writeAddr⟩,
    ⟨.transCount, .num 1#32, 1#32⟩, ⟨.ctrl, .enc (rstCtrlInputs p), rstCtrl p⟩]

/-- The Primary Channel's triggering write (rule R211). -/
def primaryStart (p : Params) : HostForm := .wr (.chan p.pri .ctrlTrig) (.enc (priCtrlInputs p))

/-- The configuration is the descriptor's write, the four writes of each channel and the start. -/
theorem sessionConfig_eq (p : Params) (buf n desc : Word) :
    sessionConfig p buf n desc = .wr (.mem (.num desc)) (.num buf) ::
      ((primaryWrites p buf n).map (RegWrite.form p.pri) ++
        ((restartWrites p desc).map (RegWrite.form p.rst) ++ [primaryStart p])) := rfl

/-- A write of a value that is no control word is plain. -/
theorem RegWrite.Plain.of_ne {p : Params} {w : RegWrite} (hvalue : ∀ h, evalExpr p h w.expr = .next w.value)
    (hctrl : w.reg ≠ .ctrl) (htrig : w.reg ≠ .ctrlTrig) : w.Plain p :=
  ⟨hvalue, htrig, fun h => absurd h hctrl⟩

/-- A write of an admitted packed word to `CTRL` is plain. -/
theorem RegWrite.Plain.of_ctrl {p : Params} {f : EncInputs} (hf : encLegal f = true) (h : ctrlRefusal p (encPack f) = none) :
    RegWrite.Plain p ⟨.ctrl, .enc f, encPack f⟩ :=
  ⟨fun a => evalExpr_enc p a hf, nofun, fun _ => h⟩

/-- The Primary Channel's writes are plain. -/
theorem primaryWrites_plain {p : Params} (hp : p.Valid) (buf n : Word) : ∀ w ∈ primaryWrites p buf n, w.Plain p := by
  simp only [primaryWrites, List.forall_mem_cons]
  exact ⟨.of_ne (fun _ => rfl) nofun nofun, .of_ne (fun _ => rfl) nofun nofun,
    .of_ne (fun _ => rfl) nofun nofun, .of_ctrl (encLegal_priCtrlInputs hp) (ctrlRefusal_priCtrl hp), nofun⟩

/-- The Restart Channel's writes are plain. -/
theorem restartWrites_plain {p : Params} (hp : p.Valid) (desc : Word) : ∀ w ∈ restartWrites p desc, w.Plain p := by
  simp only [restartWrites, List.forall_mem_cons]
  exact ⟨.of_ne (fun _ => rfl) nofun nofun, .of_ne (fun _ => rfl) nofun nofun,
    .of_ne (fun _ => rfl) nofun nofun, .of_ctrl (encLegal_rstCtrlInputs hp) (ctrlRefusal_rstCtrl hp), nofun⟩

/-- The Primary Channel's record after its four writes. -/
def Channel.primaryConfigured (k : Channel) (p : Params) (buf n : Word) : Channel :=
  { k with readAddr := .word p.fifoAddr, writeAddr := .word buf, countReload := .word n, ctrl := priCtrl p }

/-- The Restart Channel's record after its four writes. -/
def Channel.restartConfigured (k : Channel) (p : Params) (desc : Word) : Channel :=
  { k with
    readAddr := .word desc, writeAddr := .word (chanAddr p p.pri .writeAddr), countReload := .word 1#32
    ctrl := rstCtrl p }

section
variable {s : State} {k : Channel} (hp : s.params.Valid) (hlen : s.ch.length = s.params.nch) (hrest : k.resting)
include hp hlen hrest

/-- The host's turns over the Primary Channel's four writes (rules R126 to R129). -/
theorem hostTurns_primaryWrites (buf n : Word) (rest : List HostForm) (hk : s.chan s.params.pri = k)
    (ha : s.abortBit s.params.pri = false) :
    hostTurns 4 (s.hostGoto ((primaryWrites s.params buf n).map (RegWrite.form s.params.pri) ++ rest)) =
      .next ((s.setChan s.params.pri (k.primaryConfigured s.params buf n)).hostGoto rest) := by
  subst hk
  exact hostTurns_regWrites (primaryWrites s.params buf n) rest (primaryWrites_plain hp buf n) hp.pri_lt
    (hlen ▸ hp.pri_lt) hrest ha

/-- The host's turns over the Restart Channel's four writes (rules R126 to R129). -/
theorem hostTurns_restartWrites (desc : Word) (rest : List HostForm) (hk : s.chan s.params.rst = k)
    (ha : s.abortBit s.params.rst = false) :
    hostTurns 4 (s.hostGoto ((restartWrites s.params desc).map (RegWrite.form s.params.rst) ++ rest)) =
      .next ((s.setChan s.params.rst (k.restartConfigured s.params desc)).hostGoto rest) := by
  subst hk
  exact hostTurns_regWrites (restartWrites s.params desc) rest (restartWrites_plain hp desc) hp.rst_lt
    (hlen ▸ hp.rst_lt) hrest ha

/-- The host's turn with the Primary Channel's triggering write starts the configured channel and notes the session (rules R44,
R130, R152; log 15). -/
theorem hostTurn_primaryStart {buf n : Word} {rest : List HostForm} (hprog : s.host.prog = primaryStart s.params :: rest)
    (hpos : n ≠ 0#32) (hk : s.chan s.params.pri = k.primaryConfigured s.params buf n)
    (ha : s.abortBit s.params.pri = false) :
    hostTurn s = .next (((s.setChan s.params.pri
      { k.primaryConfigured s.params buf n with countLive := .word n, busy := true }).setSession
        (some ⟨buf, n⟩)).hostGoto rest) := by
  obtain ⟨hb, hpend⟩ := hrest
  have hpassed := exec_writeInstr_of_passed .ctrlTrig (priCtrl s.params) hp.pri_lt (by rw [hk]; exact hb)
    (by rw [hk]; exact hpend) ha
  have hstart := chanStore_ctrlTrig_host_of_words (hlen ▸ hp.pri_lt) (ctrlRefusal_priCtrl hp) (priCtrl_enabled hp)
    (by rw [hk]; rfl) (by rw [hk]; rfl) (by rw [hk]; rfl) hpos
  rw [hk, if_pos rfl] at hstart
  exact hostTurn_wr hprog (evalExpr_enc _ _ (encLegal_priCtrlInputs hp)) rfl (hpassed.trans hstart)

end

/-- The state after the first of the ten writes: the descriptor. -/
def State.descriptorWritten (s : State) (buf desc : Word) : State := s.setMem (memWriteWord s.mem desc buf)

/-- The state after the first five: the Primary Channel's four too. -/
def State.primaryConfigured (s : State) (buf n desc : Word) : State :=
  (s.descriptorWritten buf desc).setChan s.params.pri ((s.chan s.params.pri).primaryConfigured s.params buf n)

/-- The state after the first nine: the Restart Channel's four too. -/
def State.sessionConfigured (s : State) (buf n desc : Word) : State :=
  (s.primaryConfigured buf n desc).setChan s.params.rst ((s.chan s.params.rst).restartConfigured s.params desc)

/-- The state after the tenth: the Primary Channel busy with its count reloaded, and the session noted (log 15). -/
def State.sessionStarted (s : State) (buf n desc : Word) : State :=
  ((s.sessionConfigured buf n desc).setChan s.params.pri
    { (s.chan s.params.pri).primaryConfigured s.params buf n with countLive := .word n, busy := true }).setSession
      (some ⟨buf, n⟩)

section
variable {s : State} {buf n desc : Word} (hp : s.params.Valid) (hlen : s.ch.length = s.params.nch)

/-- The writes keep the number of channels. -/
theorem sessionConfigured_length : (s.sessionConfigured buf n desc).ch.length = s.ch.length := by
  simp [State.sessionConfigured, State.primaryConfigured, State.descriptorWritten]

/-- So does the start. -/
theorem sessionStarted_length : (s.sessionStarted buf n desc).ch.length = s.ch.length := by
  simp [State.sessionStarted, sessionConfigured_length]

include hp hlen

/-- The Restart Channel's writes leave the Primary Channel configured. -/
theorem sessionConfigured_chan_pri :
    (s.sessionConfigured buf n desc).chan s.params.pri = (s.chan s.params.pri).primaryConfigured s.params buf n := by
  rw [State.sessionConfigured, chan_setChan_ne _ _ _ hp.pri_ne_rst.symm]
  exact chan_setChan_self (s.descriptorWritten buf desc) _ _ (hlen ▸ hp.pri_lt)

/-- The start makes it busy with its count reloaded. -/
theorem sessionStarted_chan_pri : (s.sessionStarted buf n desc).chan s.params.pri =
    { (s.chan s.params.pri).primaryConfigured s.params buf n with countLive := .word n, busy := true } :=
  chan_setChan_self (s.sessionConfigured buf n desc) _ _ (by rw [sessionConfigured_length, hlen]; exact hp.pri_lt)

/-- The Restart Channel stays configured and resting. -/
theorem sessionStarted_chan_rst :
    (s.sessionStarted buf n desc).chan s.params.rst = (s.chan s.params.rst).restartConfigured s.params desc :=
  (chan_setChan_ne (s.sessionConfigured buf n desc) _ _ hp.pri_ne_rst).trans
    (chan_setChan_self (s.primaryConfigured buf n desc) _ _
      (by rw [State.primaryConfigured, setChan_ch_length]; exact hlen ▸ hp.rst_lt))

omit hp hlen in
/-- Every other channel is as before. -/
theorem sessionStarted_chan_other {c : Nat} (hpri : c ≠ s.params.pri) (hrst : c ≠ s.params.rst) :
    (s.sessionStarted buf n desc).chan c = s.chan c :=
  (chan_setChan_ne (s.sessionConfigured buf n desc) _ _ hpri.symm).trans
    ((chan_setChan_ne (s.primaryConfigured buf n desc) _ _ hrst.symm).trans
      (chan_setChan_ne (s.descriptorWritten buf desc) _ _ hpri.symm))

omit hlen in
/-- The descriptor's write completes (rules R137, R192, R193). -/
theorem hostTurn_writeDescriptor {rest : List HostForm} (hdesc : DescriptorInRam s.params buf n desc)
    (hprog : s.host.prog = .wr (.mem (.num desc)) (.num buf) :: rest) :
    hostTurn s = .next ((s.descriptorWritten buf desc).hostGoto rest) := by
  obtain ⟨haligned, hram, -⟩ := hdesc
  have haligned4 : desc.toNat % 4 = 0 := (aligned_iff desc).mp haligned
  have hlast : (desc + 3#32).toNat = desc.toNat + 3 := by bv_omega
  exact hostTurn_wr hprog rfl rfl
    (busWrite32_ram .host buf hp haligned4 (hram desc le_rfl (by omega)) (hram _ (by omega) (by omega)))

/-- The host's ten turns end with the session started (rules R125 to R130, R152, R193, R196, R211). -/
theorem hostTurns_sessionConfig (hq : s.quiescent = true) (hcount : CountPositive n)
    (hdesc : DescriptorInRam s.params buf n desc) (hprog : s.host.prog = sessionConfig s.params buf n desc) :
    hostTurns 10 s = .next ((s.sessionStarted buf n desc).hostGoto []) := by
  obtain ⟨habort, hrest⟩ := quiescent_resting hq
  have hbit (c : Nat) : s.abortBit c = false := by rw [State.abortBit, habort, BitVec.getLsbD_zero]
  have hpos : n ≠ 0#32 := by
    rintro rfl
    exact Nat.not_succ_le_zero 0 hcount
  have hrst : (s.primaryConfigured buf n desc).chan s.params.rst = s.chan s.params.rst :=
    chan_setChan_ne (s.descriptorWritten buf desc) _ _ hp.pri_ne_rst
  have hlenPrimary : (s.primaryConfigured buf n desc).ch.length = s.params.nch := (setChan_ch_length _ _ _).trans hlen
  have hlenSession : (s.sessionConfigured buf n desc).ch.length = s.params.nch := sessionConfigured_length.trans hlen
  have hwritten := hostTurns_one (hostTurn_writeDescriptor hp hdesc (hprog.trans (sessionConfig_eq _ _ _ _)))
  have hprimary := hostTurns_primaryWrites (s := s.descriptorWritten buf desc) hp hlen (hrest _) buf n
    ((restartWrites s.params desc).map (RegWrite.form s.params.rst) ++ [primaryStart s.params]) rfl (hbit _)
  have hrestart := hostTurns_restartWrites (s := s.primaryConfigured buf n desc) hp hlenPrimary (hrest _) desc
    [primaryStart s.params] hrst (hbit _)
  have hstarted := hostTurn_primaryStart (s := (s.sessionConfigured buf n desc).hostGoto [primaryStart s.params]) hp
    hlenSession (hrest _) rfl hpos (sessionConfigured_chan_pri hp hlen) (hbit _)
  calc hostTurns 10 s
      = hostTurns (4 + (4 + 1)) ((s.descriptorWritten buf desc).hostGoto _) := hostTurns_add (4 + (4 + 1)) hwritten
    _ = hostTurns (4 + 1) ((s.primaryConfigured buf n desc).hostGoto _) := hostTurns_add (4 + 1) hprimary
    _ = hostTurns 1 ((s.sessionConfigured buf n desc).hostGoto _) := hostTurns_add 1 hrestart
    _ = .next ((s.sessionStarted buf n desc).hostGoto []) := hostTurns_one hstarted

/-- The state in which the session starts is in the loop, in phase (a) (rules R192, R198, R211). -/
theorem sessionStarted_loopGoodIn (hq : s.quiescent = true) (hfault : s.fault = none) (hrefusal : s.refusal = none)
    (hbuf : BufferInRam s.params buf n) (hcount : CountPositive n) (hdesc : DescriptorInRam s.params buf n desc)
    (hothers : OthersOut s) : LoopGoodIn .capturing (s.sessionStarted buf n desc) buf n desc := by
  obtain ⟨habort, hrest⟩ := quiescent_resting hq
  have hpri := sessionStarted_chan_pri (buf := buf) (n := n) (desc := desc) hp hlen
  have hrst := sessionStarted_chan_rst (buf := buf) (n := n) (desc := desc) hp hlen
  have hphase : inPhase ((s.sessionStarted buf n desc).chan s.params.pri)
      ((s.sessionStarted buf n desc).chan s.params.rst) buf n .capturing := by
    rw [hpri, hrst]
    exact ⟨rfl, (hrest s.params.pri).2, hrest s.params.rst, n, rfl, hcount, le_rfl, by simp [Channel.primaryConfigured]⟩
  have hkept : OthersOut (s.sessionStarted buf n desc) := fun c hc hnePri hneRst => by
    rw [sessionStarted_chan_other (s := s) hnePri hneRst]
    exact hothers c hc hnePri hneRst
  exact {
    params_valid := hp
    channels := sessionStarted_length.trans hlen
    pri_ctrl := congrArg Channel.ctrl hpri
    pri_readAddr := congrArg Channel.readAddr hpri
    pri_countReload := congrArg Channel.countReload hpri
    rst_ctrl := congrArg Channel.ctrl hrst
    rst_readAddr := congrArg Channel.readAddr hrst
    rst_writeAddr := congrArg Channel.writeAddr hrst
    rst_countReload := congrArg Channel.countReload hrst
    descriptor := memReadWord_memWriteWord s.mem desc buf
    no_abort := habort
    no_fault := hfault
    no_refusal := hrefusal
    buf_ok := hbuf
    count_ok := hcount
    desc_ok := hdesc
    others := hkept
    phase := hphase }

end

end Sys2Proof.Machine
end

section
/-! The statement of 42_register_access.md on a whole configuration. -/

namespace Sys2Proof.RegisterAccess

open Machine

/-- Settles O57 (rules R125 to R130, R152, R192, R193, R196, R211): the writes find both channels resting and leave them as the
loop has them; the host's program, all that the last turn changes beside, is no part of the loop. -/
theorem startSessionReachesTheLoop : Obligations.StartSessionReachesTheLoop := by
  intro s buf n desc hp hlen hq hfault hrefusal hbuf hcount hdesc hothers hprog
  have hloop : LoopGoodIn .capturing (s.sessionStarted buf n desc) buf n desc :=
    sessionStarted_loopGoodIn hp hlen hq hfault hrefusal hbuf hcount hdesc hothers
  have hlive : ((s.sessionStarted buf n desc).chan s.params.pri).countLive = .word n :=
    congrArg Channel.countLive (sessionStarted_chan_pri hp hlen)
  exact ⟨(s.sessionStarted buf n desc).hostGoto [], hostTurns_sessionConfig hp hlen hq hcount hdesc hprog, rfl,
    { hloop with }, hlive, rfl⟩

end Sys2Proof.RegisterAccess
end

section
/-! SUPPORT. The steps of the channel engine (rules R151 to R164): when a channel's request is asserted, what `START`, a transfer
and a completion leave in each case, and that a transfer leaves its own channel's record alone until its end. -/

namespace Sys2Proof.Machine

/-! Fields of the control word (rules R70, R96). -/

/-- `INCR_READ` is bit 4. -/
theorem ctrlField_incrRead (w : Word) : ctrlField w .incrRead = (w.getLsbD 4).toNat := extractLsb'_one_toNat w 4

/-- `INCR_WRITE` is bit 5. -/
theorem ctrlField_incrWrite (w : Word) : ctrlField w .incrWrite = (w.getLsbD 5).toNat := extractLsb'_one_toNat w 5

/-- `IRQ_QUIET` is bit 21. -/
theorem ctrlField_irqQuiet (w : Word) : ctrlField w .irqQuiet = (w.getLsbD 21).toNat := extractLsb'_one_toNat w 21

/-- An address after a transfer, by the bit of its increment flag (rule R154). -/
theorem advanceAddr_word (b : Bool) (a : Word) :
    advanceAddr b.toNat (.word a) = .word (if b = true then a + 4#32 else a) := by
  cases b <;> rfl

section
variable {s : State} {c : Nat}

/-! The request (rule R151). -/

/-- A channel the FIFO paces asks for a transfer while the FIFO holds a word. -/
theorem req_of_sampleTreq (h : ctrlField (s.chan c).ctrl .treq = s.params.sampleTreq.toNat) :
    s.req c = true ↔ s.fifo ≠ [] := by
  simp [State.req, transferReq, h]

/-- An unpaced channel always asks for one: its code is not the FIFO's (log 4). -/
theorem req_of_unpaced (hp : s.params.Valid) (h : ctrlField (s.chan c).ctrl .treq = Config.unpacedTreq.toNat) :
    s.req c = true := by
  have hne : Config.unpacedTreq.toNat ≠ s.params.sampleTreq.toNat := fun e => hp.treq_ne (BitVec.eq_of_toNat_eq e.symm)
  simp [State.req, transferReq, h, hne]

/-! Updates of two records. -/

/-- Updates of two channels commute. -/
theorem setChan_comm (s : State) {c d : Nat} (k k' : Channel) (h : c ≠ d) :
    (s.setChan c k).setChan d k' = (s.setChan d k').setChan c k := by
  simp only [State.setChan, State.setCh, List.set_comm k k' h]

/-! `START` (rules R152, R158, R159). -/

/-- A trigger by a channel notes a session exactly for the Primary Channel when none is in progress (rule R44; log 15). -/
theorem noteSession_dma_eq (s : State) (c d : Nat) (buf n : Word) :
    s.noteSession (.dma d) c buf n =
      s.setSession (if c = s.params.pri ∧ s.session = none then some ⟨buf, n⟩ else s.session) := by
  unfold State.noteSession
  by_cases h : c = s.params.pri ∧ s.session = none
  · rw [if_pos ⟨h.1, .inr h.2⟩, if_pos h]
  · rw [if_neg fun e => h ⟨e.1, e.2.resolve_left nofun⟩, if_neg h]
    rfl

theorem startEnabled_iff : s.startEnabled c = true ↔ (s.chan c).pend = true ∧ (s.chan c).busy = false := by
  simp [State.startEnabled]

/-- The trigger taken by an enabled channel (rules R152, R158). -/
theorem exec_start_of_enabled (hen : s.startEnabled c = true) (hctrl : (s.chan c).ctrl.getLsbD 0 = true) :
    exec (.start c) s = trigger (.dma c) c (s.setChan c { s.chan c with pend := false }) := by
  have hfield : ctrlField (s.chan c).ctrl .en = 1 := by rw [ctrlField_en, hctrl]; rfl
  exact (if_pos hen).trans (if_pos hfield)

/-- The trigger dropped by a channel with `EN = 0` (rule R159). -/
theorem exec_start_of_disabled (hen : s.startEnabled c = true) (hctrl : (s.chan c).ctrl.getLsbD 0 = false) :
    exec (.start c) s = .next (s.setChan c { s.chan c with pend := false }) := by
  have hfield : ¬ctrlField (s.chan c).ctrl .en = 1 := by rw [ctrlField_en, hctrl]; decide
  exact (if_pos hen).trans (if_neg hfield)

/-- An enabled and configured channel starts with its count reloaded and its addresses as they stand (rules R152, R158; the
session is log 15). -/
theorem exec_start_of_words {ra wa n : Word} (hc : c < s.ch.length) (hen : s.startEnabled c = true)
    (hctrl : (s.chan c).ctrl.getLsbD 0 = true) (hra : (s.chan c).readAddr = .word ra)
    (hwa : (s.chan c).writeAddr = .word wa) (hn : (s.chan c).countReload = .word n) (hpos : n ≠ 0#32) :
    exec (.start c) s =
      .next ((s.setChan c { s.chan c with pend := false, countLive := .word n, busy := true }).setSession
        (if c = s.params.pri ∧ s.session = none then some ⟨wa, n⟩ else s.session)) := by
  have hself := chan_setChan_self s c { s.chan c with pend := false } hc
  have htrigger := trigger_eq_next (m := .dma c) (c := c) (s := s.setChan c { s.chan c with pend := false }).mpr
    ⟨ra, wa, n, by rw [hself]; exact hra, by rw [hself]; exact hwa, by rw [hself]; exact hn, hpos, rfl⟩
  rw [exec_start_of_enabled hen hctrl, htrigger, hself, setChan_setChan, noteSession_dma_eq]
  rfl

/-! Completion (rules R155, R156, R163). -/

/-- The record of a channel that completes. -/
def Channel.completed (k : Channel) : Channel := { k with busy := false, irq := k.irq || !k.ctrl.getLsbD 21 }

/-- The completion interrupt, by the bit of `IRQ_QUIET`. -/
theorem raiseIrq_eq (hc : c < s.ch.length) :
    raiseIrq c s = s.setChan c { s.chan c with irq := (s.chan c).irq || !(s.chan c).ctrl.getLsbD 21 } := by
  rw [raiseIrq, ctrlField_irqQuiet]
  cases (s.chan c).ctrl.getLsbD 21 with
  | false => simp
  | true => simp [setChan_chan_self hc]

/-- A channel chained to itself completes without a trigger. -/
theorem complete_of_chain_self (hc : c < s.ch.length) (hchain : ctrlField (s.chan c).ctrl .chainTo = c) :
    complete c s = .next (s.setChan c (s.chan c).completed) := by
  have hself := chan_setChan_self s c { s.chan c with busy := false } hc
  simp only [complete, hchain, if_true, andThen_next]
  rw [raiseIrq_eq (by rw [setChan_ch_length]; exact hc), hself, setChan_setChan]
  rfl

variable {t : Nat}

/-- A completion that chains to an active channel collides. -/
theorem complete_of_chain_active (hchain : ctrlField (s.chan c).ctrl .chainTo = t) (hne : t ≠ c)
    (h : (s.chan t).busy = true ∨ (s.chan t).pend = true) : complete c s = .fault (.chainCollision t) := by
  have hkept := chan_setChan_ne s c { s.chan c with busy := false } hne.symm
  simp only [complete, hchain, if_neg hne, chainRequest, hkept, if_pos h, andThen_fault]

/-- A completion that chains to a resting channel makes it pending. -/
theorem complete_of_chain_resting (hc : c < s.ch.length) (hchain : ctrlField (s.chan c).ctrl .chainTo = t) (hne : t ≠ c)
    (h : (s.chan t).resting) :
    complete c s = .next ((s.setChan c (s.chan c).completed).setChan t { s.chan t with pend := true }) := by
  obtain ⟨hb, hp⟩ := h
  have hself := chan_setChan_self s c { s.chan c with busy := false } hc
  have hkept := chan_setChan_ne s c { s.chan c with busy := false } hne.symm
  have hrequest : chainRequest t (s.setChan c { s.chan c with busy := false }) =
      .next ((s.setChan c { s.chan c with busy := false }).setChan t { s.chan t with pend := true }) :=
    chainRequest_eq_next.mpr ⟨by rw [hkept]; exact hb, by rw [hkept]; exact hp, by rw [hkept]⟩
  simp only [complete, hchain, if_neg hne, hrequest, andThen_next]
  rw [raiseIrq_eq (by simpa using hc), chan_setChan_ne _ _ _ hne, hself, setChan_comm _ _ _ hne, setChan_setChan]
  rfl

/-- A quiet channel stops and nothing else (rule R101). -/
theorem Channel.completed_of_quiet {k : Channel} (h : k.ctrl.getLsbD 21 = true) : k.completed = { k with busy := false } := by
  rw [completed, h, Bool.not_true, Bool.or_false]

/-- The completion of a quiet channel whose record has just been written. -/
theorem complete_setChan_of_quiet {k r : Channel} (hc : c < s.ch.length) (hquiet : k.ctrl.getLsbD 21 = true)
    (hchain : ctrlField k.ctrl .chainTo = t) (hne : t ≠ c) (hr : s.chan t = r) (hrest : r.resting) :
    complete c (s.setChan c k) =
      .next ((s.setChan c { k with busy := false }).setChan t { r with pend := true }) := by
  have hself := chan_setChan_self s c k hc
  have hkept : (s.setChan c k).chan t = r := (chan_setChan_ne s c k hne.symm).trans hr
  rw [complete_of_chain_resting (by rw [setChan_ch_length]; exact hc) (by rw [hself]; exact hchain) hne
    (by rw [hkept]; exact hrest), hself, hkept, setChan_setChan, Channel.completed_of_quiet hquiet]

/-! Transfers (rule R154). -/

/-- The record of a channel that has moved a word from `ra` to `wa` with `n` words left. -/
def Channel.advanced (k : Channel) (ra wa n : Word) : Channel :=
  { k with
    readAddr := .word (if k.ctrl.getLsbD 4 = true then ra + 4#32 else ra)
    writeAddr := .word (if k.ctrl.getLsbD 5 = true then wa + 4#32 else wa)
    countLive := .word (n - 1#32) }

/-- A record whose control word increments no address only counts. -/
theorem Channel.advanced_of_fixed {k : Channel} {ra wa : Word} (n : Word) (hir : k.ctrl.getLsbD 4 = false)
    (hiw : k.ctrl.getLsbD 5 = false) (hra : k.readAddr = .word ra) (hwa : k.writeAddr = .word wa) :
    k.advanced ra wa n = { k with countLive := .word (n - 1#32) } := by
  rw [advanced, hir, hiw, if_neg Bool.false_ne_true, if_neg Bool.false_ne_true, ← hra, ← hwa]

/-- A store to another channel leaves the record alone, whether it triggers or not. -/
theorem chanStore_keeps_other {m : Master} {d : Nat} {r : ChanReg} {v : Word} {u : State}
    (h : chanStore m d r v s = .next u) (hne : d ≠ c) : u.chan c = s.chan c ∧ u.ch.length = s.ch.length := by
  rcases chanStore_cases h with ⟨-, rfl⟩ | ⟨-, rfl⟩ | ⟨-, rfl⟩ | ⟨-, -, rfl⟩ | ⟨-, -, -, ht⟩
  · exact ⟨chan_setChan_ne _ _ _ hne, setChan_ch_length _ _ _⟩
  · exact ⟨chan_setChan_ne _ _ _ hne, setChan_ch_length _ _ _⟩
  · exact ⟨chan_setChan_ne _ _ _ hne, setChan_ch_length _ _ _⟩
  · exact ⟨chan_setChan_ne _ _ _ hne, setChan_ch_length _ _ _⟩
  · obtain ⟨_, buf, n, -, -, -, -, rfl⟩ := trigger_eq_next.mp ht
    simp [chan_setChan_ne _ _ _ hne]

/-- A write that answers a next state leaves the record of a busy channel alone: to its own registers it would have faulted
(rules R125, R139, R141). -/
theorem busWrite32_keeps_busy {m : Master} {a v : Word} {u : State} (h : busWrite32 m a v s = .next u)
    (hb : (s.chan c).busy = true) : u.chan c = s.chan c ∧ u.ch.length = s.ch.length := by
  rcases busWrite32_cases h with rfl | ⟨d, r, -, -, hw⟩ | ⟨-, -, rfl⟩
  · exact ⟨rfl, rfl⟩
  · obtain ⟨-, hrest, -, -, hstore⟩ := chanWrite_eq_next.mp hw
    refine chanStore_keeps_other hstore ?_
    rintro rfl
    rw [hrest] at hb
    cases hb
  · exact ⟨rfl, rfl⟩

/-- The end of a transfer of a channel with its addresses written: the record is advanced, and the last word completes. -/
theorem finishXfer_of_words {ra wa n : Word} (hra : (s.chan c).readAddr = .word ra) (hwa : (s.chan c).writeAddr = .word wa)
    (hn : (s.chan c).countLive = .word n) :
    finishXfer c (s.chan c).ctrl s =
      if n = 1#32 then complete c (s.setChan c ((s.chan c).advanced ra wa n))
      else .next (s.setChan c ((s.chan c).advanced ra wa n)) := by
  have hlast : n - 1#32 = 0#32 ↔ n = 1#32 := by bv_omega
  simp only [finishXfer, hra, hwa, hn, needWord_word, andThen_next, ctrlField_incrRead, ctrlField_incrWrite,
    advanceAddr_word, hlast]
  rfl

section
variable {ra wa v : Word} {u x : State} (hb : (s.chan c).busy = true) (hreq : s.req c = true)
  (hra : (s.chan c).readAddr = .word ra)
include hb hreq hra

/-- An enabled transfer starts with its read. -/
theorem exec_xfer_eq : exec (.xfer c) s = andThen (busRead32 (.dma c) ra s) fun x =>
    andThen (needWord (x.2.chan c).writeAddr) fun wa => andThen (busWrite32 (.dma c) wa x.1 x.2) fun t =>
      finishXfer c (s.chan c).ctrl t := by
  have hen : s.xferEnabled c = true := Bool.and_eq_true_iff.mpr ⟨hb, hreq⟩
  refine (if_pos hen).trans ?_
  rw [xferWord, hra, needWord_word, andThen_next]

/-- After a read that succeeds comes the write: the read leaves the write address as it was (rule R135). -/
theorem exec_xfer_of_read (hwa : (s.chan c).writeAddr = .word wa) (hread : busRead32 (.dma c) ra s = .next (v, u)) :
    exec (.xfer c) s = andThen (busWrite32 (.dma c) wa v u) fun t => finishXfer c (s.chan c).ctrl t := by
  obtain ⟨hch, -, -⟩ := busRead32_keeps hread
  have hwa' : (u.chan c).writeAddr = .word wa := by rw [State.chan, hch]; exact hwa
  rw [exec_xfer_eq hb hreq hra, hread, andThen_next, hwa', needWord_word, andThen_next]

/-- After a write that succeeds the record is advanced, and the last word completes. -/
theorem exec_xfer_of_write {n : Word} (hwa : (s.chan c).writeAddr = .word wa) (hn : (s.chan c).countLive = .word n)
    (hread : busRead32 (.dma c) ra s = .next (v, u)) (hwrite : busWrite32 (.dma c) wa v u = .next x) :
    exec (.xfer c) s =
      if n = 1#32 then complete c (x.setChan c ((s.chan c).advanced ra wa n))
      else .next (x.setChan c ((s.chan c).advanced ra wa n)) := by
  obtain ⟨hch, -, -⟩ := busRead32_keeps hread
  have hu : u.chan c = s.chan c := by rw [State.chan, hch]; rfl
  obtain ⟨hx, -⟩ := busWrite32_keeps_busy (c := c) hwrite (by rw [hu]; exact hb)
  rw [hu] at hx
  rw [exec_xfer_of_read hb hreq hra hwa hread, hwrite, andThen_next, ← hx]
  rw [← hx] at hra hwa hn
  exact finishXfer_of_words hra hwa hn

end

end

end Sys2Proof.Machine
end

section
/-! SUPPORT. Two whole transfers: a word from the FIFO to `RAM`, as the Primary Channel moves it, and the Restart Channel's one
transfer (rules R104, R116, R139, R154, R155, R164). -/

namespace Sys2Proof.Machine

section
variable {s : State}

/-- A word moved from the FIFO to `RAM` (rules R52, R116, R137, R154). -/
theorem exec_xfer_fifo_to_ram {c : Nat} {v wa n : Word} {rest : List Word} (hp : s.params.Valid)
    (hb : (s.chan c).busy = true) (htreq : ctrlField (s.chan c).ctrl .treq = s.params.sampleTreq.toNat)
    (hra : (s.chan c).readAddr = .word s.params.fifoAddr) (hfifo : s.fifo = v :: rest)
    (hwa : (s.chan c).writeAddr = .word wa) (ha : wa.toNat % 4 = 0) (hlo : inRam s.params wa = true)
    (hhi : inRam s.params (wa + 3#32) = true) (hn : (s.chan c).countLive = .word n) :
    exec (.xfer c) s =
      if n = 1#32 then complete c (((s.setFifo rest).setMem (memWriteWord s.mem wa v)).setChan c
        ((s.chan c).advanced s.params.fifoAddr wa n))
      else .next (((s.setFifo rest).setMem (memWriteWord s.mem wa v)).setChan c
        ((s.chan c).advanced s.params.fifoAddr wa n)) := by
  have hreq : s.req c = true := (req_of_sampleTreq htreq).mpr (by rw [hfifo]; exact List.cons_ne_nil v rest)
  have hread : busRead32 (.dma c) s.params.fifoAddr s = .next (v, s.setFifo rest) := by
    rw [busRead32_fifoAddr (.dma c) hp]
    exact fifoRead_eq_next.mpr ⟨rest, hfifo, rfl⟩
  have hwrite : busWrite32 (.dma c) wa v (s.setFifo rest) =
      .next ((s.setFifo rest).setMem (memWriteWord s.mem wa v)) :=
    busWrite32_ram (s := s.setFifo rest) (.dma c) v hp ha hlo hhi
  exact exec_xfer_of_write hb hreq hra hwa hn hread hwrite

/-- The address of a register of an existing channel does not wrap (rules R6, R51, R76). -/
theorem chanAddr_toNat {p : Params} {c : Nat} (hp : p.Valid) (r : ChanReg) (hc : c < p.nch) :
    (chanAddr p c r).toNat = p.dmaBase.toNat + (c * 0x40 + (chanRegCode r).toNat) := by
  have hoff := chanOff_toNat r (Nat.lt_of_lt_of_le hc hp.nch_le)
  obtain ⟨hlt, -⟩ := chanReg_offset hp r hc
  have hbase := hp.dmaBase_aligned
  simp only [Config.dmaSize] at hbase
  have hword := p.dmaBase.isLt
  rw [chanAddr, BitVec.toNat_add, BitVec.toNat_setWidth, hoff]
  omega

/-- The fields of `RST_CTRL` that its transfer uses: unpaced, no increments, quiet, chained to the Primary Channel
(rule R104). -/
theorem rstCtrl_fields {p : Params} (hp : p.Valid) :
    ctrlField (rstCtrl p) .treq = Config.unpacedTreq.toNat ∧ (rstCtrl p).getLsbD 4 = false ∧
      (rstCtrl p).getLsbD 5 = false ∧ (rstCtrl p).getLsbD 21 = true ∧ ctrlField (rstCtrl p) .chainTo = p.pri := by
  obtain ⟨-, -, -, hir, hiw, -, -, hchain, htreq, hq⟩ := ctrlField_encPack (encLegal_rstCtrlInputs hp)
  rw [ctrlField_incrRead] at hir
  rw [ctrlField_incrWrite] at hiw
  rw [ctrlField_irqQuiet] at hq
  exact ⟨htreq, Bool.toNat_eq_zero.mp hir, Bool.toNat_eq_zero.mp hiw, Bool.toNat_eq_one.mp hq, hchain⟩

/-- The Restart Channel's one transfer sets the Primary Channel's destination to the descriptor's word, and its completion
chain-triggers the Primary Channel (rule R164). -/
theorem exec_xfer_restart {desc v : Word} (hp : s.params.Valid) (hlen : s.ch.length = s.params.nch)
    (hb : (s.chan s.params.rst).busy = true) (hctrl : (s.chan s.params.rst).ctrl = rstCtrl s.params)
    (hra : (s.chan s.params.rst).readAddr = .word desc)
    (hwa : (s.chan s.params.rst).writeAddr = .word (chanAddr s.params s.params.pri .writeAddr))
    (hn : (s.chan s.params.rst).countLive = .word 1#32) (hrest : (s.chan s.params.pri).resting)
    (ha : desc.toNat % 4 = 0) (hlo : inRam s.params desc = true) (hhi : inRam s.params (desc + 3#32) = true)
    (hmem : memReadWord s.mem desc = some v) :
    exec (.xfer s.params.rst) s =
      .next ((s.setChan s.params.pri { s.chan s.params.pri with writeAddr := .word v, pend := true }).setChan s.params.rst
        { s.chan s.params.rst with countLive := .word 0#32, busy := false }) := by
  obtain ⟨htreq, hir, hiw, hquiet, hchain⟩ := rstCtrl_fields hp
  rw [← hctrl] at htreq hir hiw hquiet hchain
  have ⟨hpb, hpp⟩ := hrest
  have hpri : s.params.pri < s.ch.length := hlen ▸ hp.pri_lt
  have hreq : s.req s.params.rst = true := req_of_unpaced hp htreq
  have hread : busRead32 (.dma s.params.rst) desc s = .next (v, s) := by
    rw [busRead32_ram _ hp ha hlo hhi, memRead_dma_of_some _ hmem]
  have hwrite : busWrite32 (.dma s.params.rst) (chanAddr s.params s.params.pri .writeAddr) v s =
      .next (s.setChan s.params.pri { s.chan s.params.pri with writeAddr := .word v }) := by
    rw [busWrite32_chanReg _ v hp hp.pri_lt (chanAddr_toNat hp .writeAddr hp.pri_lt)]
    exact chanWrite_of_passed .writeAddr v hp.pri_lt hpb hpp nofun
  have hself := chan_setChan_self s s.params.pri { s.chan s.params.pri with writeAddr := .word v } hpri
  have hcomplete := complete_setChan_of_quiet
    (s := s.setChan s.params.pri { s.chan s.params.pri with writeAddr := .word v })
    (k := { s.chan s.params.rst with countLive := .word (1#32 - 1#32) })
    (by rw [setChan_ch_length, hlen]; exact hp.rst_lt) hquiet hchain hp.pri_ne_rst hself hrest
  rw [exec_xfer_of_write hb hreq hra hwa hn hread hwrite, if_pos rfl, Channel.advanced_of_fixed _ hir hiw hra hwa, hcomplete,
    setChan_comm _ _ _ hp.pri_ne_rst.symm, setChan_setChan]
  rfl

end

end Sys2Proof.Machine
end

section
/-! SUPPORT. A quiescent block (rule R190): its channels are disabled, and what keeps it quiescent. -/

namespace Sys2Proof.Machine

section
variable {s t : State}

/-- Quiescence is about the records and the abort mask. -/
theorem quiescent_of_parts (h : s.quiescent = true) (hch : t.ch = s.ch) (habort : t.abortPending = s.abortPending) :
    t.quiescent = true := by
  rw [State.quiescent, hch, habort]
  exact h

/-- A resting record keeps the block quiescent. -/
theorem quiescent_setChan (h : s.quiescent = true) (c : Nat) {k : Channel} (hk : k.resting) :
    (s.setChan c k).quiescent = true := by
  simp only [State.quiescent, Bool.and_eq_true, List.all_eq_true, Bool.not_eq_true'] at h ⊢
  obtain ⟨hrest, habort⟩ := h
  refine ⟨fun x hx => ?_, habort⟩
  obtain hx | rfl := List.mem_or_eq_of_mem_set hx
  · exact hrest x hx
  · exact hk

/-- A quiescent block enables no step of a channel or of the aborter (rules R153, R158, R182). -/
theorem quiescent_disables (h : s.quiescent = true) :
    (∀ c, s.xferEnabled c = false ∧ s.startEnabled c = false) ∧ s.abortDoneEnabled = false := by
  obtain ⟨habort, hrest⟩ := quiescent_resting h
  refine ⟨fun c => ?_, bne_eq_false_iff_eq.mpr habort⟩
  obtain ⟨hb, hp⟩ := hrest c
  exact ⟨by rw [State.xferEnabled, hb, Bool.false_and], by rw [State.startEnabled, hp, Bool.false_and]⟩

/-- A register write that triggers nothing keeps the block quiescent (rules R126 to R130). -/
theorem quiescent_of_chanWrite {m : Master} {c : Nat} {r : ChanReg} {v : Word} (h : s.quiescent = true)
    (hw : chanWrite m c r v s = .next t) (htrigger : r = .ctrlTrig → v.getLsbD 0 = false) : t.quiescent = true := by
  obtain ⟨-, hb, hp, -, hstore⟩ := chanWrite_eq_next.mp hw
  rcases chanStore_cases hstore with ⟨-, rfl⟩ | ⟨-, rfl⟩ | ⟨-, rfl⟩ | ⟨-, -, rfl⟩ | ⟨hr, -, hen, -⟩
  · exact quiescent_setChan h c ⟨hb, hp⟩
  · exact quiescent_setChan h c ⟨hb, hp⟩
  · exact quiescent_setChan h c ⟨hb, hp⟩
  · exact quiescent_setChan h c ⟨hb, hp⟩
  · rw [ctrlField_en, htrigger hr] at hen
    cases hen

/-- A read by the host keeps the block quiescent if what it reads from does. -/
theorem quiescent_of_deliver {r : Res (Word × State)} (hr : ∀ v u, r = .next (v, u) → u.quiescent = true)
    (hd : deliver r = .next t) : t.quiescent = true := by
  obtain ⟨v, u, e, rfl⟩ := deliver_eq_next.mp hd
  exact quiescent_of_parts (hr v u e) rfl rfl

/-- A read of a register changes nothing (rule R135). -/
theorem quiescent_of_chanRead {c : Nat} {r : ChanReg} (h : s.quiescent = true)
    (hd : deliver (chanRead c r s) = .next t) : t.quiescent = true :=
  quiescent_of_deliver (fun _ _ e => (chanRead_eq_next.mp e).2.2 ▸ h) hd

/-- A bus read touches neither records nor mask (rules R52, R116). -/
theorem quiescent_of_busRead32 {m : Master} {a v : Word} (h : s.quiescent = true) (hr : busRead32 m a s = .next (v, t)) :
    t.quiescent = true := by
  rcases busRead32_cases hr with rfl | ⟨-, _, -, rfl⟩ | ⟨-, rfl, -⟩
  · exact h
  · exact quiescent_of_parts h rfl rfl
  · exact quiescent_of_parts h rfl rfl

/-- A write at an address that is routed to no register writes memory (rule R52). -/
theorem busWrite32_of_routedAsMemory {m : Master} {a v : Word} (ha : routedAsMemory s.params a = true)
    (hw : busWrite32 m a v s = .next t) : t = s.setMem (memWriteWord s.mem a v) := by
  have haligned := busWrite32_aligned hw
  simp only [routedAsMemory, haligned, Bool.not_true, Bool.false_or, Bool.and_eq_true, Bool.not_eq_true', bne_iff_ne] at ha
  obtain ⟨hdma, hfifo⟩ := ha
  simp only [busWrite32, haligned, hdma, hfifo, Bool.not_true, Bool.false_eq_true, if_false] at hw
  split at hw
  · cases hw; rfl
  · cases hw

/-- A sampler's step touches neither records nor mask (rule R123). -/
theorem quiescent_of_samplerStep {i : Instr} (h : s.quiescent = true)
    (hi : i = .sampleHigh ∨ i = .sampleLow ∨ ∃ x, i = .sampleIn x) (hx : exec i s = .next t) : t.quiescent = true := by
  obtain ⟨_, hframe⟩ := samplerStep_frame hi hx
  rw [hframe]
  exact quiescent_of_parts h rfl rfl

/-- Nor does the waveform generator (rule R122). -/
theorem quiescent_of_waveOp {i : Instr} (h : s.quiescent = true) (hi : i = .waveStart ∨ i = .waveStop ∨ i = .waveStep)
    (hx : exec i s = .next t) : t.quiescent = true := by
  have hframe := waveOp_frame hi hx
  rw [hframe]
  exact quiescent_of_parts h rfl rfl

/-- A hardware step that is not enabled keeps the block quiescent (log 9). -/
theorem quiescent_of_disabled {i : Instr} {k : Safety.HwStep} (h : s.quiescent = true) (hi : Safety.hwStepOf i = some k)
    (hen : k.enabled s = false) (hx : exec i s = .next t) : t.quiescent = true := by
  rw [exec_of_disabled hi hen] at hx
  cases hx
  exact h

/-- Every operation but the host's trigger and its write of the abort register keeps the block quiescent. -/
theorem quiescent_of_exec {i : Instr} (h : s.quiescent = true) (hwf : i.wellFormed s.params = true)
    (htrigger : ∀ c v, i = .wrCtrlTrig c v → v.getLsbD 0 = false) (habort : ∀ v, i ≠ .wrAbort v)
    (hx : exec i s = .next t) : t.quiescent = true := by
  obtain ⟨hchan, haborter⟩ := quiescent_disables h
  cases i with
  | wrReadAddr c v => exact quiescent_of_chanWrite h hx nofun
  | wrWriteAddr c v => exact quiescent_of_chanWrite h hx nofun
  | wrTransCount c v => exact quiescent_of_chanWrite h hx nofun
  | wrCtrlTrig c v => exact quiescent_of_chanWrite h hx fun _ => htrigger c v rfl
  | wrCtrl c v => exact quiescent_of_chanWrite h hx nofun
  | rdReadAddr c => exact quiescent_of_chanRead h hx
  | rdWriteAddr c => exact quiescent_of_chanRead h hx
  | rdTransCount c => exact quiescent_of_chanRead h hx
  | rdCtrlTrig c => exact quiescent_of_chanRead h hx
  | rdCtrl c => exact quiescent_of_chanRead h hx
  | wrAbort v => exact absurd rfl (habort v)
  | rdAbort => cases hx; exact quiescent_of_parts h rfl rfl
  | rdFifo =>
    refine quiescent_of_deliver (r := fifoRead s) (fun v u hu => ?_) hx
    obtain ⟨_, -, rfl⟩ := fifoRead_eq_next.mp hu
    exact quiescent_of_parts h rfl rfl
  | wrFifo v => cases hx
  | rdMem a => exact quiescent_of_deliver (fun _ _ hu => quiescent_of_busRead32 h hu) hx
  | wrMem a v =>
    obtain rfl := busWrite32_of_routedAsMemory hwf hx
    exact quiescent_of_parts h rfl rfl
  | samplerStart =>
    simp only [exec, execSamplerStart] at hx
    split at hx <;> cases hx
    · exact h
    · exact quiescent_of_parts h rfl rfl
  | samplerStop => cases hx; exact quiescent_of_parts h rfl rfl
  | waveStart => exact quiescent_of_waveOp h (.inl rfl) hx
  | waveStop => exact quiescent_of_waveOp h (.inr (.inl rfl)) hx
  | xfer c => exact quiescent_of_disabled (k := .xfer c) h rfl (hchan c).1 hx
  | start c => exact quiescent_of_disabled (k := .start c) h rfl (hchan c).2 hx
  | abortDone => exact quiescent_of_disabled (k := .abortDone) h rfl haborter hx
  | sampleHigh => exact quiescent_of_samplerStep h (.inl rfl) hx
  | sampleIn x => exact quiescent_of_samplerStep h (.inr (.inr ⟨x, rfl⟩)) hx
  | sampleLow => exact quiescent_of_samplerStep h (.inr (.inl rfl)) hx
  | waveStep => exact quiescent_of_waveOp h (.inr (.inr rfl)) hx
  | enc =>
    simp only [exec, execEnc] at hx
    split at hx <;> cases hx
    exact quiescent_of_parts h rfl rfl

end

end Sys2Proof.Machine
end

section
/-! The statements of 43_channel_engine.md on one step. -/

namespace Sys2Proof.ChannelEngine

open Machine

/-- Settles O44 (rule R151). -/
theorem requestFollowsTheFifoOrIsUnpaced : Obligations.RequestFollowsTheFifoOrIsUnpaced := fun _ _ hp =>
  ⟨fun htreq => (req_of_sampleTreq htreq).trans List.length_pos_iff.symm, req_of_unpaced hp⟩

/-- Settles O45 (rules R152, R158, R159; log 15): the trigger finds the channel no longer pending and its registers as they
were. -/
theorem startTriggersOrDrops : Obligations.StartTriggersOrDrops := by
  intro s c hlen hc hpend hb
  have hcl : c < s.ch.length := hlen ▸ hc
  have hen : s.startEnabled c = true := startEnabled_iff.mpr ⟨hpend, hb⟩
  have hself := chan_setChan_self s c { s.chan c with pend := false } hcl
  refine ⟨exec_start_of_disabled hen, fun hctrl => ⟨fun ra wa n hra hwa hn => ⟨?_, ?_⟩, fun hunwritten => ?_⟩⟩
  · exact exec_start_of_words hcl hen hctrl hra hwa hn
  · rintro rfl
    rw [exec_start_of_enabled hen hctrl]
    exact trigger_of_zero (.dma c) (by rw [hself]; exact hra) (by rw [hself]; exact hwa) (by rw [hself]; exact hn)
  · rw [exec_start_of_enabled hen hctrl]
    exact trigger_of_unwritten (.dma c) (by rw [hself]; exact hunwritten)

/-- Settles O46 (rules R139, R154, R220): the first part that fails ends the transfer. -/
theorem transferIsReadThenWriteThenCount : Obligations.TransferIsReadThenWriteThenCount := by
  intro s c ra wa n _ _ hb hreq hra hwa hn
  refine ⟨fun r hread => ?_, fun r hread => ?_, fun v u hread => ⟨fun r hwrite => ?_, fun r hwrite => ?_, fun x hwrite => ?_⟩⟩
  · rw [exec_xfer_eq hb hreq hra, hread, andThen_fault]
  · rw [exec_xfer_eq hb hreq hra, hread, andThen_refused]
  · rw [exec_xfer_of_read hb hreq hra hwa hread, hwrite, andThen_fault]
  · rw [exec_xfer_of_read hb hreq hra hwa hread, hwrite, andThen_refused]
  · rw [exec_xfer_of_write hb hreq hra hwa hn hread hwrite]
    refine ⟨fun _ hmore => if_neg hmore, ?_⟩
    rintro rfl
    exact if_pos rfl

/-- Settles O47 (rules R55, R116, R151, R154). -/
theorem fifoWordIsMovedToMemory : Obligations.FifoWordIsMovedToMemory := by
  intro s c v wa n rest hp _ _ hb htreq hra hfifo hwa ha hlo hhi hn _ hmore
  refine ⟨?_, fun b hoff => memByte_memWriteWord_outside s.mem wa v hoff⟩
  exact (exec_xfer_fifo_to_ram hp hb htreq hra hfifo hwa ha hlo hhi hn).trans (if_neg hmore)

/-- Settles O48 (rules R155 to R157, R163). -/
theorem completionChainsAndInterrupts : Obligations.CompletionChainsAndInterrupts := by
  intro s c t hlen hc _ hchain
  have hcl : c < s.ch.length := hlen ▸ hc
  refine ⟨?_, fun hne => complete_of_chain_active hchain hne,
    fun hne hb hp => complete_of_chain_resting hcl hchain hne ⟨hb, hp⟩⟩
  rintro rfl
  exact complete_of_chain_self hcl hchain

/-- Settles O49 (rules R139, R154, R156, R164): `exec_xfer_restart` asks nothing of the abort mask. -/
theorem restartTransferRewritesThePrimaryDestination : Obligations.RestartTransferRewritesThePrimaryDestination := by
  intro s desc v hp hlen hb _ hctrl hra hwa hn hpb hpp ha hlo hhi hmem
  exact exec_xfer_restart hp hlen hb hctrl hra hwa hn ⟨hpb, hpp⟩ ha hlo hhi hmem

/-- Settles O33 (rules R153, R158, R182, R190). -/
theorem quiescentUntilTheHostTriggersOrAborts : Obligations.QuiescentUntilTheHostTriggersOrAborts := by
  intro s _ hq
  obtain ⟨hchan, haborter⟩ := quiescent_disables hq
  exact ⟨hchan, haborter, fun i t hwf hx htrigger habort => quiescent_of_exec hq hwf htrigger habort hx⟩

end Sys2Proof.ChannelEngine
end

section
/-! SUPPORT. The loop of a capture session (rules R198, R199, R201): which steps each phase enables, and the state each of them
leaves. -/

namespace Sys2Proof.Machine

/-! Control words, records and addresses of the loop. -/

/-- The fields of `PRI_CTRL` that its transfers use: paced by the FIFO, only the destination increments, quiet, chained to the
Restart Channel (rule R103). -/
theorem priCtrl_fields {p : Params} (hp : p.Valid) :
    ctrlField (priCtrl p) .treq = p.sampleTreq.toNat ∧ (priCtrl p).getLsbD 4 = false ∧
      (priCtrl p).getLsbD 5 = true ∧ (priCtrl p).getLsbD 21 = true ∧ ctrlField (priCtrl p) .chainTo = p.rst := by
  obtain ⟨-, -, -, hir, hiw, -, -, hchain, htreq, hq⟩ := ctrlField_encPack (encLegal_priCtrlInputs hp)
  rw [ctrlField_incrRead] at hir
  rw [ctrlField_incrWrite] at hiw
  rw [ctrlField_irqQuiet] at hq
  exact ⟨htreq, Bool.toNat_eq_zero.mp hir, Bool.toNat_eq_one.mp hiw, Bool.toNat_eq_one.mp hq, hchain⟩

/-- `RST_CTRL` has `EN = 1`. -/
theorem rstCtrl_enabled {p : Params} (hp : p.Valid) : (rstCtrl p).getLsbD 0 = true := by
  obtain ⟨hen, -⟩ := ctrlField_encPack (encLegal_rstCtrlInputs hp)
  rw [ctrlField_en] at hen
  exact Bool.toNat_eq_one.mp hen

/-- Two records with the configuration the loop keeps of both channels. -/
structure Channel.SameConfig (k k' : Channel) : Prop where
  readAddr : k'.readAddr = k.readAddr
  countReload : k'.countReload = k.countReload
  ctrl : k'.ctrl = k.ctrl

/-- The record of a channel whose control word increments the destination only. -/
theorem Channel.advanced_of_dest {k : Channel} {ra : Word} (wa n : Word) (hir : k.ctrl.getLsbD 4 = false)
    (hiw : k.ctrl.getLsbD 5 = true) (hra : k.readAddr = .word ra) :
    k.advanced ra wa n = { k with writeAddr := .word (wa + 4#32), countLive := .word (n - 1#32) } := by
  rw [advanced, hir, hiw, if_neg Bool.false_ne_true, if_pos rfl, ← hra]

/-- The Primary Channel's destination in phase (a) with `k` of the `n` words left (rule R198). -/
def bufferWord (buf n k : Word) : Word := buf + 4#32 * (n - k)

/-- With all words left it is the origin. -/
theorem bufferWord_all (buf n : Word) : bufferWord buf n n = buf := by simp [bufferWord]

/-- After the word there, one word fewer is left. -/
theorem bufferWord_succ (buf n k : Word) : bufferWord buf n k + 4#32 = bufferWord buf n (k - 1#32) := by
  have hmoved : n - (k - 1#32) = n - k + 1#32 := by bv_omega
  rw [bufferWord, bufferWord, hmoved, BitVec.mul_add, BitVec.add_assoc]
  rfl

/-- It does not wrap (rule R192). -/
theorem bufferWord_toNat {p : Params} {buf n k : Word} (hbuf : BufferInRam p buf n) (hk : 1 ≤ k.toNat)
    (hkn : k.toNat ≤ n.toNat) : (bufferWord buf n k).toNat = buf.toNat + 4 * (n.toNat - k.toNat) := by
  obtain ⟨-, hend, -⟩ := hbuf
  unfold bufferWord
  bv_omega

/-- A word of the buffer is an aligned word of `RAM` (rule R192). -/
theorem bufferWord_ram {p : Params} {buf n wa : Word} (hbuf : BufferInRam p buf n) {j : Nat}
    (hwa : wa.toNat = buf.toNat + 4 * j) (hj : j < n.toNat) :
    wa.toNat % 4 = 0 ∧ inRam p wa = true ∧ inRam p (wa + 3#32) = true := by
  obtain ⟨haligned, hend, hram⟩ := hbuf
  have haligned4 := (aligned_iff buf).mp haligned
  have hlast : (wa + 3#32).toNat = wa.toNat + 3 := by bv_omega
  exact ⟨by omega, hram wa (by omega) (by omega), hram _ (by omega) (by omega)⟩

/-- The descriptor is an aligned word of `RAM` (rule R192). -/
theorem descriptor_ram {p : Params} {buf n desc : Word} (hdesc : DescriptorInRam p buf n desc) :
    desc.toNat % 4 = 0 ∧ inRam p desc = true ∧ inRam p (desc + 3#32) = true := by
  obtain ⟨haligned, hram, -⟩ := hdesc
  have haligned4 := (aligned_iff desc).mp haligned
  have hlast : (desc + 3#32).toNat = desc.toNat + 3 := by bv_omega
  exact ⟨haligned4, hram desc le_rfl (by omega), hram _ (by omega) (by omega)⟩

/-! Steps that no channel or aborter takes. -/

/-- A step of the sampler or of the waveform generator completes, and changes only their own records, the reference output and
the FIFO (rules R108, R109, R111, R121). -/
theorem exec_peripheral (s : State) {i : Instr}
    (hi : i = .sampleHigh ∨ (∃ x, i = .sampleIn x) ∨ i = .sampleLow ∨ i = .waveStep) :
    ∃ x r f w, exec i s = .next { s with sampler := x, ref := r, fifo := f, wave := w } := by
  obtain rfl | ⟨x, rfl⟩ | rfl | rfl := hi
  · by_cases hen : s.sampleHighEnabled = true
    · exact ⟨_, _, _, _, exec_sampleHigh_of_enabled hen⟩
    · exact ⟨_, _, _, _, if_neg hen⟩
  · by_cases hen : s.sampleInEnabled = true
    · by_cases hdue : s.pushDue = true
      · exact ⟨_, _, _, _, exec_sampleIn_of_pushDue x hen hdue⟩
      · exact ⟨_, _, _, _, exec_sampleIn_of_not_pushDue x hen hdue⟩
    · exact ⟨_, _, _, _, if_neg hen⟩
  · by_cases hen : s.sampleLowEnabled = true
    · exact ⟨_, _, _, _, exec_sampleLow_of_enabled hen⟩
    · exact ⟨_, _, _, _, if_neg hen⟩
  · by_cases hen : s.wave.running = true
    · cases hbit : s.params.wavePattern[s.wave.idx]? with
      | none => exact ⟨_, _, _, _, exec_waveStep_of_no_bit hen hbit⟩
      | some b => exact ⟨_, _, _, _, exec_waveStep_of_bit hen hbit⟩
    · exact ⟨_, _, _, _, if_neg hen⟩

/-- The step `i` completes in a state of the loop in phase `ph`, and changes no byte outside the buffer. -/
def LoopStep (i : Instr) (s : State) (ph : LoopPhase) (buf n desc : Word) : Prop :=
  ∃ t, exec i s = .next t ∧ LoopGoodIn ph t buf n desc ∧
    ∀ b, (b < buf.toNat ∨ buf.toNat + 4 * n.toNat ≤ b) → memByte t.mem b = memByte s.mem b

/-- The Primary Channel's record in phase (a) with `k` of the `n` words left (rule R198). -/
def Channel.withLeft (r : Channel) (buf n k : Word) : Channel :=
  { r with writeAddr := .word (bufferWord buf n k), countLive := .word k }

/-- The state after a word `v` has been taken from the FIFO, which `rest` is left of, and stored at `wa` (rules R116, R154). -/
def State.fifoWordStored (s : State) (wa v : Word) (rest : List Word) : State :=
  (s.setFifo rest).setMem (memWriteWord s.mem wa v)

/-- Whether the Primary Channel's transfer, if it is the next step, is its last (rule R198). -/
def State.atLastWord (s : State) : Bool :=
  decide ((s.chan s.params.pri).countLive = .word 1#32) && !s.fifo.isEmpty

namespace LoopGoodIn

variable {s : State} {ph : LoopPhase} {buf n desc : Word}

/-! Updates that keep the loop. -/

theorem pri_lt_length (h : LoopGoodIn ph s buf n desc) : s.params.pri < s.ch.length := h.channels ▸ h.params_valid.pri_lt

theorem rst_lt_length (h : LoopGoodIn ph s buf n desc) : s.params.rst < s.ch.length := h.channels ▸ h.params_valid.rst_lt

/-- Records of the same configuration, in the phase their other registers say. -/
theorem setPair {ph' : LoopPhase} {a b : Channel} (h : LoopGoodIn ph s buf n desc)
    (ha : (s.chan s.params.pri).SameConfig a) (hb : (s.chan s.params.rst).SameConfig b)
    (hdest : b.writeAddr = (s.chan s.params.rst).writeAddr) (hphase : inPhase a b buf n ph') :
    LoopGoodIn ph' ((s.setChan s.params.pri a).setChan s.params.rst b) buf n desc := by
  have hpri : ((s.setChan s.params.pri a).setChan s.params.rst b).chan s.params.pri = a := by
    rw [chan_setChan_ne _ _ _ h.params_valid.pri_ne_rst.symm, chan_setChan_self _ _ _ h.pri_lt_length]
  have hrst : ((s.setChan s.params.pri a).setChan s.params.rst b).chan s.params.rst = b :=
    chan_setChan_self _ _ _ (by rw [setChan_ch_length]; exact h.rst_lt_length)
  have hother {c : Nat} (hnePri : c ≠ s.params.pri) (hneRst : c ≠ s.params.rst) :
      ((s.setChan s.params.pri a).setChan s.params.rst b).chan c = s.chan c := by
    rw [chan_setChan_ne _ _ _ hneRst.symm, chan_setChan_ne _ _ _ hnePri.symm]
  exact { h with
    channels := by rw [setChan_ch_length, setChan_ch_length]; exact h.channels
    pri_ctrl := (congrArg Channel.ctrl hpri).trans (ha.ctrl.trans h.pri_ctrl)
    pri_readAddr := (congrArg Channel.readAddr hpri).trans (ha.readAddr.trans h.pri_readAddr)
    pri_countReload := (congrArg Channel.countReload hpri).trans (ha.countReload.trans h.pri_countReload)
    rst_ctrl := (congrArg Channel.ctrl hrst).trans (hb.ctrl.trans h.rst_ctrl)
    rst_readAddr := (congrArg Channel.readAddr hrst).trans (hb.readAddr.trans h.rst_readAddr)
    rst_writeAddr := (congrArg Channel.writeAddr hrst).trans (hdest.trans h.rst_writeAddr)
    rst_countReload := (congrArg Channel.countReload hrst).trans (hb.countReload.trans h.rst_countReload)
    others := fun c hc hnePri hneRst => by
      rw [hother hnePri hneRst]
      exact h.others c hc hnePri hneRst
    phase := by
      show inPhase (State.chan _ s.params.pri) (State.chan _ s.params.rst) buf n ph'
      rw [hpri, hrst]
      exact hphase }

/-- The same with the Restart Channel's record as it is. -/
theorem setPri {ph' : LoopPhase} {a : Channel} (h : LoopGoodIn ph s buf n desc)
    (ha : (s.chan s.params.pri).SameConfig a) (hphase : inPhase a (s.chan s.params.rst) buf n ph') :
    LoopGoodIn ph' (s.setChan s.params.pri a) buf n desc := by
  have hrst : (s.setChan s.params.pri a).chan s.params.rst = s.chan s.params.rst :=
    chan_setChan_ne _ _ _ h.params_valid.pri_ne_rst
  have hpair := h.setPair ha ⟨rfl, rfl, rfl⟩ rfl hphase
  rwa [← hrst, setChan_chan_self (by rw [setChan_ch_length]; exact h.rst_lt_length)] at hpair

/-- The same with the Primary Channel's record as it is. -/
theorem setRst {ph' : LoopPhase} {b : Channel} (h : LoopGoodIn ph s buf n desc)
    (hb : (s.chan s.params.rst).SameConfig b) (hdest : b.writeAddr = (s.chan s.params.rst).writeAddr)
    (hphase : inPhase (s.chan s.params.pri) b buf n ph') :
    LoopGoodIn ph' (s.setChan s.params.rst b) buf n desc := by
  have hpair := h.setPair ⟨rfl, rfl, rfl⟩ hb hdest hphase
  rwa [setChan_chan_self h.pri_lt_length] at hpair

/-- A word written into the buffer, which the descriptor is disjoint from (rule R192). -/
theorem writeBuffer (h : LoopGoodIn ph s buf n desc) {wa : Word} (v : Word) (hlo : buf.toNat ≤ wa.toNat)
    (hhi : wa.toNat + 4 ≤ buf.toNat + 4 * n.toNat) :
    LoopGoodIn ph (s.setMem (memWriteWord s.mem wa v)) buf n desc := by
  obtain ⟨-, -, hdisjoint⟩ := h.desc_ok
  exact { h with
    descriptor := (memReadWord_memWriteWord_outside s.mem wa v (by omega)).trans h.descriptor }

/-! What each phase enables. -/

/-- In each phase exactly one channel of the pair is active (rule R198). -/
theorem activity (h : LoopGoodIn ph s buf n desc) :
    ((s.chan s.params.pri).busy = true ↔ ph = .capturing) ∧ ((s.chan s.params.rst).pend = true ↔ ph = .chainToRestart) ∧
      ((s.chan s.params.rst).busy = true ↔ ph = .restarting) ∧
      ((s.chan s.params.pri).pend = true ↔ ph = .chainToPrimary) := by
  have hphase := h.phase
  cases ph with
  | capturing => obtain ⟨hb, hp, ⟨hb', hp'⟩, -⟩ := hphase; simp [hb, hp, hb', hp']
  | chainToRestart => obtain ⟨⟨hb, hp⟩, hb', hp', -⟩ := hphase; simp [hb, hp, hb', hp']
  | restarting => obtain ⟨⟨hb, hp⟩, hb', hp', -⟩ := hphase; simp [hb, hp, hb', hp']
  | chainToPrimary => obtain ⟨hb, hp, ⟨hb', hp'⟩, -⟩ := hphase; simp [hb, hp, hb', hp']

/-- Of the other channels none is active (rule R192). -/
theorem busy_cases (h : LoopGoodIn ph s buf n desc) {c : Nat} (hc : c < s.params.nch) (hb : (s.chan c).busy = true) :
    (ph = .capturing ∧ c = s.params.pri) ∨ (ph = .restarting ∧ c = s.params.rst) := by
  obtain ⟨hpriBusy, -, hrstBusy, -⟩ := h.activity
  by_cases hpri : c = s.params.pri
  · subst hpri
    exact .inl ⟨hpriBusy.mp hb, rfl⟩
  by_cases hrst : c = s.params.rst
  · subst hrst
    exact .inr ⟨hrstBusy.mp hb, rfl⟩
  obtain ⟨hidle, -⟩ := h.others c hc hpri hrst
  rw [hidle] at hb
  cases hb

/-- Nor is another pending. -/
theorem pend_cases (h : LoopGoodIn ph s buf n desc) {c : Nat} (hc : c < s.params.nch) (hpend : (s.chan c).pend = true) :
    (ph = .chainToRestart ∧ c = s.params.rst) ∨ (ph = .chainToPrimary ∧ c = s.params.pri) := by
  obtain ⟨-, hrstPend, -, hpriPend⟩ := h.activity
  by_cases hrst : c = s.params.rst
  · subst hrst
    exact .inl ⟨hrstPend.mp hpend, rfl⟩
  by_cases hpri : c = s.params.pri
  · subst hpri
    exact .inr ⟨hpriPend.mp hpend, rfl⟩
  obtain ⟨-, hidle, -⟩ := h.others c hc hpri hrst
  rw [hidle] at hpend
  cases hpend

/-- The Primary Channel's control word in the loop. -/
theorem pri_fields (h : LoopGoodIn ph s buf n desc) :
    ctrlField (s.chan s.params.pri).ctrl .treq = s.params.sampleTreq.toNat ∧
      (s.chan s.params.pri).ctrl.getLsbD 4 = false ∧ (s.chan s.params.pri).ctrl.getLsbD 5 = true ∧
      (s.chan s.params.pri).ctrl.getLsbD 21 = true ∧ ctrlField (s.chan s.params.pri).ctrl .chainTo = s.params.rst := by
  rw [h.pri_ctrl]
  exact priCtrl_fields h.params_valid

/-- In phase (a) the Primary Channel's transfer waits on the FIFO only (rules R151, R153). -/
theorem xferEnabled_pri (h : LoopGoodIn .capturing s buf n desc) : s.xferEnabled s.params.pri = true ↔ s.fifo ≠ [] := by
  obtain ⟨htreq, -⟩ := h.pri_fields
  have hb : (s.chan s.params.pri).busy = true := h.activity.1.mpr rfl
  rw [State.xferEnabled, hb, Bool.true_and]
  exact req_of_sampleTreq htreq

/-- In phase (b) the Restart Channel starts (rule R158). -/
theorem startEnabled_rst (h : LoopGoodIn .chainToRestart s buf n desc) : s.startEnabled s.params.rst = true := by
  obtain ⟨-, hb, hp, -⟩ := h.phase
  exact startEnabled_iff.mpr ⟨hp, hb⟩

/-- In phase (c) the Restart Channel's transfer waits on nothing (rules R151, R153). -/
theorem xferEnabled_rst (h : LoopGoodIn .restarting s buf n desc) : s.xferEnabled s.params.rst = true := by
  obtain ⟨htreq, -⟩ := rstCtrl_fields h.params_valid
  obtain ⟨-, hb, -⟩ := h.phase
  exact Bool.and_eq_true_iff.mpr ⟨hb, req_of_unpaced h.params_valid (by rw [h.rst_ctrl]; exact htreq)⟩

/-- In phase (d) the Primary Channel starts (rule R158). -/
theorem startEnabled_pri (h : LoopGoodIn .chainToPrimary s buf n desc) : s.startEnabled s.params.pri = true := by
  obtain ⟨hb, hp, -⟩ := h.phase
  exact startEnabled_iff.mpr ⟨hp, hb⟩

/-! The steps of the loop. -/

/-- A step that is not enabled holds, and leaves no phase (log 9). -/
theorem loopStep_of_disabled (h : LoopGoodIn ph s buf n desc) {i : Instr} {k : Safety.HwStep}
    (hi : Safety.hwStepOf i = some k) (hen : k.enabled s = false) :
    LoopStep i s (ph.after s.params s.atLastWord i) buf n desc := by
  have hsame : ph.after s.params s.atLastWord i = ph := by
    cases ph with
    | capturing =>
      refine if_neg ?_
      rintro ⟨rfl, hlast⟩
      cases hi
      refine Bool.eq_false_iff.mp hen (h.xferEnabled_pri.mpr fun hempty => ?_)
      rw [State.atLastWord, hempty, List.isEmpty_nil, Bool.not_true, Bool.and_false] at hlast
      cases hlast
    | chainToRestart =>
      refine if_neg ?_
      rintro rfl
      cases hi
      exact Bool.eq_false_iff.mp hen h.startEnabled_rst
    | restarting =>
      refine if_neg ?_
      rintro rfl
      cases hi
      exact Bool.eq_false_iff.mp hen h.xferEnabled_rst
    | chainToPrimary =>
      refine if_neg ?_
      rintro rfl
      cases hi
      exact Bool.eq_false_iff.mp hen h.startEnabled_pri
  rw [hsame]
  exact ⟨s, exec_of_disabled hi hen, h, fun _ _ => rfl⟩

/-- The steps of the sampler and of the waveform generator leave no phase. -/
theorem loopStep_peripheral (h : LoopGoodIn ph s buf n desc) {i : Instr}
    (hi : i = .sampleHigh ∨ (∃ x, i = .sampleIn x) ∨ i = .sampleLow ∨ i = .waveStep) :
    LoopStep i s (ph.after s.params s.atLastWord i) buf n desc := by
  have hsame : ph.after s.params s.atLastWord i = ph := by
    obtain rfl | ⟨x, rfl⟩ | rfl | rfl := hi <;> cases ph <;> simp [LoopPhase.after]
  obtain ⟨x, r, f, w, hx⟩ := exec_peripheral s hi
  rw [hsame]
  exact ⟨_, hx, { h with }, fun _ _ => rfl⟩

section
variable {v k : Word} {rest : List Word} (h : LoopGoodIn .capturing s buf n desc)
  (hk : (s.chan s.params.pri).countLive = .word k)
include h hk

/-- In phase (a) the count is in its range and the destination follows from it. -/
theorem capturing_count : 1 ≤ k.toNat ∧ k.toNat ≤ n.toNat ∧
    (s.chan s.params.pri).writeAddr = .word (bufferWord buf n k) := by
  obtain ⟨-, -, -, k', hk', hk1, hkn, hwa⟩ := h.phase
  rw [hk] at hk'
  cases hk'
  exact ⟨hk1, hkn, hwa⟩

/-- The word the Primary Channel writes lies in the buffer. -/
theorem capturing_dest : buf.toNat ≤ (bufferWord buf n k).toNat ∧
    (bufferWord buf n k).toNat + 4 ≤ buf.toNat + 4 * n.toNat := by
  obtain ⟨hk1, hkn, -⟩ := h.capturing_count hk
  have haddr := bufferWord_toNat h.buf_ok hk1 hkn
  omega

/-- The store of that word, taken from the FIFO, keeps the loop. -/
theorem fifoWordStored : LoopGoodIn .capturing (s.fifoWordStored (bufferWord buf n k) v rest) buf n desc := by
  obtain ⟨hlo, hhi⟩ := h.capturing_dest hk
  have hpopped : LoopGoodIn .capturing (s.setFifo rest) buf n desc := { h with }
  exact hpopped.writeBuffer v hlo hhi

/-- It changes no byte outside the buffer. -/
theorem memByte_fifoWordStored {b : Nat} (hoff : b < buf.toNat ∨ buf.toNat + 4 * n.toNat ≤ b) :
    memByte (s.fifoWordStored (bufferWord buf n k) v rest).mem b = memByte s.mem b := by
  obtain ⟨hlo, hhi⟩ := h.capturing_dest hk
  exact memByte_memWriteWord_outside _ _ _ (by omega)

/-- The Primary Channel's transfer stores the word, and its destination moves on to the next (rules R116, R154). -/
theorem exec_xfer_pri (hfifo : s.fifo = v :: rest) :
    exec (.xfer s.params.pri) s =
      if k = 1#32 then complete s.params.pri ((s.fifoWordStored (bufferWord buf n k) v rest).setChan s.params.pri
        ((s.chan s.params.pri).withLeft buf n (k - 1#32)))
      else .next ((s.fifoWordStored (bufferWord buf n k) v rest).setChan s.params.pri
        ((s.chan s.params.pri).withLeft buf n (k - 1#32))) := by
  obtain ⟨htreq, hir, hiw, -⟩ := h.pri_fields
  obtain ⟨hb, -⟩ := h.phase
  obtain ⟨hk1, hkn, hwa⟩ := h.capturing_count hk
  obtain ⟨haligned, hlo, hhi⟩ := bufferWord_ram h.buf_ok (bufferWord_toNat h.buf_ok hk1 hkn) (by omega)
  have hmoved := exec_xfer_fifo_to_ram h.params_valid hb htreq h.pri_readAddr hfifo hwa haligned hlo hhi hk
  rw [Channel.advanced_of_dest _ _ hir hiw h.pri_readAddr, bufferWord_succ] at hmoved
  exact hmoved

end

/-- Phase (a): a word moves from the FIFO into the buffer, and the last one chains to the Restart Channel. -/
theorem loopStep_xfer_pri (h : LoopGoodIn .capturing s buf n desc) (hfifo : s.fifo ≠ []) :
    LoopStep (.xfer s.params.pri) s (LoopPhase.after s.params s.atLastWord (.xfer s.params.pri) .capturing) buf n desc := by
  obtain ⟨v, rest, hfifo⟩ := List.exists_cons_of_ne_nil hfifo
  obtain ⟨-, -, -, hquiet, hchain⟩ := h.pri_fields
  obtain ⟨hb, hp, hrest, k, hk, hk1, hkn, -⟩ := h.phase
  have hmoved := h.exec_xfer_pri hk hfifo
  have hstored := h.fifoWordStored (v := v) (rest := rest) hk
  have houtside (b : Nat) := h.memByte_fifoWordStored (v := v) (rest := rest) hk (b := b)
  by_cases hlast : k = 1#32
  · subst hlast
    have hafter : LoopPhase.after s.params s.atLastWord (.xfer s.params.pri) .capturing = .chainToRestart :=
      if_pos ⟨rfl, by simp [State.atLastWord, hk, hfifo]⟩
    have hcomplete := complete_setChan_of_quiet (s := s.fifoWordStored (bufferWord buf n 1#32) v rest)
      (k := (s.chan s.params.pri).withLeft buf n (1#32 - 1#32)) h.pri_lt_length hquiet hchain
      h.params_valid.pri_ne_rst.symm rfl hrest
    rw [if_pos rfl, hcomplete] at hmoved
    rw [hafter]
    refine ⟨_, hmoved, hstored.setPair ⟨rfl, rfl, rfl⟩ ⟨rfl, rfl, rfl⟩ rfl ?_, houtside⟩
    exact ⟨⟨rfl, hp⟩, hrest.1, rfl, by simp [Channel.withLeft, bufferWord]⟩
  · have hafter : LoopPhase.after s.params s.atLastWord (.xfer s.params.pri) .capturing = .capturing :=
      if_neg (by simp [State.atLastWord, hk, hlast])
    rw [if_neg hlast] at hmoved
    rw [hafter]
    refine ⟨_, hmoved, hstored.setPri ⟨rfl, rfl, rfl⟩ ?_, houtside⟩
    exact ⟨hb, hp, hrest, k - 1#32, rfl, by bv_omega, by bv_omega, rfl⟩

/-- Phase (b): the Restart Channel starts with its one word. -/
theorem loopStep_start_rst (h : LoopGoodIn .chainToRestart s buf n desc) :
    LoopStep (.start s.params.rst) s (LoopPhase.after s.params s.atLastWord (.start s.params.rst) .chainToRestart)
      buf n desc := by
  obtain ⟨hrest, hb, hp, hwa⟩ := h.phase
  have hstarted := exec_start_of_words h.rst_lt_length h.startEnabled_rst
    (by rw [h.rst_ctrl]; exact rstCtrl_enabled h.params_valid) h.rst_readAddr h.rst_writeAddr h.rst_countReload (by decide)
  have hloop : LoopGoodIn .restarting (s.setChan s.params.rst
      { s.chan s.params.rst with pend := false, countLive := .word 1#32, busy := true }) buf n desc :=
    h.setRst ⟨rfl, rfl, rfl⟩ rfl ⟨hrest, rfl, rfl, rfl, hwa⟩
  rw [LoopPhase.after, if_pos rfl]
  exact ⟨_, hstarted, { hloop with }, fun _ _ => rfl⟩

/-- Phase (c): the Restart Channel rewrites the destination with the descriptor's word, the buffer's origin. -/
theorem loopStep_xfer_rst (h : LoopGoodIn .restarting s buf n desc) :
    LoopStep (.xfer s.params.rst) s (LoopPhase.after s.params s.atLastWord (.xfer s.params.rst) .restarting)
      buf n desc := by
  obtain ⟨hrest, hb, hp, hn, -⟩ := h.phase
  obtain ⟨haligned, hlo, hhi⟩ := descriptor_ram h.desc_ok
  have hrewritten := exec_xfer_restart h.params_valid h.channels hb h.rst_ctrl h.rst_readAddr h.rst_writeAddr hn hrest
    haligned hlo hhi h.descriptor
  rw [LoopPhase.after, if_pos rfl]
  refine ⟨_, hrewritten, h.setPair ⟨rfl, rfl, rfl⟩ ⟨rfl, rfl, rfl⟩ rfl ?_, fun _ _ => rfl⟩
  exact ⟨hrest.1, rfl, ⟨rfl, hp⟩, rfl⟩

/-- Phase (d): the Primary Channel starts again, with `N` words left. -/
theorem loopStep_start_pri (h : LoopGoodIn .chainToPrimary s buf n desc) :
    LoopStep (.start s.params.pri) s (LoopPhase.after s.params s.atLastWord (.start s.params.pri) .chainToPrimary)
      buf n desc := by
  obtain ⟨hb, hp, hrest, hwa⟩ := h.phase
  have hcount : 1 ≤ n.toNat := h.count_ok
  have hstarted := exec_start_of_words h.pri_lt_length h.startEnabled_pri
    (by rw [h.pri_ctrl]; exact priCtrl_enabled h.params_valid) h.pri_readAddr hwa h.pri_countReload
    (by rintro rfl; exact Nat.not_succ_le_zero 0 hcount)
  have hloop : LoopGoodIn .capturing (s.setChan s.params.pri
      { s.chan s.params.pri with pend := false, countLive := .word n, busy := true }) buf n desc := by
    refine h.setPri ⟨rfl, rfl, rfl⟩ ⟨rfl, rfl, hrest, n, rfl, hcount, le_rfl, ?_⟩
    exact hwa.trans (congrArg RegVal.word (bufferWord_all buf n).symm)
  rw [LoopPhase.after, if_pos rfl]
  exact ⟨_, hstarted, { hloop with }, fun _ _ => rfl⟩

/-- Every step of a hardware agent completes in the loop, in the phase rule R198 gives, and writes only the buffer. -/
theorem loopStep (h : LoopGoodIn ph s buf n desc) {i : Instr} (hi : Safety.hwStepOf i ≠ none)
    (hwf : i.wellFormed s.params = true) : LoopStep i s (ph.after s.params s.atLastWord i) buf n desc := by
  cases i with
  | xfer c =>
    cases hen : s.xferEnabled c with
    | false => exact h.loopStep_of_disabled (k := .xfer c) rfl hen
    | true =>
      obtain ⟨hb, -⟩ := Bool.and_eq_true_iff.mp hen
      obtain ⟨rfl, rfl⟩ | ⟨rfl, rfl⟩ := h.busy_cases (of_decide_eq_true hwf) hb
      · exact h.loopStep_xfer_pri (h.xferEnabled_pri.mp hen)
      · exact h.loopStep_xfer_rst
  | start c =>
    cases hen : s.startEnabled c with
    | false => exact h.loopStep_of_disabled (k := .start c) rfl hen
    | true =>
      obtain ⟨hp, -⟩ := startEnabled_iff.mp hen
      obtain ⟨rfl, rfl⟩ | ⟨rfl, rfl⟩ := h.pend_cases (of_decide_eq_true hwf) hp
      · exact h.loopStep_start_rst
      · exact h.loopStep_start_pri
  | abortDone => exact h.loopStep_of_disabled (k := .abortDone) rfl (bne_eq_false_iff_eq.mpr h.no_abort)
  | sampleHigh => exact h.loopStep_peripheral (.inl rfl)
  | sampleIn x => exact h.loopStep_peripheral (.inr (.inl ⟨x, rfl⟩))
  | sampleLow => exact h.loopStep_peripheral (.inr (.inr (.inl rfl)))
  | waveStep => exact h.loopStep_peripheral (.inr (.inr (.inr rfl)))
  | _ => exact absurd rfl hi

end LoopGoodIn

end Sys2Proof.Machine
end

section
/-! The statements of 43_channel_engine.md on the loop. -/

namespace Sys2Proof.ChannelEngine

open Machine

/-- Settles O55 (rules R152, R154 to R156, R158, R164, R198, R199). -/
theorem hardwareStepsKeepTheLoop : Obligations.HardwareStepsKeepTheLoop := by
  intro s buf n desc ph i h hi hwf
  obtain ⟨t, hx, hloop, -⟩ := h.loopStep hi hwf
  exact ⟨t, hx, hloop⟩

/-- Settles O56 (rules R154, R155, R164, R201). -/
theorem hardwareStepsWriteOnlyTheBuffer : Obligations.HardwareStepsWriteOnlyTheBuffer := by
  intro s t buf n desc ph i b h hi hwf hx houtside
  obtain ⟨u, hu, -, hkept⟩ := h.loopStep hi hwf
  rw [hx] at hu
  cases hu
  exact hkept b houtside

end Sys2Proof.ChannelEngine
end

section
/-! SUPPORT. The abort-control register and the completion of aborts (rules R180 to R185): which bits the mask of existing
channels has, what the bus does at the register's address, and the records `ABORT_DONE` leaves. -/

namespace Sys2Proof.Machine

/-! The abort-control register. -/

/-- The mask of existing channels has exactly their bits (rule R180). -/
theorem chanMask_getLsbD {p : Params} (hp : p.Valid) (c : Nat) : (chanMask p).getLsbD c = decide (c < p.nch) := by
  have hnch := hp.nch_le
  rw [chanMask, BitVec.getLsbD_ofNat, Nat.testBit_two_pow_sub_one, Bool.and_eq_right_iff_imp, decide_eq_true_eq,
    decide_eq_true_eq]
  omega

/-- A read at the abort register's address reads it, for every master (rules R77, R139, R181). -/
theorem busRead32_abort {s : State} {a : Word} (m : Master) (hp : s.params.Valid)
    (ha : a.toNat = s.params.dmaBase.toNat + 0x444) : busRead32 m a s = abortRead s :=
  busRead32_of_offset m hp ha (by decide) rfl

/-- A write at the abort register's address writes it, for every master (rules R77, R139, R180, R189). -/
theorem busWrite32_abort {s : State} {a : Word} (m : Master) (v : Word) (hp : s.params.Valid)
    (ha : a.toNat = s.params.dmaBase.toNat + 0x444) : busWrite32 m a v s = abortWrite v s :=
  busWrite32_of_offset m v hp ha (by decide) rfl

/-! The completion of aborts. -/

/-- An aborted channel that was busy stops, with its addresses and live count drawn (rule R184). -/
theorem abortedAs_of_busy {k k' : Channel} (h : abortedAs k k') (hb : k.busy = true) : ∃ x y z : Word, k' = { k with
    busy := false, pend := false, readAddr := .word x, writeAddr := .word y, countLive := .word z } := by
  obtain ⟨-, hk⟩ | ⟨hidle, -⟩ := h
  · exact hk
  · rw [hb] at hidle; cases hidle

/-- An aborted channel that was not busy loses its pending trigger only (rule R182; log 27). -/
theorem abortedAs_of_not_busy {k k' : Channel} (h : abortedAs k k') (hb : k.busy = false) :
    k' = { k with pend := false } := by
  obtain ⟨hbusy, -⟩ | ⟨-, hk⟩ := h
  · rw [hb] at hbusy; cases hbusy
  · exact hk

/-- An aborted channel rests (rule R182). -/
theorem abortedAs_resting {k k' : Channel} (h : abortedAs k k') : k'.resting := by
  obtain ⟨-, _, _, _, rfl⟩ | ⟨hb, rfl⟩ := h
  · exact ⟨rfl, rfl⟩
  · exact ⟨hb, rfl⟩

/-- `ABORT_DONE` with an abort pending clears the mask and aborts its channels; every other record and, but for the number of
draws, the rest of the state is as before (rules R182, R184, R185, R188). -/
theorem exec_abortDone_of_pending {s : State} (hlen : s.ch.length = s.params.nch) (hpending : s.abortPending ≠ 0#32) :
    ∃ l n, exec .abortDone s = .next { s with ch := l, abortPending := 0#32, draws := n } ∧ l.length = s.ch.length ∧
      (∀ c, s.abortBit c = false → l.getD c Channel.reset = s.chan c) ∧
      (∀ c, c < s.params.nch → s.abortBit c = true → abortedAs (s.chan c) (l.getD c Channel.reset)) := by
  obtain ⟨l, n, haborted, hl, hother, hmask⟩ := abortChannels_spec (List.range s.params.nch) s List.nodup_range
    fun c hc => hlen ▸ List.mem_range.mp hc
  refine ⟨l, n, ?_, hl, fun c hbit => hother c (.inr hbit), fun c hc hbit => hmask c (List.mem_range.mpr hc) hbit⟩
  have hexec : exec .abortDone s = .next ((abortChannels (List.range s.params.nch) s).setAbortPending 0#32) :=
    if_pos (bne_iff_ne.mpr hpending)
  rw [hexec, haborted]
  rfl

/-- A block whose channels all rest, with no abort pending, is quiescent (rule R190). -/
theorem quiescent_of_resting {s : State} (habort : s.abortPending = 0#32)
    (hrest : ∀ c, c < s.ch.length → (s.chan c).resting) : s.quiescent = true := by
  simp only [State.quiescent, Bool.and_eq_true, List.all_eq_true, Bool.not_eq_true', beq_iff_eq]
  refine ⟨fun k hk => ?_, habort⟩
  obtain ⟨c, hc, rfl⟩ := List.mem_iff_getElem.mp hk
  rw [← List.getD_eq_getElem _ Channel.reset hc]
  exact hrest c hc

end Sys2Proof.Machine
end

section
/-! The statements of 44_abort.md. -/

namespace Sys2Proof.Abort

open Machine

/-- Settles O29 (rules R180, R189). -/
theorem abortWriteAddsTheMask : Obligations.AbortWriteAddsTheMask := by
  intro s m a v hp ha
  refine ⟨s.abortPending ||| (v &&& chanMask s.params), rfl, busWrite32_abort m v hp ha, fun c => ?_⟩
  rw [BitVec.getLsbD_or, BitVec.getLsbD_and, chanMask_getLsbD hp]

/-- Settles O31 (rules R182, R184, R185, R188). -/
theorem abortDoneStopsTheChannelsOfTheMask : Obligations.AbortDoneStopsTheChannelsOfTheMask := by
  intro s hlen hpending
  obtain ⟨l, n, hx, hl, hother, haborted⟩ := exec_abortDone_of_pending hlen hpending
  exact ⟨l, n, hx, hl, fun c hc => ⟨hother c, fun hbit => abortedAs_of_not_busy (haborted c hc hbit),
    fun hbit => abortedAs_of_busy (haborted c hc hbit)⟩⟩

/-- Settles O32 (rules R182, R183, R190): a channel of the mask is aborted and so rests, and the others rested before. -/
theorem abortOfAllActiveChannelsQuiesces : Obligations.AbortOfAllActiveChannelsQuiesces := by
  intro s hlen hpending hactive
  obtain ⟨l, n, hx, hl, hother, haborted⟩ := exec_abortDone_of_pending hlen hpending
  refine ⟨_, hx, quiescent_of_resting rfl fun c hc => ?_⟩
  have hnch : c < s.params.nch := hlen ▸ hl ▸ hc
  change (l.getD c Channel.reset).resting
  cases hbit : s.abortBit c with
  | true => exact abortedAs_resting (haborted c hnch hbit)
  | false =>
    have hidle : ¬((s.chan c).busy = true ∨ (s.chan c).pend = true) :=
      fun h => Bool.false_ne_true (hbit.symm.trans (hactive c hnch h))
    rw [hother c hbit]
    simpa only [Channel.resting, not_or, Bool.not_eq_true] using hidle

/-- Settles O30 (rule R181; log 12). -/
theorem abortReadReturnsTheMask : Obligations.AbortReadReturnsTheMask := fun _ m _ hp ha =>
  ⟨busRead32_abort m hp ha, rfl⟩

end Sys2Proof.Abort
end

section
/-! SUPPORT. The polls of the host program (rules R85, R191, R203, R232): what a read of the abort register leaves, what the
bounded poll does with the value read, and a turn at either poll. -/

namespace Sys2Proof.Machine

/-- A host program's read of the abort register completes with the pending mask as the value read (rule R181; log 12). -/
theorem hostRead_abort {s : State} {v : Word} (h : s.abortPending = v) :
    hostRead .abort s = .next (s.setHostValue (some v)) := by
  subst h; rfl

/-- A value that was read is kept as the newest value of the temporary. -/
theorem keepValue_of_read {s : State} {v : Word} (t : Nat) (h : s.hostValue = some v) :
    s.keepValue t = s.assignTemp t v := by
  rw [State.keepValue, h]

/-- A bounded poll that read 0 is over (rule R203). -/
theorem afterBoundedRead_zero {s : State} (k t : Nat) (r : HostReg) (rest : List HostForm)
    (h : s.hostValue = some 0#32) : s.afterBoundedRead k t r rest = s.hostGoto rest :=
  if_pos h

/-- A bounded poll that read nonzero with reads left stays (rule R203). -/
theorem afterBoundedRead_again {s : State} {k : Nat} (t : Nat) (r : HostReg) (rest : List HostForm)
    (h : s.hostValue ≠ some 0#32) (hk : 0 < k) :
    s.afterBoundedRead k t r rest = s.hostGoto (.pollzWithin k t r :: rest) := by
  obtain ⟨j, rfl⟩ := Nat.exists_eq_add_one.mpr hk
  exact if_neg h

/-- A bounded poll whose last read was nonzero ends the program (rules R203, R232). -/
theorem afterBoundedRead_last {s : State} (t : Nat) (r : HostReg) (rest : List HostForm)
    (h : s.hostValue ≠ some 0#32) : s.afterBoundedRead 0 t r rest = s.hostTimeout :=
  if_neg h

/-- A turn of a program that has not ended runs its next form (rule R191). -/
theorem hostTurn_cons {s : State} {f : HostForm} {rest : List HostForm} (hprog : s.host.prog = f :: rest) :
    hostTurn s = runForm f rest s := by
  simp only [hostTurn, hprog]

/-- A turn at a poll that reads 0 goes on with the forms after it (rule R191). -/
theorem hostTurn_pollz_zero {s u : State} {r : HostReg} {rest : List HostForm} (hprog : s.host.prog = .pollz r :: rest)
    (hread : hostRead r s = .next u) (hvalue : u.hostValue = some 0#32) : hostTurn s = .next (u.hostGoto rest) := by
  rw [hostTurn_cons hprog, runForm, hread, andThen_next, if_pos hvalue]

/-- A turn at a poll that reads nonzero leaves what the read left (rule R191; log 32). -/
theorem hostTurn_pollz_again {s u : State} {r : HostReg} {rest : List HostForm} (hprog : s.host.prog = .pollz r :: rest)
    (hread : hostRead r s = .next u) (hvalue : u.hostValue ≠ some 0#32) : hostTurn s = .next u := by
  rw [hostTurn_cons hprog, runForm, hread, andThen_next, if_neg hvalue]

/-- A turn at a bounded poll whose read completes with the value `v`: the temporary takes `v`, and the poll goes by it
(rule R203). -/
theorem hostTurn_pollzWithin {s u : State} {k t : Nat} {r : HostReg} {v : Word} {rest : List HostForm}
    (hprog : s.host.prog = .pollzWithin (k + 1) t r :: rest) (hread : hostRead r s = .next u)
    (hvalue : u.hostValue = some v) : hostTurn s = .next ((u.assignTemp t v).afterBoundedRead k t r rest) := by
  rw [hostTurn_cons hprog, runForm, hread, andThen_next, keepValue_of_read t hvalue]

end Sys2Proof.Machine
end

section
/-! The statements of 45_capture_protocols.md on the polls of `ABORT`. -/

namespace Sys2Proof.CaptureProtocols

open Machine

/-- Settles O7 (rules R181, R191; log 12, log 20, log 32): the value read is the pending mask. -/
theorem pollEndsAtTheFirstZero : Obligations.PollEndsAtTheFirstZero := fun _ _ hprog =>
  ⟨fun hzero => hostTurn_pollz_zero hprog (hostRead_abort hzero) rfl,
    fun hpending => hostTurn_pollz_again hprog (hostRead_abort rfl) (mt Option.some.inj hpending)⟩

/-- Settles O58 (rules R203, R232; log 12, log 20, log 21): the value read is the pending mask, and when it is not 0 the reads
left decide. -/
theorem boundedPollTimesOutAtItsLastRead : Obligations.BoundedPollTimesOutAtItsLastRead := by
  intro s k t rest hprog
  refine ⟨fun hzero => ?_, fun hpending hk => ?_, fun hpending hk => ?_⟩
  · rw [hostTurn_pollzWithin hprog (hostRead_abort hzero) rfl, afterBoundedRead_zero k t .abort rest rfl]
    rfl
  · rw [hostTurn_pollzWithin hprog (hostRead_abort rfl) rfl,
      afterBoundedRead_again t .abort rest (mt Option.some.inj hpending) hk]
    rfl
  · subst hk
    rw [hostTurn_pollzWithin hprog (hostRead_abort rfl) rfl,
      afterBoundedRead_last t .abort rest (mt Option.some.inj hpending)]
    rfl

end Sys2Proof.CaptureProtocols
end

section
/-! SUPPORT. Completion interrupts (rules R29, R163, R223): of the shared operations only a completion writes the interrupt bit of
a record, and it sets it. -/

namespace Sys2Proof.Machine

/-- Every completion interrupt set in `s` is set in `t`. -/
def State.InterruptsStay (s t : State) : Prop := ∀ d, (s.chan d).irq = true → (t.chan d).irq = true

namespace State.InterruptsStay

theorem of_ch {s t : State} (h : t.ch = s.ch) : s.InterruptsStay t := fun d hirq => by
  rw [State.chan, h]
  exact hirq

theorem refl (s : State) : s.InterruptsStay s := of_ch rfl

theorem trans {s t u : State} (h : s.InterruptsStay t) (g : t.InterruptsStay u) : s.InterruptsStay u := fun d hirq =>
  g d (h d hirq)

theorem setChan (s : State) (c : Nat) (k : Channel) (h : (s.chan c).irq = true → k.irq = true) :
    s.InterruptsStay (s.setChan c k) := fun d hirq => by
  rcases chan_setChan_cases s c k d with ⟨rfl, e⟩ | e <;> rw [e]
  · exact h hirq
  · exact hirq

theorem trigger {m : Master} {c : Nat} {s t : State} (h : Machine.trigger m c s = .next t) : s.InterruptsStay t := by
  obtain ⟨_, buf, n, -, -, -, -, rfl⟩ := trigger_eq_next.mp h
  have hstarted : s.InterruptsStay (s.setChan c { s.chan c with countLive := .word n, busy := true }) := setChan s c _ id
  exact hstarted.trans (of_ch (noteSession_ch _ m c buf n))

theorem chanWrite {m : Master} {c : Nat} {r : ChanReg} {v : Word} {s t : State}
    (h : Machine.chanWrite m c r v s = .next t) : s.InterruptsStay t := by
  obtain ⟨-, -, -, -, hstore⟩ := chanWrite_eq_next.mp h
  rcases chanStore_cases hstore with ⟨-, rfl⟩ | ⟨-, rfl⟩ | ⟨-, rfl⟩ | ⟨-, -, rfl⟩ | ⟨-, -, -, ht⟩
  · exact setChan s c _ id
  · exact setChan s c _ id
  · exact setChan s c _ id
  · exact setChan s c _ id
  · have hstored : s.InterruptsStay (s.setChan c { s.chan c with ctrl := v }) := setChan s c _ id
    exact hstored.trans (trigger ht)

theorem busRead32 {m : Master} {a v : Word} {s t : State} (h : Machine.busRead32 m a s = .next (v, t)) :
    s.InterruptsStay t := by
  obtain ⟨hch, -, -⟩ := busRead32_keeps h
  exact of_ch hch

theorem busWrite32 {m : Master} {a v : Word} {s t : State} (h : Machine.busWrite32 m a v s = .next t) :
    s.InterruptsStay t := by
  rcases busWrite32_cases h with rfl | ⟨_, _, -, -, hw⟩ | ⟨-, -, rfl⟩
  · exact of_ch rfl
  · exact chanWrite hw
  · exact of_ch rfl

/-- The one update of an interrupt bit sets it (rule R163). -/
theorem raiseIrq (c : Nat) (s : State) : s.InterruptsStay (Machine.raiseIrq c s) := by
  rcases raiseIrq_cases c s with e | e <;> rw [e]
  · exact refl s
  · exact setChan s c _ fun _ => rfl

theorem chainRequest {c : Nat} {s t : State} (h : Machine.chainRequest c s = .next t) : s.InterruptsStay t := by
  obtain ⟨-, -, rfl⟩ := chainRequest_eq_next.mp h
  exact setChan s c _ id

theorem complete {c : Nat} {s t : State} (h : Machine.complete c s = .next t) : s.InterruptsStay t := by
  have hidle : s.InterruptsStay (s.setChan c { s.chan c with busy := false }) := setChan s c _ id
  rcases complete_cases h with ⟨-, rfl⟩ | ⟨-, u, hu, rfl⟩
  · exact hidle.trans (raiseIrq c _)
  · exact (hidle.trans (chainRequest hu)).trans (raiseIrq c _)

theorem finishXfer {c : Nat} {w : Word} {s t : State} (h : Machine.finishXfer c w s = .next t) : s.InterruptsStay t := by
  obtain ⟨_, u, -, hu, h⟩ := finishXfer_cases h
  have hcounted : s.InterruptsStay u := hu ▸ setChan s c _ id
  rcases h with ⟨-, h⟩ | ⟨-, rfl⟩
  · exact hcounted.trans (complete h)
  · exact hcounted

/-- An abort keeps the interrupt of the channel it stops (rules R182, R184). -/
theorem abortChannels (cs : List Nat) (s : State) : s.InterruptsStay (Machine.abortChannels cs s) :=
  abortChannels_induction (P := s.InterruptsStay) (fun u c k _ hu hk => by
    have haborted : u.InterruptsStay (u.setChan c k) := setChan u c k (by
      rcases hk with ⟨-, _, _, _, rfl⟩ | ⟨-, rfl⟩
      · exact id
      · exact id)
    exact (hu.trans haborted).trans (of_ch rfl)) cs (refl s)

theorem deliver {r : Res (Word × State)} {s t : State} (hr : ∀ v u, r = .next (v, u) → s.InterruptsStay u)
    (h : Machine.deliver r = .next t) : s.InterruptsStay t := by
  obtain ⟨v, u, e, rfl⟩ := deliver_eq_next.mp h
  exact (hr v u e).trans (of_ch rfl)

theorem chanRead {c : Nat} {r : ChanReg} {s t : State} (h : Machine.deliver (Machine.chanRead c r s) = .next t) :
    s.InterruptsStay t :=
  deliver (fun _ _ e => (chanRead_eq_next.mp e).2.2 ▸ refl s) h

theorem execXfer {c : Nat} {s t : State} (h : Machine.execXfer c s = .next t) : s.InterruptsStay t := by
  unfold Machine.execXfer at h
  split at h
  · obtain ⟨_, v, u, _, x, -, hread, -, hwrite, hfin⟩ := xferWord_cases h
    exact ((busRead32 hread).trans (busWrite32 hwrite)).trans (finishXfer hfin)
  · cases h; exact refl s

theorem execStart {c : Nat} {s t : State} (h : Machine.execStart c s = .next t) : s.InterruptsStay t := by
  have htaken : s.InterruptsStay (s.setChan c { s.chan c with pend := false }) := setChan s c _ id
  unfold Machine.execStart at h
  split at h
  · dsimp only at h
    split at h
    · exact htaken.trans (trigger h)
    · cases h; exact htaken
  · cases h; exact refl s

theorem execAbortDone {s t : State} (h : Machine.execAbortDone s = .next t) : s.InterruptsStay t := by
  unfold Machine.execAbortDone at h
  split at h
  · cases h; exact (abortChannels _ s).trans (of_ch rfl)
  · cases h; exact refl s

theorem samplerStep {i : Instr} {s t : State} (hi : i = .sampleHigh ∨ i = .sampleLow ∨ ∃ x, i = .sampleIn x)
    (h : Machine.exec i s = .next t) : s.InterruptsStay t := by
  obtain ⟨_, hframe⟩ := samplerStep_frame hi h
  rw [hframe]
  exact of_ch rfl

theorem waveOp {i : Instr} {s t : State} (hi : i = .waveStart ∨ i = .waveStop ∨ i = .waveStep)
    (h : Machine.exec i s = .next t) : s.InterruptsStay t := by
  rw [waveOp_frame hi h]
  exact of_ch rfl

/-- No operation clears a completion interrupt (rule R223). -/
theorem exec {i : Instr} {s t : State} (h : Machine.exec i s = .next t) : s.InterruptsStay t := by
  cases i with
  | wrReadAddr c v => exact chanWrite h
  | wrWriteAddr c v => exact chanWrite h
  | wrTransCount c v => exact chanWrite h
  | wrCtrlTrig c v => exact chanWrite h
  | wrCtrl c v => exact chanWrite h
  | rdReadAddr c => exact chanRead h
  | rdWriteAddr c => exact chanRead h
  | rdTransCount c => exact chanRead h
  | rdCtrlTrig c => exact chanRead h
  | rdCtrl c => exact chanRead h
  | wrAbort v => cases h; exact of_ch rfl
  | rdAbort => cases h; exact of_ch rfl
  | rdFifo =>
    refine deliver (r := fifoRead s) (fun v u hu => ?_) h
    obtain ⟨_, -, rfl⟩ := fifoRead_eq_next.mp hu
    exact of_ch rfl
  | wrFifo v => cases h
  | rdMem a => exact deliver (fun _ _ hu => busRead32 hu) h
  | wrMem a v => exact busWrite32 h
  | samplerStart =>
    simp only [Machine.exec, execSamplerStart] at h
    split at h <;> cases h
    · exact refl s
    · exact of_ch rfl
  | samplerStop => cases h; exact of_ch rfl
  | waveStart => exact waveOp (.inl rfl) h
  | waveStop => exact waveOp (.inr (.inl rfl)) h
  | xfer c => exact execXfer h
  | start c => exact execStart h
  | abortDone => exact execAbortDone h
  | sampleHigh => exact samplerStep (.inl rfl) h
  | sampleIn x => exact samplerStep (.inr (.inr ⟨x, rfl⟩)) h
  | sampleLow => exact samplerStep (.inr (.inl rfl)) h
  | waveStep => exact waveOp (.inr (.inr rfl)) h
  | enc =>
    simp only [Machine.exec, execEnc] at h
    split at h <;> cases h
    exact of_ch rfl

/-- Nor does what a step changes beside an operation: the agenda, the host's own part, a mark, the note. -/
theorem step {s t : State} (h : Machine.step s = .next t) : s.InterruptsStay t := by
  rcases step_exec_cases h with rfl | ⟨r, rfl⟩ | ⟨r, rfl⟩ | ⟨rest, ⟨x, rfl⟩ | ⟨i, u, x, hexec, rfl⟩⟩
  · exact refl t
  · exact of_ch rfl
  · exact of_ch rfl
  · exact of_ch (closeSession_ch _)
  · have hturn : s.InterruptsStay (s.setAgenda rest) := of_ch rfl
    have hend : u.InterruptsStay (u.setHost x).closeSession := of_ch (closeSession_ch _)
    exact (hturn.trans (exec hexec)).trans hend

end State.InterruptsStay

end Sys2Proof.Machine
end

section
/-! The statements of 60_exceptions.md. -/

namespace Sys2Proof.Exceptions

open Machine

/-- Settles O51 (rules R29, R223). -/
theorem completionInterruptIsSticky : Obligations.CompletionInterruptIsSticky := fun _ _ c hstep =>
  State.InterruptsStay.step hstep c

/-- Settles O6 (rules R37, R216, R217; log 11): settling the outcome of the turn marks the state before it, and a marked state
takes no turn. -/
theorem faultsAndRefusalsMarkTheStateAndStop : Obligations.FaultsAndRefusalsMarkTheStateAndStop := by
  intro s x rest hfault hrefusal hagenda
  have hstep : step s = settle s (runTurn x { s with agenda := rest }) := step_turn hfault hrefusal hagenda
  refine ⟨fun r hrun => ⟨?_, step_faulted rfl⟩, fun r hrun => ⟨?_, step_refused hfault rfl⟩⟩
  · rw [hstep, hrun]; rfl
  · rw [hstep, hrun]; rfl

end Sys2Proof.Exceptions
end

section
/-! SUPPORT. The two reset states of rule R235: their channels rest and their sampler and waveform generator are stopped, and what
that says of hardware steps and of the invariants. -/

namespace Sys2Proof.Machine

open Safety

/-! What is stopped. -/

/-- In a quiescent block whose sampler and waveform generator are stopped no hardware step is enabled (rules R105, R121, R153,
R158, R182). -/
theorem enabled_eq_false_of_stopped {s : State} (hq : s.quiescent = true) (hsampler : s.sampler.running = false)
    (hwave : s.wave.running = false) (h : HwStep) : h.enabled s = false := by
  obtain ⟨hchan, habort⟩ := quiescent_disables hq
  cases h with
  | xfer c => exact (hchan c).1
  | start c => exact (hchan c).2
  | abortDone => exact habort
  | sampleHigh => simp [HwStep.enabled, State.sampleHighEnabled, hsampler]
  | sampleIn => simp [HwStep.enabled, State.sampleInEnabled, hsampler]
  | sampleLow => simp [HwStep.enabled, State.sampleLowEnabled, hsampler]
  | waveStep => exact hwave

/-- A quiescent block with no session noted meets the invariant of the note (rules R44, R64). -/
theorem sessionInv_of_quiescent {s : State} (hq : s.quiescent = true) (hnone : s.session = none) : SessionInv s where
  noted_active hn := absurd hnone hn
  busy_noted hb := by
    obtain ⟨-, hrest⟩ := quiescent_resting hq
    obtain ⟨hidle, -⟩ := hrest s.params.pri
    rw [hidle] at hb
    cases hb

/-! The reset states. -/

section
variable (p : Params)

/-- No channel of the reset state of the table is busy or pending, and no abort is pending (rules R190, R235). -/
@[simp] theorem resetWith_quiescent : (State.resetWith p).quiescent = true := by
  simp [State.quiescent, State.resetWith, Channel.reset]

/-- Nor is one of the reset state with zeros. -/
@[simp] theorem resetZero_quiescent : (State.resetZero p).quiescent = true := by
  simp [State.quiescent, State.resetZero, State.resetWith, Channel.resetZero, Channel.reset]

/-- The last part of rule R235: the table's channels with 0 in each address and count register. -/
theorem resetZero_eq : State.resetZero p = { State.resetWith p with ch := (State.resetWith p).ch.map fun k =>
    { k with readAddr := .word 0#32, writeAddr := .word 0#32, countReload := .word 0#32, countLive := .word 0#32 } } := by
  simp only [State.resetZero, State.resetWith, Channel.resetZero, List.map_replicate]

end

/-- The reset state of the table meets the invariant of the block: each channel rests with control word 0, which is admitted,
and the FIFO, the shift register and memory are empty (rules R97, R235). -/
theorem resetWith_blockInv {p : Params} (hp : p.Valid) : BlockInv (State.resetWith p) where
  params_valid := hp
  channels := List.length_replicate
  channel_ok c _ := by rw [resetWith_chan]; exact .reset p
  abort_mask c _ := BitVec.getLsbD_zero
  fifo_depth := Nat.zero_le _
  fifo_packed := nofun
  isr_count := ⟨Nat.zero_mod _, (by decide : 0 < Config.pushThreshold)⟩
  isr_packed := unshiftedClear_zero p.inShiftDir
  wave_idx := List.length_pos_iff.mpr hp.wavePattern_ne
  mem_wf := List.Pairwise.nil
  mem_space := nofun

/-- So does the one with zeros, which has other address and count registers only. -/
theorem resetZero_blockInv {p : Params} (hp : p.Valid) : BlockInv (State.resetZero p) :=
  { resetWith_blockInv hp with
    channels := List.length_replicate
    channel_ok := fun c hc => by rw [resetZero_chan p hc]; exact .of_not_busy rfl rfl }

/-- The defaults of rule R6 meet its constraints and those of rule R51 (log 4), whatever the waveform pattern's bits are
(log 3). -/
theorem default_valid : Params.default.Valid where
  nch_ge := by decide
  nch_le := by decide
  pri_lt := by decide
  rst_lt := by decide
  pri_ne_rst := by decide
  dmaBase_aligned := by decide
  fifoAddr_aligned := by decide
  fifoAddr_outside := by decide
  fifoDepth_pos := by decide
  treq_ne := by decide
  wavePattern_ne := List.cons_ne_nil _ _
  ram_outside_dma := List.forall_mem_singleton.mpr (by decide)
  ram_outside_fifo := List.forall_mem_singleton.mpr (by decide)

end Sys2Proof.Machine
end

section
/-! The statements of 70_reset_and_hazards.md. -/

namespace Sys2Proof.Reset

open Machine Safety

/-- Settles O8 (rule R235; log 2, log 6): the table by its rows, then the form with zeros. -/
theorem resetIsAsTheTableSays : Obligations.ResetIsAsTheTableSays := by
  intro p
  refine ⟨List.length_replicate, fun c _ => ?_, rfl, rfl, rfl, rfl, rfl, fun _ => rfl, rfl, rfl, resetZero_eq p⟩
  rw [resetWith_chan]
  exact ⟨rfl, rfl, rfl, rfl, rfl, rfl, rfl, rfl⟩

/-- Settles O9 (rules R105, R121, R153, R158, R182, R235; log 6): at reset the block is quiescent and the sampler and the waveform
generator are stopped. -/
theorem nothingStartsByItselfAtReset : Obligations.NothingStartsByItselfAtReset := fun p h =>
  ⟨enabled_eq_false_of_stopped (resetWith_quiescent p) rfl rfl h,
    enabled_eq_false_of_stopped (resetZero_quiescent p) rfl rfl h⟩

/-- Settles O53 (rules R26, R30, R32, R33, R35, R36, R235; log 2, log 6, log 15). -/
theorem blockInvariantHoldsAtReset : Obligations.BlockInvariantHoldsAtReset :=
  ⟨resetZero_blockInv default_valid, fun _ hp => ⟨resetWith_blockInv hp, resetZero_blockInv hp⟩,
    fun p => ⟨sessionInv_of_quiescent (resetWith_quiescent p) rfl, sessionInv_of_quiescent (resetZero_quiescent p) rfl⟩⟩

end Sys2Proof.Reset
end
